-- ==== Sys2Proof/Word.lean ====
section
/-! DEFINITION. The data types the spec names: byte, command word, requested count, the content of a storage
location (a byte or `UNSPEC`), and the two port identities. -/

namespace Sys2Proof

/-- A data byte, BYTEW = 8 bits (00_scope.md R6). -/
abbrev Byte := BitVec 8

/-- A command word or a response word, 32 bits (30_encoding.md R70, R77). -/
abbrev Word := BitVec 32

/-- A 24-bit operand: a requested count (LENW = 24, 00_scope.md R6), a baud rate (10_state.md R31), or the VAL
field of a response (30_encoding.md R77). -/
abbrev Len := BitVec 24

/-- What a storage byte or a receive register holds: a byte, or `UNSPEC`, the spec's own name for the content of a
location nothing has written since reset (00_scope.md R11; 10_state.md R44 gives it as the reset value). -/
inductive Datum where
  | unspec
  | byte (b : Byte)
  deriving DecidableEq, Repr

/-- The port identities, "enumerated identities, not arbitrary" (00_scope.md R3, 30_encoding.md R70). -/
inductive Port where
  | a
  | b
  deriving DecidableEq, Repr

end Sys2Proof
end

