-- ==== Sys2Proof/Syntax.lean ====
section
/-! DEFINITION. The six commands (30_encoding.md R73), one constructor per row of spec/opcode_table.json. -/

namespace Sys2Proof

/-- The legal commands, as `decode` of 30_encoding.md R83 gives them. `RDNB` is a second spelling of `DRAIN`
(30_encoding.md R81). The buffer operand of the two reads is the buffer port, not part of the word (R72). -/
inductive Instr where
  /-- `CFG p, baud`: configure port p (43_configuration.md R135). -/
  | cfg (port : Port) (baud : Len)
  /-- `PUSH byte` (40_byte_queue.md R93). -/
  | push (byte : Byte)
  /-- `POP` (40_byte_queue.md R94). -/
  | pop
  /-- `DRAIN n` / `RDNB n`: the non-blocking read of Port A (40_byte_queue.md R96, 41_receive_pipeline.md R115). -/
  | drain (n : Len)
  /-- `RDBLK n`: the blocking read of Port B (42_receive_wait.md R125). -/
  | rdblk (n : Len)
  /-- `DEPTH`: the queue-depth query (40_byte_queue.md R95). -/
  | depth
  deriving DecidableEq, Repr

end Sys2Proof
end

