-- ==== Sys2Proof/WellFormed.lean ====
section
/-! DEFINITION. Well-formedness: the assembler lines of 30_encoding.md R80 and R81 with the range check of their operands,
and the (always met) check of a command. -/

namespace Sys2Proof

/-- A command is well formed as soon as it is a term: its operands have the widths of 30_encoding.md R72 by type. -/
def Instr.wellFormed : Instr → Bool
  | .cfg _ _ => true
  | .push _ => true
  | .pop => true
  | .drain _ => true
  | .rdblk _ => true
  | .depth => true

/-- One command line of the textual form (30_encoding.md R80), operands as the numbers written, with the
pseudo-instruction `RDNB` (R81). -/
inductive AsmLine where
  | cfg (port : Port) (baud : Nat)
  | push (byte : Nat)
  | pop
  | drain (n : Nat)
  | rdnb (n : Nat)
  | rdblk (n : Nat)
  | depth
  deriving DecidableEq, Repr

/-- The operand ranges of 30_encoding.md R80: "An operand out of its range is an assembler error, not an encoding." -/
def AsmLine.wellFormed : AsmLine → Bool
  | .cfg _ baud => decide (baud ≤ 16777215)
  | .push byte => decide (byte ≤ 255)
  | .pop => true
  | .drain n => decide (n ≤ 16777215)
  | .rdnb n => decide (n ≤ 16777215)
  | .rdblk n => decide (n ≤ 16777215)
  | .depth => true

end Sys2Proof
end

