-- ==== Sys2Proof/Decode.lean ====
section
/-! DEFINITION. The command word: its fields (30_encoding.md R70, R71), the total decoder (R83), the encoder (R83), the opcode
map as mask and match (R73), and the assembler (R80, R81). -/

namespace Sys2Proof

/-- `OP = w[31:28]` (30_encoding.md R71). -/
def opOf (w : Word) : BitVec 4 := w.extractLsb' 28 4

/-- `PORT = w[27:26]` (30_encoding.md R71). -/
def portOf (w : Word) : BitVec 2 := w.extractLsb' 26 2

/-- `RSV = w[25:24]` (30_encoding.md R71). -/
def rsvOf (w : Word) : BitVec 2 := w.extractLsb' 24 2

/-- `ARG = w[23:0]` (30_encoding.md R71). -/
def argOf (w : Word) : Len := w.extractLsb' 0 24

/-- `ARG[7:0]`, the byte operand of `PUSH` (30_encoding.md R72). -/
def argByte (arg : Len) : Byte := arg.extractLsb' 0 8

/-- `ARG[23:8]`, which must be 0 in a `PUSH` (30_encoding.md R72). -/
def argHigh (arg : Len) : BitVec 16 := arg.extractLsb' 8 16

/-- Why a word is illegal, after the list of 30_encoding.md R75. -/
inductive IllegalReason where
  /-- `RSV != 0` with any `OP`. -/
  | reservedBits
  /-- `PORT` is `0b10` or `0b11`. -/
  | reservedPort
  /-- `OP` is `0x0` or in `0x7 .. 0xF`. -/
  | reservedOpcode
  /-- `PORT = 1` with `PUSH`, `POP`, `DRAIN` or `DEPTH`; `PORT = 0` with `RDBLK`. -/
  | portLacksOperation
  /-- `PUSH` with `w[23:8] != 0`; `POP` or `DEPTH` with `ARG != 0`. -/
  | operandBits
  deriving DecidableEq, Repr

/-- What a word decodes to: a command, or `ILLEGAL` with its reason (30_encoding.md R83). -/
inductive Decoded where
  | instr (i : Instr)
  | illegal (why : IllegalReason)
  deriving DecidableEq, Repr

/-- The port a PORT field names; `0b10` and `0b11` are reserved (30_encoding.md R70). -/
def portOfField (f : BitVec 2) : Option Port :=
  if f = 0b00#2 then some .a
  else if f = 0b01#2 then some .b
  else none

/-- A command that exists for Port A only (30_encoding.md R74). -/
def onlyPortA (p : Port) (d : Decoded) : Decoded :=
  match p with
  | .a => d
  | .b => .illegal .portLacksOperation

/-- A command that exists for Port B only (30_encoding.md R74). -/
def onlyPortB (p : Port) (d : Decoded) : Decoded :=
  match p with
  | .a => .illegal .portLacksOperation
  | .b => d

/-- The rows of 30_encoding.md R83 once RSV is 0 and the port is known. -/
def decodeOp (op : BitVec 4) (p : Port) (arg : Len) : Decoded :=
  if op = 0x1#4 then .instr (.cfg p arg)
  else if op = 0x2#4 then
    onlyPortA p (if argHigh arg = 0#16 then .instr (.push (argByte arg)) else .illegal .operandBits)
  else if op = 0x3#4 then onlyPortA p (if arg = 0#24 then .instr .pop else .illegal .operandBits)
  else if op = 0x4#4 then onlyPortA p (.instr (.drain arg))
  else if op = 0x5#4 then onlyPortB p (.instr (.rdblk arg))
  else if op = 0x6#4 then onlyPortA p (if arg = 0#24 then .instr .depth else .illegal .operandBits)
  else .illegal .reservedOpcode

/-- `decode`, total on every 32-bit word (30_encoding.md R83, R75). -/
def decode (w : Word) : Decoded :=
  if rsvOf w = 0b00#2 then
    match portOfField (portOf w) with
    | some p => decodeOp (opOf w) p (argOf w)
    | none => .illegal .reservedPort
  else .illegal .reservedBits

/-- The PORT field of a port (30_encoding.md R70). -/
def portField : Port → BitVec 2
  | .a => 0b00#2
  | .b => 0b01#2

/-- A word of format `CMD`: `OP ++ PORT ++ RSV ++ ARG`, RSV zero (30_encoding.md R70). -/
def packCmd (op : BitVec 4) (p : Port) (arg : Len) : Word := op ++ portField p ++ 0b00#2 ++ arg

/-- `encode`, the inverse of `decode` on the six legal shapes (30_encoding.md R83). -/
def encode : Instr → Word
  | .cfg p baud => packCmd 0x1#4 p baud
  | .push byte => packCmd 0x2#4 .a (byte.setWidth 24)
  | .pop => packCmd 0x3#4 .a 0#24
  | .drain n => packCmd 0x4#4 .a n
  | .rdblk n => packCmd 0x5#4 .b n
  | .depth => packCmd 0x6#4 .a 0#24

/-- One row of the opcode map: the words with `(w AND mask) = pattern` are the command's (30_encoding.md R73). -/
structure OpcodeRow where
  mnemonic : String
  mask : Word
  pattern : Word
  deriving DecidableEq, Repr

/-- The opcode map of 30_encoding.md R73, row by row. -/
def opcodeMap : List OpcodeRow :=
  [ { mnemonic := "CFG", mask := 0xFB000000#32, pattern := 0x10000000#32 },
    { mnemonic := "PUSH", mask := 0xFFFFFF00#32, pattern := 0x20000000#32 },
    { mnemonic := "POP", mask := 0xFFFFFFFF#32, pattern := 0x30000000#32 },
    { mnemonic := "DRAIN", mask := 0xFF000000#32, pattern := 0x40000000#32 },
    { mnemonic := "RDBLK", mask := 0xFF000000#32, pattern := 0x54000000#32 },
    { mnemonic := "DEPTH", mask := 0xFFFFFFFF#32, pattern := 0x60000000#32 } ]

/-- "A word `w` selects the row whose `(w AND mask) = match`" (30_encoding.md R73). -/
def OpcodeRow.selects (r : OpcodeRow) (w : Word) : Bool := w &&& r.mask == r.pattern

/-- A command's mnemonic as the opcode map spells it. -/
def mnemonicOf : Instr → String
  | .cfg _ _ => "CFG"
  | .push _ => "PUSH"
  | .pop => "POP"
  | .drain _ => "DRAIN"
  | .rdblk _ => "RDBLK"
  | .depth => "DEPTH"

/-- The command a well-formed line stands for; `RDNB n` is `DRAIN n` (30_encoding.md R80, R81). -/
def asmInstr : AsmLine → Instr
  | .cfg p baud => .cfg p (BitVec.ofNat 24 baud)
  | .push byte => .push (BitVec.ofNat 8 byte)
  | .pop => .pop
  | .drain n => .drain (BitVec.ofNat 24 n)
  | .rdnb n => .drain (BitVec.ofNat 24 n)
  | .rdblk n => .rdblk (BitVec.ofNat 24 n)
  | .depth => .depth

/-- The word a line assembles to; an operand out of range is an assembler error (30_encoding.md R80). -/
def assemble (l : AsmLine) : Option Word := if l.wellFormed then some (encode (asmInstr l)) else none

/-- The word of the opcode table whose low `nbits` bits are `w` and whose other bits are 0. -/
def tableWord (nbits w : Nat) : Word := BitVec.ofNat 32 (w % 2 ^ nbits)

/-- The command the decoder reads from a word numbered as spec/opcode_table.json numbers it. -/
def decodeTableWord (nbits w : Nat) : Option Instr :=
  match decode (tableWord nbits w) with
  | .instr i => some i
  | .illegal _ => none

end Sys2Proof
end

