-- ==== Sys2Proof/Config.lean ====
section
/-! DEFINITION. The implementation parameters of 00_scope.md R6: what one implementation fixes and the spec leaves
open is an opaque constant (no body); what a claim may take either way is a field of `Params`. -/

namespace Sys2Proof

/-- `OVERRUN_POLICY` (00_scope.md R6, 41_receive_pipeline.md R111): which byte survives when one arrives while the
previous one is unread. -/
inductive OverrunPolicy where
  | keepOld
  | takeNew
  deriving DecidableEq, Repr

/-- `PORT_A_NAME` (00_scope.md R3, R6). -/
inductive UartName where
  | uart1
  | uart3
  deriving DecidableEq, Repr, Inhabited

/-- The parameters a run takes as arguments (00_scope.md R6, 10_state.md R42): the capacity C, the overrun policy and
the handler priority. No step changes them. DESIGN CHOICE: they stand in the state (assumption log 1). -/
structure Params where
  cap : Nat
  overrun : OverrunPolicy
  handlerPriority : Bool
  deriving DecidableEq, Repr

/-- The range of C: "integer, 1 <= C <= 2^24 - 1" (00_scope.md R6). -/
abbrev Params.wf (c : Params) : Prop := 1 ≤ c.cap ∧ c.cap ≤ 2 ^ 24 - 1

namespace Config

/-- IDXW, the width of `head` and `tail`: max(1, ceil(log2 C)) (00_scope.md R6). -/
def idxWidth (c : Nat) : Nat := max 1 (Nat.clog 2 c)

/-- CNTW, the width of `count`: ceil(log2 (C + 1)) (00_scope.md R6). -/
def cntWidth (c : Nat) : Nat := Nat.clog 2 (c + 1)

/-- The free choice behind the capacity of the machine that `State.reset` describes (assumption log 1). -/
opaque capacityFree : Fin 16777215

/-- C of the machine that `State.reset` describes: some number in 1 .. 2^24 - 1, which one is OPEN
(00_scope.md R6). -/
def capacity : Nat := capacityFree.val + 1

/-- The parameters of the machine that `State.reset` describes: C OPEN, the other two as 00_scope.md R6 decides. -/
def params : Params := { cap := capacity, overrun := .keepOld, handlerPriority := true }

/-- Which UART is Port A, OPEN (00_scope.md R3, R6); no rule reads it (assumption log 9). -/
opaque portAName : UartName

/-- Which UART is Port B: "Port B is the other" (00_scope.md R6). -/
def portBName : UartName :=
  match portAName with
  | .uart1 => .uart3
  | .uart3 => .uart1

/-- The free choice behind `PCLK` (assumption log 9). -/
opaque pclkFree : Nat

/-- `PCLK`, the peripheral clock frequency in hertz: a positive integer, OPEN (00_scope.md R6). -/
def pclk : Nat := pclkFree + 1

/-- `divisor(PCLK, baud)`: "OPEN (uninterpreted function)" (00_scope.md R6); no rule reads it (assumption log 9). -/
opaque divisor : Nat → Len → Nat

/-- The free part of `baud_supported` (assumption log 8). -/
opaque baudSupportedFree : Len → Bool

/-- `baud_supported(baud)`: an OPEN predicate with two fixed points, 0 unsupported and 115200 supported
(00_scope.md R6, 43_configuration.md R140). -/
def baudSupported (baud : Len) : Bool :=
  if baud = 0#24 then false
  else if baud = 115200#24 then true
  else baudSupportedFree baud

end Config
end Sys2Proof
end

