-- ==== Sys2Proof/Machine/State.lean ====
section
/-! DEFINITION. The state of the block (10_state.md R20) as plain data, the buffer port's memory, the arguments of a run that
the step function finds in the state, and the state after reset (10_state.md R44). -/

namespace Sys2Proof.Machine

/-- A byte memory: the locations written so far, addresses strictly rising. An unlisted location of space Q is
`UNSPEC` (10_state.md R21, R44); an unlisted slot of BUF holds whatever the caller had there (10_state.md R37). -/
abbrev Mem := List Host.Cell

/-- `SEQ.op`, 2 bits: IDLE = 0, DRAIN = 1, BLK = 2, FAULT = 3 (10_state.md R36). -/
inductive SeqOp where
  | idle
  | drain
  | blk
  | fault
  deriving DecidableEq, Repr

/-- `SEQ.ph`, 1 bit: POP = 0, FILL = 1 (10_state.md R36). -/
inductive Phase where
  | pop
  | fill
  deriving DecidableEq, Repr

/-- `SEQ.code`, 3 bits: 0 none, 1 F_ILLEGAL, 2 F_UNCONFIGURED, 3 F_RECONFIG, 4 F_BADBAUD; 5 to 7 are never used
(60_exceptions.md R161). -/
inductive FaultCode where
  | none
  | illegal
  | unconfigured
  | reconfig
  | badBaud
  deriving DecidableEq, Repr

/-- `SEQ`, the consumer sequencer (10_state.md R36). -/
structure Seq where
  op : SeqOp
  ph : Phase
  i : Len
  n : Len
  code : FaultCode
  deriving DecidableEq, Repr

/-- The registers each port has: `RDR[p]`, `RXNE[p]`, `CFGD[p]`, `BAUD[p]` (10_state.md R28, R29, R30, R31). -/
structure PortRegs where
  rdr : Datum
  rxne : Bool
  cfgd : Bool
  baud : Len
  deriving DecidableEq, Repr

/-- Whose turn it is (00_scope.md R14): a wire delivers a byte, the handler runs, or the consumer takes a step (an
issue step or a slot step). The script lines `rx p, b`, `isr` and the rest of 30_encoding.md R82. -/
inductive Turn where
  | wire (p : Port) (b : Byte)
  | isr
  | consumer
  deriving DecidableEq, Repr

/-- The reasons a step can stop. No state that meets the invariant `Sys2Proof.Safety.MachineInv` raises either. -/
inductive Fault where
  /-- Raised by a read of a storage byte or receive register that is `UNSPEC` (00_scope.md R11: "A model should make a read
  of `UNSPEC` a fault, not a value"): push's handler, pop, the slot steps. Safe: the model stops. -/
  | unspecRead
  /-- Raised by an access of space Q at an offset outside 0 .. C-1, which no reachable state can form
  (20_memory.md R51). Safe: the model stops. -/
  | offsetOutOfRange
  deriving DecidableEq, Repr

/-- The reasons an instruction can have no meaning. -/
inductive Refusal where
  /-- Raised by an arm of `exec` whose instruction has no meaning yet. Safe: the model stops. No arm does. -/
  | notModelled (mnemonic : String)
  deriving DecidableEq, Repr

/-- The complete state (10_state.md R20), the caller's buffer (R37), and the arguments of a run (R42): parameters, the
command words not issued yet, the turns to come. -/
structure State where
  /-- The parameters (00_scope.md R6); no step changes them. -/
  par : Params
  /-- `store`, space Q (10_state.md R21). -/
  store : Mem
  /-- `head` (10_state.md R22). -/
  head : Nat
  /-- `tail` (10_state.md R22). -/
  tail : Nat
  /-- `count` (10_state.md R23), stored, not derived (90_conflicts.md C3). -/
  count : Nat
  /-- Port A's registers. -/
  portA : PortRegs
  /-- Port B's registers. -/
  portB : PortRegs
  /-- `RXNEIE[A]` (10_state.md R32); `RXNEIE[B]` is hardwired 0 and has no field. -/
  rxneieA : Bool
  /-- `HREG_A` (10_state.md R33). -/
  hregA : Bool
  /-- `RESP` (10_state.md R35). -/
  resp : Word
  /-- `SEQ` (10_state.md R36). -/
  seq : Seq
  /-- `BUF`, space BUF, the caller's buffer (10_state.md R37). -/
  buf : Mem
  /-- The command words the consumer has yet to issue, in order (10_state.md R42, 70_reset_and_hazards.md R195). -/
  program : List Word
  /-- The turns to come, in order (10_state.md R42); see `nextTurn` for an empty list. -/
  sched : List Turn
  deriving DecidableEq, Repr

/-- A port's registers after reset (10_state.md R44). -/
def PortRegs.reset : PortRegs := { rdr := .unspec, rxne := false, cfgd := false, baud := 0#24 }

/-- The sequencer after reset: "`SEQ.op = IDLE` and the other fields are 0" (10_state.md R36). -/
def Seq.reset : Seq := { op := .idle, ph := .pop, i := 0#24, n := 0#24, code := .none }

/-- The state after reset (10_state.md R44), nothing in the program and no turn scheduled. -/
def State.reset : State :=
  { par := Config.params
    store := []
    head := 0
    tail := 0
    count := 0
    portA := PortRegs.reset
    portB := PortRegs.reset
    rxneieA := false
    hregA := false
    resp := 0x00000000#32
    seq := Seq.reset
    buf := []
    program := []
    sched := [] }

end Sys2Proof.Machine
end

