-- ==== Sys2Proof/Machine/Flags.lean ====
section
/-! DEFINITION. The flags and conditions computed from the state: EMPTY and FULL (10_state.md R26), the interrupt request
(60_exceptions.md R154), the handler's priority (R158) and the enabling of an issue step (40_byte_queue.md R90). -/

namespace Sys2Proof.Machine

/-- `EMPTY = (count == 0)` (10_state.md R26). -/
def State.empty (s : State) : Bool := s.count == 0

/-- `FULL = (count == C)` (10_state.md R26). -/
def State.full (s : State) : Bool := s.count == s.par.cap

/-- `IRQ_A = CFGD[A] and RXNEIE[A] and HREG_A and RXNE[A]` (60_exceptions.md R154). -/
def State.irqA (s : State) : Bool := s.portA.cfgd && s.rxneieA && s.hregA && s.portA.rxne

/-- The consumer is shut out: `HANDLER_PRIORITY and IRQ_A` (60_exceptions.md R158). -/
def State.shutOut (s : State) : Bool := s.par.handlerPriority && s.irqA

/-- `ISSUE(w)` is enabled: `SEQ.op = IDLE` and the consumer is not shut out (40_byte_queue.md R90). -/
def State.mayIssue (s : State) : Bool := decide (s.seq.op = .idle) && !s.shutOut

end Sys2Proof.Machine
end

