-- ==== Sys2Proof/Machine/Operands.lean ====
section
/-! DEFINITION. Operand and result forms: the response word (30_encoding.md R77), the numeric codes of the sequencer's fields
(10_state.md R36, 60_exceptions.md R161), and the index arithmetic (40_byte_queue.md R100). -/

namespace Sys2Proof.Machine

/-- A response word: ST in bit 31, bits 30:24 zero, VAL in bits 23:0 (30_encoding.md R77). -/
def respWord (st : Bool) (val : Len) : Word := BitVec.ofBool st ++ 0#7 ++ val

/-- `zext_24` of a byte, the VAL of a pop (30_encoding.md R78). -/
def zext24 (b : Byte) : Len := b.setWidth 24

/-- The count as a VAL field (30_encoding.md R78): it fits, since `count <= C <= 2^24 - 1`. -/
def countVal (count : Nat) : Len := BitVec.ofNat 24 count

/-- Index advance: `(x + 1) mod C` (40_byte_queue.md R100 (a)). -/
def nextIndex (cap x : Nat) : Nat := (x + 1) % cap

/-- The value of the field `SEQ.op` (10_state.md R36). -/
def SeqOp.bits : SeqOp → BitVec 2
  | .idle => 0#2
  | .drain => 1#2
  | .blk => 2#2
  | .fault => 3#2

/-- The value of the field `SEQ.ph` (10_state.md R36). -/
def Phase.bits : Phase → BitVec 1
  | .pop => 0#1
  | .fill => 1#1

/-- The value of the field `SEQ.code` (60_exceptions.md R161). -/
def FaultCode.bits : FaultCode → BitVec 3
  | .none => 0#3
  | .illegal => 1#3
  | .unconfigured => 2#3
  | .reconfig => 3#3
  | .badBaud => 4#3

end Sys2Proof.Machine
end

