-- ==== Sys2Proof/Machine/Ops.lean ====
section
/-! DEFINITION. The named operations over memory and registers, the two queue primitives (40_byte_queue.md R91, R92), raising a
fault (60_exceptions.md R160), the checks of an issue step (40_byte_queue.md R90), and the handler's run, entry and return in one
step (60_exceptions.md R162, R163). -/

namespace Sys2Proof.Machine

/-- The result of an operation that may stop with a fault. -/
abbrev Res (α : Type) := Host.Outcome α Fault Refusal

/-- Go on with the value of an operation that did not stop. -/
def andThen {α β : Type} (r : Res α) (f : α → Res β) : Res β :=
  match r with
  | .next a => f a
  | .fault e => .fault e
  | .refused e => .refused e

/-! ### Byte memories -/

/-- `MemRead` of one byte (00_scope.md R10): an unlisted location is `UNSPEC`. -/
def Mem.read : Mem → Nat → Datum
  | [], _ => .unspec
  | (k, v) :: rest, a => if k = a then .byte v else Mem.read rest a

/-- `MemWrite` of one byte (00_scope.md R10), keeping the addresses strictly rising. -/
def Mem.write : Mem → Nat → Byte → Mem
  | [], a, b => [(a, b)]
  | (k, v) :: rest, a, b =>
    if a < k then (a, b) :: (k, v) :: rest
    else if a = k then (a, b) :: rest
    else (k, v) :: Mem.write rest a b

/-- The canonical form: addresses strictly rising. No entry can equal what an unlisted address reads as, since that is
no byte. -/
abbrev Mem.wf (m : Mem) : Prop := m.Pairwise fun x y => x.1 < y.1

/-- `MemRead(Q:off, 1)`; an offset outside 0 .. C-1 cannot be formed (20_memory.md R51) and faults, as does a read of
`UNSPEC` (00_scope.md R11). -/
def qRead (s : State) (off : Nat) : Res Byte :=
  if off < s.par.cap then
    match Mem.read s.store off with
    | .byte v => .next v
    | .unspec => .fault .unspecRead
  else .fault .offsetOutOfRange

/-- `MemWrite(Q:off, 1, b)`; an offset outside 0 .. C-1 cannot be formed (20_memory.md R51) and faults. -/
def qWrite (s : State) (off : Nat) (b : Byte) : Res State :=
  if off < s.par.cap then .next { s with store := Mem.write s.store off b } else .fault .offsetOutOfRange

/-- `MemWrite(BUF:SEQ.i, 1, v)`, the buffer port (10_state.md R37, 20_memory.md R52). -/
def bufWrite (v : Byte) (s : State) : State := { s with buf := Mem.write s.buf s.seq.i.toNat v }

/-! ### Registers -/

/-- The registers of port p. -/
def State.port (s : State) : Port → PortRegs
  | .a => s.portA
  | .b => s.portB

/-- Replace the registers of port p. -/
def State.setPort (s : State) (p : Port) (r : PortRegs) : State :=
  match p with
  | .a => { s with portA := r }
  | .b => { s with portB := r }

/-- `RXNEIE[p]`; "`RXNEIE[B]` is hardwired 0" (10_state.md R32). -/
def State.rxneie (s : State) : Port → Bool
  | .a => s.rxneieA
  | .b => false

/-- Write `RESP` (10_state.md R35). -/
def State.setResp (s : State) (w : Word) : State := { s with resp := w }

/-- Write `SEQ` (10_state.md R36). -/
def State.setSeq (s : State) (q : Seq) : State := { s with seq := q }

/-- Reading `RDR[p]` clears `RXNE[p]` (20_memory.md R58); a read of `UNSPEC` is a fault (00_scope.md R11). -/
def readRdr (p : Port) (s : State) : Res (Byte × State) :=
  match (s.port p).rdr with
  | .byte v => .next (v, s.setPort p { s.port p with rxne := false })
  | .unspec => .fault .unspecRead

/-- The baud-rate divisor that the configuration of port p programs, `divisor(PCLK, BAUD[p])` (10_state.md R31). No rule
reads it. -/
def programmedDivisor (s : State) (p : Port) : Nat := Config.divisor Config.pclk (s.port p).baud

/-! ### The queue primitives -/

/-- The offset a push writes: none when the queue is full (40_byte_queue.md R91). -/
def pushSlot (s : State) : Option Nat := if s.full then none else some s.tail

/-- `push(b)` (40_byte_queue.md R91): the returned bit and the state after. -/
def pushByte (b : Byte) (s : State) : Res (Bool × State) :=
  match pushSlot s with
  | none => .next (false, s)
  | some off =>
    andThen (qWrite s off b) fun t =>
      .next (true, { t with tail := nextIndex s.par.cap s.tail, count := s.count + 1 })

/-- `pop()` (40_byte_queue.md R92): the byte, if one was there, and the state after. -/
def popByte (s : State) : Res (Option Byte × State) :=
  if s.empty then .next (none, s)
  else
    andThen (qRead s s.head) fun v =>
      .next (some v, { s with head := nextIndex s.par.cap s.head, count := s.count - 1 })

/-! ### Faults and the issue step's checks -/

/-- `raise Fault(code)`: `SEQ.op <- FAULT; SEQ.code <- code`, no other state changes (60_exceptions.md R160). -/
def raiseFault (code : FaultCode) (s : State) : State := { s with seq := { s.seq with op := .fault, code := code } }

/-- An issue step that is not enabled is no step: the consumer is held and nothing changes
(40_byte_queue.md R90, 00_scope.md R12). -/
def whenMayIssue (s : State) (k : Res State) : Res State := if s.mayIssue then k else .next s

/-- The check of every command but `CFG` (40_byte_queue.md R90): `CFGD[q] = 0` is `F_UNCONFIGURED`. -/
def whenConfigured (q : Port) (s : State) (k : Res State) : Res State :=
  whenMayIssue s (if (s.port q).cfgd then k else .next (raiseFault .unconfigured s))

/-! ### Slots -/

/-- The end of a slot step: IDLE after the last slot, else the next slot (40_byte_queue.md R97, R98; 42_receive_wait.md R127).
The comparison is on unsigned integers (40_byte_queue.md R100). -/
def advanceSlot (s : State) : State :=
  if s.seq.i.toNat + 1 = s.seq.n.toNat then s.setSeq { s.seq with op := .idle }
  else s.setSeq { s.seq with i := s.seq.i + 1#24 }

/-- Fill the next slot of the caller's buffer and advance. -/
def fillSlot (v : Byte) (s : State) : State := advanceSlot (bufWrite v s)

/-! ### The interrupt -/

/-- `ISR_A`, one whole run of the Port A handler (41_receive_pipeline.md R112): entry saves nothing and changes no mode
(60_exceptions.md R162), the body reads `RDR[A]`, clears `RXNE[A]` and pushes, the returned bit is thrown away (R113), and the
return restores and re-enables nothing (60_exceptions.md R163). Not enabled, it is no step. -/
def isrA (s : State) : Res State :=
  if s.irqA then
    andThen (readRdr .a s) fun r => andThen (pushByte r.1 r.2) fun q => .next q.2
  else .next s

end Sys2Proof.Machine
end

