-- ==== Sys2Proof/Machine/ByteQueue.lean ====
section
/-! DEFINITION. The commands of the Byte Queue: `PUSH`, `POP`, `DRAIN` / `RDNB`, `DEPTH` (40_byte_queue.md R93 to R99), and the
slot steps of a drain. -/

namespace Sys2Proof.Machine

/-- `PUSH byte` (40_byte_queue.md R93): `RESP <- (ok << 31)`. -/
def execPush (byte : Byte) (s : State) : Res State :=
  whenConfigured .a s (andThen (pushByte byte s) fun r => .next (r.2.setResp (respWord r.1 0#24)))

/-- The response of a pop: ST tells a zero byte from an empty queue (40_byte_queue.md R94, 30_encoding.md R78). -/
def popResp : Option Byte → Word
  | some v => respWord true (zext24 v)
  | none => respWord false 0#24

/-- `POP` (40_byte_queue.md R94). -/
def execPop (s : State) : Res State :=
  whenConfigured .a s (andThen (popByte s) fun r => .next (r.2.setResp (popResp r.1)))

/-- `DEPTH` (40_byte_queue.md R95): `RESP <- 0x80000000 OR zext_24(count)`, nothing else changes. -/
def execDepth (s : State) : Res State :=
  whenConfigured .a s (.next (s.setResp (respWord true (countVal s.count))))

/-- `DRAIN n` / `RDNB n`, the issue step (40_byte_queue.md R96): with n = 0 nothing changes. -/
def execDrain (n : Len) (s : State) : Res State :=
  whenConfigured .a s
    (.next (if n = 0#24 then s else s.setSeq { s.seq with op := .drain, ph := .pop, i := 0#24, n := n }))

/-- A drain's slot step in phase POP (40_byte_queue.md R97): the popped byte, or the zero byte and phase FILL. -/
def drainPopSlot (s : State) : Res State :=
  andThen (popByte s) fun r =>
    match r.1 with
    | some v => .next (fillSlot v r.2)
    | none => .next (fillSlot 0x00#8 (r.2.setSeq { r.2.seq with ph := .fill }))

/-- A drain's slot step in phase FILL: the zero byte, the queue not looked at (40_byte_queue.md R98). -/
def drainFillSlot (s : State) : Res State := .next (fillSlot 0x00#8 s)

/-- A drain's slot step, by its phase. -/
def drainSlot (s : State) : Res State :=
  match s.seq.ph with
  | .pop => drainPopSlot s
  | .fill => drainFillSlot s

end Sys2Proof.Machine
end

