-- ==== Sys2Proof/Machine/Configuration.lean ====
section
/-! DEFINITION. `CFG` (43_configuration.md R135 to R143). -/

namespace Sys2Proof.Machine

/-- What a `CFG` of either port does: record the rate, clear `RXNE[p]`, make `RDR[p]` `UNSPEC`, set `CFGD[p]`
(43_configuration.md R135). -/
def configurePort (p : Port) (baud : Len) (s : State) : State :=
  s.setPort p { rdr := .unspec, rxne := false, cfgd := true, baud := baud }

/-- What `CFG A` adds: the empty queue, the armed interrupt, the registered handler (43_configuration.md R137). -/
def createQueue (s : State) : State :=
  { s with head := 0, tail := 0, count := 0, rxneieA := true, hregA := true }

/-- A `CFG` that passed its checks; `CFG B` arms no interrupt and creates no queue (43_configuration.md R138). -/
def configured (p : Port) (baud : Len) (s : State) : State :=
  match p with
  | .a => createQueue (configurePort .a baud s)
  | .b => configurePort .b baud s

/-- `CFG p, baud` (43_configuration.md R135): a second `CFG` of a port is `F_RECONFIG` (R139), an unsupported rate is
`F_BADBAUD` (R140), checked in that order (60_exceptions.md R159). -/
def execCfg (p : Port) (baud : Len) (s : State) : Res State :=
  whenMayIssue s
    (.next
      (if (s.port p).cfgd then raiseFault .reconfig s
       else if Config.baudSupported baud then configured p baud s
       else raiseFault .badBaud s))

end Sys2Proof.Machine
end

