-- ==== Sys2Proof/Machine/ReceiveWait.lean ====
section
/-! DEFINITION. The blocking read of Port B, `RDBLK` (42_receive_wait.md R125 to R132), and its slot step. -/

namespace Sys2Proof.Machine

/-- `RDBLK n`, the issue step (42_receive_wait.md R125): with n = 0 nothing changes (R130); `SEQ.ph` is not used. -/
def execRdblk (n : Len) (s : State) : Res State :=
  whenConfigured .b s
    (.next (if n = 0#24 then s else s.setSeq { s.seq with op := .blk, i := 0#24, n := n }))

/-- The slot step of `RDBLK` (42_receive_wait.md R127); while `RXNE[B] = 0` the consumer is held and nothing changes
(R126). -/
def blkSlot (s : State) : Res State :=
  if s.portB.rxne then andThen (readRdr .b s) fun r => .next (fillSlot r.1 r.2) else .next s

end Sys2Proof.Machine
end

