-- ==== Sys2Proof/Machine/Dispatch.lean ====
section
/-! DEFINITION. `exec`: the issue step of each command (40_byte_queue.md R90), one arm per constructor. -/

namespace Sys2Proof.Machine

/-- The issue step of a decoded command: the checks of 40_byte_queue.md R90, then the rule of the command. -/
def exec (i : Instr) (s : State) : Host.Outcome State Fault Refusal :=
  match i with
  | .cfg port baud => Sys2Proof.Machine.execCfg port baud s
  | .push byte => Sys2Proof.Machine.execPush byte s
  | .pop => Sys2Proof.Machine.execPop s
  | .drain n => Sys2Proof.Machine.execDrain n s
  | .rdblk n => Sys2Proof.Machine.execRdblk n s
  | .depth => Sys2Proof.Machine.execDepth s

end Sys2Proof.Machine
end

