-- ==== Sys2Proof/Machine/ReceivePipeline.lean ====
section
/-! DEFINITION. The arrival of a byte at a port (41_receive_pipeline.md R111). The handler's run is `isrA` in Ops. -/

namespace Sys2Proof.Machine

/-- What an arriving byte does to its port's registers (41_receive_pipeline.md R111): nothing while the port is not
configured; loaded when the register is free; at an overrun the policy says which byte survives. -/
def receive (policy : OverrunPolicy) (b : Byte) (r : PortRegs) : PortRegs :=
  if r.cfgd then
    if r.rxne then
      match policy with
      | .keepOld => r
      | .takeNew => { r with rdr := .byte b }
    else { r with rdr := .byte b, rxne := true }
  else r

/-- `WIRE(p, b)`: port p has finished receiving the byte b (41_receive_pipeline.md R111). Always enabled. -/
def wire (p : Port) (b : Byte) (s : State) : State := s.setPort p (receive s.par.overrun b (s.port p))

end Sys2Proof.Machine
end

