-- ==== Sys2Proof/Machine/Turns.lean ====
section
/-! DEFINITION. The steps of the agents (00_scope.md R14): the issue step with its fetch from the command port, the slot step of
the command in progress, and whose turn is next. -/

namespace Sys2Proof.Machine

/-- `ISSUE(w)` with the word already taken from the command port: an illegal word is `F_ILLEGAL`, checked first
(40_byte_queue.md R90, 60_exceptions.md R159). -/
def issue (w : Word) (s : State) : Res State :=
  match decode w with
  | .instr i => exec i s
  | .illegal _ => .next (raiseFault .illegal s)

/-- Take the next command word from the command port and issue it (20_memory.md R66); with no word left there is no step. -/
def issueNext (s : State) : Res State :=
  match s.program with
  | [] => .next s
  | w :: ws => issue w { s with program := ws }

/-- A consumer step that is not shut out: an issue step or the slot step of the operation in progress; none after a fault
(40_byte_queue.md R90, R97, R98; 42_receive_wait.md R127; 60_exceptions.md R160). -/
def consumerAct (s : State) : Res State :=
  match s.seq.op with
  | .idle => issueNext s
  | .drain => drainSlot s
  | .blk => blkSlot s
  | .fault => .next s

/-- The consumer's turn: no consumer step is enabled while the handler shuts it out (60_exceptions.md R158). -/
def consumerTurn (s : State) : Res State := if s.shutOut then .next s else consumerAct s

/-- The step of the agent whose turn it is; an agent with no enabled step is held and nothing changes (00_scope.md R12). -/
def takeTurn (t : Turn) (s : State) : Res State :=
  match t with
  | .wire p b => .next (wire p b s)
  | .isr => isrA s
  | .consumer => consumerTurn s

/-- Whether the agent has an enabled step (20_memory.md R61 (c), 90_conflicts.md C6). -/
def Turn.enabled (s : State) : Turn → Bool
  | .wire _ _ => true
  | .isr => s.irqA
  | .consumer =>
    !s.shutOut &&
      match s.seq.op with
      | .idle => !s.program.isEmpty
      | .drain => true
      | .blk => s.portB.rxne
      | .fault => false

/-- Whose turn is next: the first of the schedule; with none scheduled the handler if it is requested, else the consumer.
DESIGN CHOICE (assumption log 4), after the fairness of 70_reset_and_hazards.md R194. -/
def nextTurn (s : State) : Turn :=
  match s.sched with
  | t :: _ => t
  | [] => if s.irqA then .isr else .consumer

/-- The state with the next turn taken off the schedule. -/
def dropTurn (s : State) : State := { s with sched := s.sched.tail }

/-- The state with a word put at the command port and the turn given to the consumer. -/
def placeWord (w : Word) (s : State) : State := { s with program := w :: s.program, sched := .consumer :: s.sched }

end Sys2Proof.Machine
end

