-- ==== Sys2Proof/Machine/Step.lean ====
section
/-! DEFINITION. One step of the machine, and where a command word is placed for it. -/

namespace Sys2Proof.Machine

/-- One atomic step (00_scope.md R14, 20_memory.md R61): the agent whose turn is next takes its step. -/
def step (s : State) : Host.Outcome State Fault Refusal := takeTurn (nextTurn s) (dropTurn s)

/-- The state with the opcode table's word at the command port, and the consumer's turn next (assumption log 5). -/
def State.withFetchWord (s : State) (nbits w : Nat) : State := placeWord (tableWord nbits w) s

end Sys2Proof.Machine
end

