-- ==== Sys2Proof/Safety.lean ====
section
/-! DEFINITION. What counts as a good state and a safe run, the abstract content of the queue (00_scope.md R15), the bounded
list it refines (40_byte_queue.md R103), the history of a run, termination and the observable result of a run
(70_reset_and_hazards.md R195), and the named premises of claims (R187, R188, R189). -/

namespace Sys2Proof.Safety

open Sys2Proof.Machine

/-! ### The abstract queue -/

/-- The offset of the k-th oldest byte: `(head + k) mod C` (00_scope.md R15). -/
def heldSlot (s : State) (k : Nat) : Nat := (s.head + k) % s.par.cap

/-- The abstract content of the queue, oldest byte first (00_scope.md R15). -/
def contents (s : State) : List Datum := (List.range s.count).map fun k => Mem.read s.store (heldSlot s k)

/-- Append if there is room (40_byte_queue.md R103). -/
def boundedPush (cap : Nat) (l : List Datum) (b : Byte) : List Datum :=
  if l.length < cap then l ++ [.byte b] else l

/-- Push a list of bytes one after the other: the returned bits and the state after (40_byte_queue.md R101). -/
def pushAll : List Byte → State → Res (List Bool × State)
  | [], s => .next ([], s)
  | b :: bs, s => andThen (pushByte b s) fun r => andThen (pushAll bs r.2) fun q => .next (r.1 :: q.1, q.2)

/-! ### Invariants -/

/-- "0 ≤ count ≤ C; head and tail are always taken modulo C" (10_state.md R24). -/
structure QueueBounds (s : State) : Prop where
  cap_wf : s.par.wf
  count_le : s.count ≤ s.par.cap
  head_lt : s.head < s.par.cap
  tail_lt : s.tail < s.par.cap

/-- The queue's invariants (10_state.md R24, R25, R27) and the canonical form of its storage. -/
structure QueueInv (s : State) : Prop extends QueueBounds s where
  tail_eq : s.tail = (s.head + s.count) % s.par.cap
  store_wf : Mem.wf s.store
  store_inside : ∀ c ∈ s.store, c.1 < s.par.cap
  held_written : ∀ k < s.count, Mem.read s.store (heldSlot s k) ≠ .unspec

/-- A port's invariants: a ready byte is there only on a configured port (41_receive_pipeline.md R111) and has been written
(00_scope.md R11); a configured port has a supported rate (43_configuration.md R140), an unconfigured one the reset value
(10_state.md R44). -/
structure PortInv (r : PortRegs) : Prop where
  ready_configured : r.rxne = true → r.cfgd = true
  ready_written : r.rxne = true → r.rdr ≠ .unspec
  configured_rate : r.cfgd = true → Config.baudSupported r.baud = true
  unconfigured_rate : r.cfgd = false → r.baud = 0#24

/-- `HREG_A = RXNEIE[A] = CFGD[A]` (10_state.md R33), and no queue before `CFG A` (10_state.md R45). -/
structure ControlInv (s : State) : Prop where
  rxneie_eq : s.rxneieA = s.portA.cfgd
  hreg_eq : s.hregA = s.portA.cfgd
  no_queue : s.portA.cfgd = false → s.head = 0 ∧ s.tail = 0 ∧ s.count = 0

/-- The sequencer's invariants: an operation in progress has a slot left and a configured port, and the fault code is none
exactly while there is no fault (10_state.md R36, R39; 60_exceptions.md R161). -/
structure SeqInv (s : State) : Prop where
  drain_slot : s.seq.op = .drain → s.seq.i.toNat < s.seq.n.toNat ∧ s.portA.cfgd = true
  blk_slot : s.seq.op = .blk → s.seq.i.toNat < s.seq.n.toNat ∧ s.portB.cfgd = true
  code_none : s.seq.code = .none ↔ s.seq.op ≠ .fault

/-- The buffer port's memory: canonical, and only slots a transfer can name (20_memory.md R50). -/
structure BufInv (s : State) : Prop where
  buf_wf : Mem.wf s.buf
  buf_inside : ∀ c ∈ s.buf, c.1 < 2 ^ 24 - 1

/-- The invariant of the machine. -/
structure MachineInv (s : State) : Prop where
  queue : QueueInv s
  portA : PortInv s.portA
  portB : PortInv s.portB
  control : ControlInv s
  seq : SeqInv s
  buf : BufInv s

/-! ### Runs -/

/-- k steps of the machine (the host's `Core.run`, written over `step`). -/
def runFor : Nat → State → Host.Outcome State Fault Refusal
  | 0, s => .next s
  | k + 1, s => andThen (step s) (runFor k)

/-- A run that never stops with a fault or a refusal. -/
def SafeRun (s : State) : Prop := ∀ k, ∃ t, runFor k s = .next t

/-- The run has terminated (70_reset_and_hazards.md R195): every word issued, `SEQ.op = IDLE`, `IRQ_A` false. -/
def terminated (s : State) : Bool := s.program.isEmpty && decide (s.seq.op = .idle) && !s.irqA

/-- The result of a completed read of count n: `BUF[0 .. n-1]` (10_state.md R37). -/
def result (s : State) (n : Nat) : List Datum := (List.range n).map fun j => Mem.read s.buf j

/-- The command the next step issues, if it is an enabled issue step of a legal word. -/
def issued (s : State) : Option Instr :=
  match nextTurn s with
  | .consumer =>
    if s.mayIssue then
      match s.program with
      | [] => none
      | w :: _ =>
        match decode w with
        | .instr i => some i
        | .illegal _ => none
    else none
  | _ => none

/-- The next step is a `PUSH` that reaches the queue. -/
def pushCommand (s : State) : Option Byte :=
  match issued s with
  | some (.push b) => if s.portA.cfgd then some b else none
  | _ => none

/-- The next step pops the queue: a `POP` that reaches it, or a drain's slot step in phase POP. -/
def popsQueue (s : State) : Bool :=
  match nextTurn s with
  | .consumer =>
    !s.shutOut &&
      (decide (s.seq.op = .drain ∧ s.seq.ph = .pop) || (decide (issued s = some .pop) && s.portA.cfgd))
  | _ => false

/-- The bytes the next step pushes with success (40_byte_queue.md R91): the handler's, or a `PUSH` command's. -/
def pushedBy (s : State) : List Datum :=
  match nextTurn s with
  | .wire _ _ => []
  | .isr => if s.irqA && !s.full then [s.portA.rdr] else []
  | .consumer =>
    match pushCommand s with
    | some b => if s.full then [] else [.byte b]
    | none => []

/-- The bytes the next step pops with success (40_byte_queue.md R92). -/
def poppedBy (s : State) : List Datum :=
  if popsQueue s && !s.empty then [Mem.read s.store s.head] else []

/-- The bytes the next step receives on the wire of the configured Port A (41_receive_pipeline.md R111). -/
def arrivedBy (s : State) : List Datum :=
  match nextTurn s with
  | .wire .a b => if s.portA.cfgd then [.byte b] else []
  | _ => []

/-- The bytes the next step takes out of the queue for a read: the pop of a drain's slot step (40_byte_queue.md R97). -/
def drainedBy (s : State) : List Datum := if s.seq.op = .drain then poppedBy s else []

/-- The bytes the next step, a run of the handler, pushes with success (41_receive_pipeline.md R112). -/
def handedBy (s : State) : List Datum := if nextTurn s = .isr then pushedBy s else []

/-- The next step is an overrun of Port A (41_receive_pipeline.md R111). -/
def overrunsA (s : State) : Bool :=
  match nextTurn s with
  | .wire .a _ => s.portA.cfgd && s.portA.rxne
  | _ => false

/-- The next step is a run of the handler on a full queue: its byte is dropped (41_receive_pipeline.md R113). -/
def dropsByte (s : State) : Bool :=
  match nextTurn s with
  | .isr => s.irqA && s.full
  | _ => false

/-- The next step loses a byte of Port A, in the receive register or at the queue. -/
def losesByte (s : State) : Bool := overrunsA s || dropsByte s

/-- What a run of k steps adds up to, oldest first. -/
def history (f : State → List Datum) : Nat → State → List Datum
  | 0, _ => []
  | k + 1, s =>
    f s ++
      match step s with
      | .next t => history f k t
      | .fault _ => []
      | .refused _ => []

/-- No step of a run of k steps is one that `f` marks. -/
def never (f : State → Bool) : Nat → State → Bool
  | 0, _ => true
  | k + 1, s =>
    !f s &&
      match step s with
      | .next t => never f k t
      | .fault _ => true
      | .refused _ => true

/-- No step of a run of k steps loses a byte of Port A. -/
def lossless (k : Nat) (s : State) : Bool := never losesByte k s

/-- The byte waiting unread in `RDR[A]` (10_state.md R41 (a)). -/
def pendingByte (s : State) : List Datum := if s.portA.rxne then [s.portA.rdr] else []

/-- The steps taken in a run of k steps, in order; the turn of an agent with no enabled step is no step
(00_scope.md R12). -/
def stepsTaken : Nat → State → List Turn
  | 0, _ => []
  | k + 1, s =>
    (if (nextTurn s).enabled s then [nextTurn s] else []) ++
      match step s with
      | .next t => stepsTaken k t
      | .fault _ => []
      | .refused _ => []

/-! ### The observable result of a run (70_reset_and_hazards.md R195) -/

/-- What one command leaves for the application to see. -/
inductive Observation where
  /-- The result list of a completed `DRAIN` / `RDNB` or `RDBLK` (10_state.md R37). -/
  | read (bytes : List Datum)
  /-- The `RESP` that a `PUSH`, `POP` or `DEPTH` left. -/
  | resp (w : Word)
  deriving DecidableEq, Repr

/-- Whether it is the result of a read. -/
def Observation.isRead : Observation → Bool
  | .read _ => true
  | .resp _ => false

/-- What the issue step of a command lets the application see in the state after: the response, or the empty list of a
read of 0 bytes, which completes there; a longer read completes in its last slot step. -/
def observedAtIssue (i : Instr) (t : State) : List Observation :=
  match i with
  | .cfg _ _ => []
  | .push _ => [.resp t.resp]
  | .pop => [.resp t.resp]
  | .depth => [.resp t.resp]
  | .drain n => if n = 0#24 then [.read (result t 0)] else []
  | .rdblk n => if n = 0#24 then [.read (result t 0)] else []

/-- What the step from `s` to `t` lets the application see: nothing of a command that faults; the result list of a read
that its last slot step completes. -/
def observedBy (s t : State) : List Observation :=
  match issued s with
  | some i => if t.seq.op = .fault then [] else observedAtIssue i t
  | none =>
    if (s.seq.op = .drain ∨ s.seq.op = .blk) ∧ t.seq.op = .idle then [.read (result t s.seq.n.toNat)] else []

/-- What a run of k steps lets the application see, in the order of the commands. -/
def observations : Nat → State → List Observation
  | 0, _ => []
  | k + 1, s =>
    match step s with
    | .next t => observedBy s t ++ observations k t
    | .fault _ => []
    | .refused _ => []

/-- The observable result of a terminated run: what each command left, and the final state. -/
structure RunResult where
  observed : List Observation
  final : State
  deriving DecidableEq, Repr

/-- The observable result of a run of k steps: none unless the run has terminated. -/
def observable (k : Nat) (s : State) : Option RunResult :=
  match runFor k s with
  | .next t => if terminated t then some { observed := observations k s, final := t } else none
  | .fault _ => none
  | .refused _ => none

/-- What a command is bound to leave if it completes: nothing (`CFG`), the list of a read (`true`) or a response (`false`). -/
def commandLeavesRead (i : Instr) : Option Bool :=
  match i with
  | .cfg _ _ => none
  | .push _ => some false
  | .pop => some false
  | .depth => some false
  | .drain _ => some true
  | .rdblk _ => some true

/-- What a command word is bound to leave if it completes; an illegal word never does. -/
def leavesRead (w : Word) : Option Bool :=
  match decode w with
  | .instr i => commandLeavesRead i
  | .illegal _ => none

/-! ### Premises of claims (70_reset_and_hazards.md section 3) -/

/-- The producer's half of H-SPSC: no word of the program is a `PUSH` ("must never push", R187). -/
def NoPush (s : State) : Prop := ∀ w ∈ s.program, ∀ b, decode w ≠ .instr (.push b)

/-- The consumer's half of H-SPSC: no word of the program is a `POP`, so that the queue's consumption side is reached "only
through `RDNB`" (R187). -/
def NoPop (s : State) : Prop := ∀ w ∈ s.program, decode w ≠ .instr .pop

/-- H-SPSC, the sanctioned use (70_reset_and_hazards.md R187): "the command sequence holds no `PUSH` and no `POP`"
(40_byte_queue.md R102). -/
structure SingleProducerSingleConsumer (s : State) : Prop where
  no_push : NoPush s
  no_pop : NoPop s

/-- H-RATE-A, the premise `P_RATE_A` on the steps of an execution (70_reset_and_hazards.md R188): "between any two
`WIRE(A, .)` steps of an execution there is an `ISR_A` step". -/
def RateA (steps : List Turn) : Prop :=
  ∀ before between after b c, steps = before ++ .wire .a b :: (between ++ .wire .a c :: after) → .isr ∈ between

/-- H-DEPTH over a run of k steps (70_reset_and_hazards.md R189): `ISR_A` never runs with `count = C`. -/
def depthKept (k : Nat) (s : State) : Bool := never dropsByte k s

end Sys2Proof.Safety
end

