-- ==== Sys2Proof/Certificates/Slice0/Obligations.lean ====
section
/-! DEFINITION. The statements for the provers, each after a numbered rule of spec/ or the sections it names. -/

open Sys2Proof Sys2Proof.Machine Sys2Proof.Safety

/-! ### Encoding -/

/-- 30_encoding.md R83: the decoder line by line, the six encoded shapes, and the two round trips
(`decode(encode(x)) = x`, `encode(decode(w)) = w`), for every word and every command with every operand value. -/
def Obligations.DecodeAndEncodeFollowTheRule : Prop :=
  (∀ w : Word,
    (rsvOf w ≠ 0#2 → ∃ why, decode w = .illegal why) ∧
    (rsvOf w = 0#2 →
      (opOf w = 0x1#4 → w.getLsbD 27 = false →
        decode w = .instr (.cfg (if w.getLsbD 26 then .b else .a) (w.extractLsb' 0 24))) ∧
      (opOf w = 0x2#4 → portOf w = 0#2 → w.extractLsb' 8 16 = 0#16 → decode w = .instr (.push (w.extractLsb' 0 8))) ∧
      (opOf w = 0x4#4 → portOf w = 0#2 → decode w = .instr (.drain (w.extractLsb' 0 24))) ∧
      (opOf w = 0x5#4 → portOf w = 1#2 → decode w = .instr (.rdblk (w.extractLsb' 0 24)))) ∧
    (w = 0x30000000#32 → decode w = .instr .pop) ∧
    (w = 0x60000000#32 → decode w = .instr .depth) ∧
    (¬(rsvOf w = 0#2 ∧
        ((opOf w = 0x1#4 ∧ w.getLsbD 27 = false) ∨
         (opOf w = 0x2#4 ∧ portOf w = 0#2 ∧ w.extractLsb' 8 16 = 0#16) ∨
         w = 0x30000000#32 ∨
         (opOf w = 0x4#4 ∧ portOf w = 0#2) ∨
         (opOf w = 0x5#4 ∧ portOf w = 1#2) ∨
         w = 0x60000000#32)) →
      ∃ why, decode w = .illegal why)) ∧
  (∀ p baud, encode (.cfg p baud) = 0x10000000#32 ||| ((portField p).setWidth 32 <<< 26) ||| baud.setWidth 32) ∧
  (∀ b, encode (.push b) = 0x20000000#32 ||| b.setWidth 32) ∧
  encode .pop = 0x30000000#32 ∧
  (∀ n, encode (.drain n) = 0x40000000#32 ||| n.setWidth 32) ∧
  (∀ n, encode (.rdblk n) = 0x54000000#32 ||| n.setWidth 32) ∧
  encode .depth = 0x60000000#32 ∧
  (∀ i : Instr, i.wellFormed = true → decode (encode i) = .instr i) ∧
  (∀ w i, decode w = .instr i → encode i = w)

/-- 30_encoding.md section 3 (opcode map): a word decodes to a command exactly through the row it selects, and no word
selects two rows. -/
def Obligations.OpcodeMapSelectsTheCommand : Prop :=
  (∀ w i, decode w = .instr i → ∃ r ∈ opcodeMap, r.mnemonic = mnemonicOf i ∧ r.selects w = true) ∧
  (∀ w, ∀ r ∈ opcodeMap, r.selects w = true → ∃ i, decode w = .instr i ∧ mnemonicOf i = r.mnemonic) ∧
  (∀ w, ∀ r ∈ opcodeMap, ∀ q ∈ opcodeMap, r.selects w = true → q.selects w = true → r = q)

/-- 30_encoding.md R75: the illegal words are those that select no row, which is the list spelled out; the all-zero and
the all-one word are illegal; issuing an illegal word is `raise Fault(F_ILLEGAL)`. -/
def Obligations.IllegalWordsAreTheListedOnes : Prop :=
  (∀ w : Word,
    ((∃ why, decode w = .illegal why) ↔ ∀ r ∈ opcodeMap, r.selects w = false) ∧
    ((∃ why, decode w = .illegal why) ↔
      opOf w = 0x0#4 ∨ 0x7#4 ≤ opOf w ∨ rsvOf w ≠ 0#2 ∨ portOf w = 0b10#2 ∨ portOf w = 0b11#2 ∨
      (portOf w = 1#2 ∧ (opOf w = 0x2#4 ∨ opOf w = 0x3#4 ∨ opOf w = 0x4#4 ∨ opOf w = 0x6#4)) ∨
      (portOf w = 0#2 ∧ opOf w = 0x5#4) ∨
      (opOf w = 0x2#4 ∧ w.extractLsb' 8 16 ≠ 0#16) ∨
      ((opOf w = 0x3#4 ∨ opOf w = 0x6#4) ∧ argOf w ≠ 0#24))) ∧
  (∃ why, decode 0x00000000#32 = .illegal why) ∧
  (∃ why, decode 0xFFFFFFFF#32 = .illegal why) ∧
  (∀ w why s, decode w = .illegal why → issue w s = .next (raiseFault .illegal s))

/-- 95_test_vectors.md section 2.1: words written out by the spec decode to the commands they stand for. -/
def Obligations.SpecWordsDecode : Prop :=
  decode 0x1001C200#32 = .instr (.cfg .a 115200#24) ∧
  decode 0x1401C200#32 = .instr (.cfg .b 115200#24) ∧
  decode 0x20000041#32 = .instr (.push 0x41#8) ∧
  decode 0x30000000#32 = .instr .pop ∧
  decode 0x40000005#32 = .instr (.drain 5#24) ∧
  decode 0x54000001#32 = .instr (.rdblk 1#24) ∧
  decode 0x60000000#32 = .instr .depth

/-- 30_encoding.md section 6 (assembler syntax): the word of each line with its operand in range, no word with the
operand out of range, and `RDNB n` assembles to exactly the word of `DRAIN n`. -/
def Obligations.AssemblerLinesGiveTheirWords : Prop :=
  (∀ p baud, assemble (.cfg p baud) =
    if baud ≤ 16777215 then some (BitVec.ofNat 32 ((match p with | .a => 0x10000000 | .b => 0x14000000) + baud)) else none) ∧
  (∀ b, assemble (.push b) = if b ≤ 255 then some (BitVec.ofNat 32 (0x20000000 + b)) else none) ∧
  assemble .pop = some 0x30000000#32 ∧
  (∀ n, assemble (.drain n) = if n ≤ 16777215 then some (BitVec.ofNat 32 (0x40000000 + n)) else none) ∧
  (∀ n, assemble (.rdblk n) = if n ≤ 16777215 then some (BitVec.ofNat 32 (0x54000000 + n)) else none) ∧
  assemble .depth = some 0x60000000#32 ∧
  (∀ n, assemble (.rdnb n) = assemble (.drain n))

/-- 30_encoding.md section 5 (response encoding): a packed response word has ST in bit 31, zero in bits 30:24 and VAL in bits
23:0; the reserved bits 30:24 of `RESP` are zero after reset and every step keeps them zero. -/
def Obligations.ResponseWordHasItsFields : Prop :=
  (∀ st val, (respWord st val).getLsbD 31 = st ∧ (respWord st val).extractLsb' 24 7 = 0#7 ∧
    (respWord st val).extractLsb' 0 24 = val) ∧
  State.reset.resp.extractLsb' 24 7 = 0#7 ∧
  ∀ s t : State, s.resp.extractLsb' 24 7 = 0#7 → step s = .next t → t.resp.extractLsb' 24 7 = 0#7

/-! ### Steps -/

/-- A step runs the decoded command: at a consumer's turn with a legal word next, the step is `exec` of the command at
the state with that word and that turn taken off; with an illegal word it is `raise Fault(F_ILLEGAL)` there; with another
turn next it is that agent's step. (That the turns and the words stand in the state is the model's choice, log entries 3
and 5.) -/
def Obligations.StepRunsTheDecodedCommand : Prop :=
  ∀ s : State,
    (∀ w ws, nextTurn s = .consumer → s.mayIssue = true → s.program = w :: ws →
      (∀ i, decode w = .instr i → step s = exec i { s with program := ws, sched := s.sched.tail }) ∧
      (∀ why, decode w = .illegal why →
        step s = .next (raiseFault .illegal { s with program := ws, sched := s.sched.tail }))) ∧
    (∀ p b, nextTurn s = .wire p b → step s = .next (wire p b { s with sched := s.sched.tail })) ∧
    (nextTurn s = .isr → step s = isrA { s with sched := s.sched.tail }) ∧
    (nextTurn s = .consumer → s.shutOut = false →
      (s.seq.op = .drain → step s = drainSlot { s with sched := s.sched.tail }) ∧
      (s.seq.op = .blk → step s = blkSlot { s with sched := s.sched.tail }))

/-- Whose turn it is: the first of the schedule, and with none scheduled the handler if it is requested, else the consumer
(the model's choice, log entries 3 and 4, after the fairness of 70_reset_and_hazards.md section 4). -/
def Obligations.TurnsFollowTheSchedule : Prop :=
  (∀ s tn rest, s.sched = tn :: rest → step s = takeTurn tn { s with sched := rest }) ∧
  (∀ s, s.sched = [] → s.irqA = true → step s = isrA s) ∧
  (∀ s, s.sched = [] → s.irqA = false → step s = consumerTurn s)

/-- A word placed for the next step is issued by it, at the state it was placed in (the model's choice of where a word
is placed, log entry 5). -/
def Obligations.PlacedWordIsIssuedNext : Prop :=
  ∀ (s : State) (nbits w : Nat), s.mayIssue = true →
    step (s.withFetchWord nbits w) = issue (tableWord nbits w) s ∧
    ∀ i, decodeTableWord nbits w = some i → step (s.withFetchWord nbits w) = exec i s

/-- 40_byte_queue.md R90: when an issue step is enabled, and its checks in their order. (What the model does with an issue
step that is not enabled is `DisabledAgentIsHeld`.) -/
def Obligations.IssueChecksInOrder : Prop :=
  ∀ (s : State) (w : Word),
    (s.mayIssue = true ↔ s.seq.op = .idle ∧ ¬(s.par.handlerPriority = true ∧ s.irqA = true)) ∧
    (s.mayIssue = true →
      (∀ why, decode w = .illegal why → issue w s = .next (raiseFault .illegal s)) ∧
      (∀ p baud, decode w = .instr (.cfg p baud) → issue w s = execCfg p baud s) ∧
      (∀ i, decode w = .instr i → (∀ p baud, i ≠ .cfg p baud) →
        ((s.port (match i with | .rdblk _ => .b | _ => .a)).cfgd = false →
          issue w s = .next (raiseFault .unconfigured s)) ∧
        ((s.port (match i with | .rdblk _ => .b | _ => .a)).cfgd = true → issue w s = exec i s)))

/-- The model's choice, log entry 12: the turn of an agent with no enabled step is a step that changes nothing but the
schedule, and `exec` of a command whose issue step is not enabled answers the state it was given. (00_scope.md section 5 says
that a held agent takes no step at all.) So for the handler without a request, for the consumer that is shut out, and for
every command that cannot be issued. -/
def Obligations.DisabledAgentIsHeld : Prop :=
  (∀ (tn : Turn) (s : State), tn.enabled s = false → takeTurn tn s = .next s ∧
    ∀ t, nextTurn s = tn → step s = .next t → t = { s with sched := s.sched.tail }) ∧
  (∀ s : State, Turn.enabled s .isr = false → isrA s = .next s) ∧
  (∀ s : State, s.shutOut = true → consumerTurn s = .next s) ∧
  (∀ (s : State) (i : Instr), s.mayIssue = false → exec i s = .next s)

/-! ### Configuration -/

/-- 43_configuration.md R135: `CFG p, baud`, its word, its checks in order, and everything it writes. -/
def Obligations.CfgFollowsItsRule : Prop :=
  (∀ p baud, decode (0x10000000#32 ||| ((portField p).setWidth 32 <<< 26) ||| baud.setWidth 32) = .instr (.cfg p baud)) ∧
  ∀ (s : State) (baud : Len), s.mayIssue = true →
    (s.portA.cfgd = true →
      exec (.cfg .a baud) s = .next { s with seq := { s.seq with op := .fault, code := .reconfig } }) ∧
    (s.portA.cfgd = false → Config.baudSupported baud = false →
      exec (.cfg .a baud) s = .next { s with seq := { s.seq with op := .fault, code := .badBaud } }) ∧
    (s.portA.cfgd = false → Config.baudSupported baud = true →
      exec (.cfg .a baud) s = .next
        { s with
          portA := { rdr := .unspec, rxne := false, cfgd := true, baud := baud }
          head := 0
          tail := 0
          count := 0
          rxneieA := true
          hregA := true }) ∧
    (s.portB.cfgd = true →
      exec (.cfg .b baud) s = .next { s with seq := { s.seq with op := .fault, code := .reconfig } }) ∧
    (s.portB.cfgd = false → Config.baudSupported baud = false →
      exec (.cfg .b baud) s = .next { s with seq := { s.seq with op := .fault, code := .badBaud } }) ∧
    (s.portB.cfgd = false → Config.baudSupported baud = true →
      exec (.cfg .b baud) s = .next { s with portB := { rdr := .unspec, rxne := false, cfgd := true, baud := baud } })

/-- 43_configuration.md section on `CFG`: the frame of a `CFG`, whatever its outcome. No byte of memory changes. -/
def Obligations.CfgFrame : Prop :=
  ∀ (s t : State) (p : Port) (baud : Len), exec (.cfg p baud) s = .next t →
    (∀ a, Mem.read t.store a = Mem.read s.store a) ∧ (∀ a, Mem.read t.buf a = Mem.read s.buf a) ∧
    t.resp = s.resp ∧ t.par = s.par ∧ t.program = s.program ∧ t.sched = s.sched ∧
    t.seq.ph = s.seq.ph ∧ t.seq.i = s.seq.i ∧ t.seq.n = s.seq.n ∧
    (t.seq = s.seq ∨ (t.seq.op = .fault ∧ (t.seq.code = .reconfig ∨ t.seq.code = .badBaud))) ∧
    (p = .a → t.portB = s.portB) ∧
    (p = .b → t.portA = s.portA ∧ t.head = s.head ∧ t.tail = s.tail ∧ t.count = s.count ∧ t.rxneieA = s.rxneieA ∧
      t.hregA = s.hregA)

/-- 43_configuration.md R139: a second `CFG` of a port is `F_RECONFIG`, in flight or not; the two ports are configured
independently and in either order. -/
def Obligations.ConfigurationRunsOnce : Prop :=
  (∀ (s : State) p baud, s.mayIssue = true → (s.port p).cfgd = true →
    exec (.cfg p baud) s = .next (raiseFault .reconfig s)) ∧
  (∀ (s : State) x y, s.mayIssue = true → s.portA.cfgd = false → s.portB.cfgd = false →
    Config.baudSupported x = true → Config.baudSupported y = true →
    ∃ ta tb t, exec (.cfg .a x) s = .next ta ∧ exec (.cfg .b y) s = .next tb ∧
      exec (.cfg .b y) ta = .next t ∧ exec (.cfg .a x) tb = .next t ∧
      ta.seq.op = .idle ∧ tb.seq.op = .idle ∧ t.seq.op = .idle ∧
      ta.portA.cfgd = true ∧ ta.portB.cfgd = false ∧ tb.portA.cfgd = false ∧ tb.portB.cfgd = true ∧
      t.portA.cfgd = true ∧ t.portB.cfgd = true)

/-- 43_configuration.md R140: an unsupported rate is `F_BADBAUD`; 0 is unsupported and 115200 is supported. -/
def Obligations.UnsupportedBaudFaults : Prop :=
  (∀ (s : State) p baud, s.mayIssue = true → (s.port p).cfgd = false → Config.baudSupported baud = false →
    exec (.cfg p baud) s = .next (raiseFault .badBaud s)) ∧
  Config.baudSupported 0#24 = false ∧ Config.baudSupported 115200#24 = true

/-- 43_configuration.md R138: what `CFG B` does not do, and that after it a byte on Port B loads `RDR[B]`, sets `RXNE[B]`,
and stays until an `RDBLK` reads it. -/
def Obligations.CfgBOnlyTurnsTheReceiverOn : Prop :=
  (∀ (s : State) baud, s.mayIssue = true → s.portB.cfgd = false → Config.baudSupported baud = true →
    ∃ t, exec (.cfg .b baud) s = .next t ∧ t.rxneie .b = false ∧ t.rxneie .a = s.rxneie .a ∧ t.hregA = s.hregA ∧
      t.portA = s.portA ∧ t.head = s.head ∧ t.tail = s.tail ∧ t.count = s.count ∧ t.irqA = s.irqA ∧
      ∀ b, wire .b b t = { t with portB := { t.portB with rdr := .byte b, rxne := true } }) ∧
  (∀ (s t : State) tn, s.portB.cfgd = true → takeTurn tn s = .next t → (∀ b, tn ≠ .wire .b b) →
    t.portB = s.portB ∨ (tn = .consumer ∧ s.seq.op = .blk))

/-! ### The queue -/

/-- 40_byte_queue.md R91: push on a full queue changes nothing; otherwise it stores the byte at `tail`, advances `tail`
modulo C and counts up; no other offset is written; on the abstract content it is append if there is room. -/
def Obligations.PushPrimitive : Prop :=
  ∀ (s : State) (b : Byte),
    (s.count = s.par.cap → pushByte b s = .next (false, s)) ∧
    (s.count ≠ s.par.cap → s.tail < s.par.cap →
      pushByte b s = .next (true,
        { s with
          store := Mem.write s.store s.tail b
          tail := (s.tail + 1) % s.par.cap
          count := s.count + 1 }) ∧
      Mem.read (Mem.write s.store s.tail b) s.tail = .byte b ∧
      ∀ a, pushSlot s ≠ some a → Mem.read (Mem.write s.store s.tail b) a = Mem.read s.store a) ∧
    (QueueInv s → ∃ r, pushByte b s = .next r ∧ contents r.2 = boundedPush s.par.cap (contents s) b ∧
      r.1 = decide ((contents s).length < s.par.cap))

/-- 40_byte_queue.md R92: pop of an empty queue changes nothing; otherwise it takes the byte at `head`, advances `head`
modulo C and counts down, leaving `store` alone; on the abstract content it removes the first byte. -/
def Obligations.PopPrimitive : Prop :=
  ∀ (s : State),
    (s.count = 0 → popByte s = .next (none, s)) ∧
    (∀ v, s.count ≠ 0 → s.head < s.par.cap → Mem.read s.store s.head = .byte v →
      popByte s = .next (some v, { s with head := (s.head + 1) % s.par.cap, count := s.count - 1 })) ∧
    (QueueInv s → ∃ r, popByte s = .next r ∧ contents r.2 = (contents s).tail ∧
      r.1.map Datum.byte = (contents s).head?)

/-- 40_byte_queue.md R93: `PUSH byte`, its word, its result, its flags and its fault. -/
def Obligations.PushCommand : Prop :=
  (∀ b : Byte, decode (0x20000000#32 ||| b.setWidth 32) = .instr (.push b)) ∧
  ∀ (s : State) (b : Byte), s.mayIssue = true →
    (s.portA.cfgd = false → exec (.push b) s = .next (raiseFault .unconfigured s)) ∧
    (s.portA.cfgd = true →
      (s.count = s.par.cap → exec (.push b) s = .next { s with resp := 0x00000000#32 }) ∧
      (s.count ≠ s.par.cap → s.tail < s.par.cap → ∃ t, exec (.push b) s = .next t ∧
        t = { s with
              store := Mem.write s.store s.tail b
              tail := (s.tail + 1) % s.par.cap
              count := s.count + 1
              resp := 0x80000000#32 } ∧
        t.empty = false ∧ (s.count + 1 = s.par.cap → t.full = true)))

/-- 40_byte_queue.md R94: `POP`, its word, its result, its flags and its fault; a popped zero byte and an empty queue leave
different responses. -/
def Obligations.PopCommand : Prop :=
  decode 0x30000000#32 = .instr .pop ∧
  (∀ (s : State), s.mayIssue = true →
    (s.portA.cfgd = false → exec .pop s = .next (raiseFault .unconfigured s)) ∧
    (s.portA.cfgd = true →
      (s.count = 0 → exec .pop s = .next { s with resp := 0x00000000#32 }) ∧
      (∀ v : Byte, s.count ≠ 0 → s.head < s.par.cap → Mem.read s.store s.head = .byte v → ∃ t, exec .pop s = .next t ∧
        t = { s with
              head := (s.head + 1) % s.par.cap
              count := s.count - 1
              resp := 0x80000000#32 ||| v.setWidth 32 } ∧
        (s.count ≤ s.par.cap → t.full = false) ∧ (s.count = 1 → t.empty = true)))) ∧
  ∀ v : Byte, (0x80000000#32 ||| v.setWidth 32) ≠ 0x00000000#32

/-- 40_byte_queue.md R95: `DEPTH` leaves the count in `RESP` and changes nothing else; a handler run right after it can
make the count larger, never smaller. -/
def Obligations.DepthCommand : Prop :=
  decode 0x60000000#32 = .instr .depth ∧
  (∀ (s : State), s.mayIssue = true →
    (s.portA.cfgd = false → exec .depth s = .next (raiseFault .unconfigured s)) ∧
    (s.portA.cfgd = true → s.count ≤ s.par.cap → s.par.wf →
      exec .depth s = .next { s with resp := 0x80000000#32 ||| BitVec.ofNat 32 s.count })) ∧
  ∀ s t, isrA s = .next t → s.count ≤ t.count

/-- 40_byte_queue.md R96: the issue step of `DRAIN n`. -/
def Obligations.DrainIssueStep : Prop :=
  (∀ n : Len, decode (0x40000000#32 ||| n.setWidth 32) = .instr (.drain n)) ∧
  ∀ (s : State) (n : Len), s.mayIssue = true →
    (s.portA.cfgd = false → exec (.drain n) s = .next (raiseFault .unconfigured s)) ∧
    (s.portA.cfgd = true →
      (n = 0#24 → exec (.drain n) s = .next s) ∧
      (n ≠ 0#24 →
        exec (.drain n) s = .next { s with seq := { s.seq with op := .drain, ph := .pop, i := 0#24, n := n } }))

/-- 42_receive_wait.md R125 and R130: the issue step of `RDBLK n`; with n = 0 it completes there, from every state, whatever
`RDR[B]` and `RXNE[B]` hold. -/
def Obligations.RdblkIssueStep : Prop :=
  (∀ n : Len, decode (0x54000000#32 ||| n.setWidth 32) = .instr (.rdblk n)) ∧
  ∀ (s : State) (n : Len), s.mayIssue = true →
    (s.portB.cfgd = false → exec (.rdblk n) s = .next (raiseFault .unconfigured s)) ∧
    (s.portB.cfgd = true →
      (n = 0#24 → exec (.rdblk n) s = .next s) ∧
      (n ≠ 0#24 → exec (.rdblk n) s = .next { s with seq := { s.seq with op := .blk, i := 0#24, n := n } }))

/-- 40_byte_queue.md section 3 (PUSH): the frame of a `PUSH`, whatever its outcome. The offset stored to is the one the
meaning computes. -/
def Obligations.PushFrame : Prop :=
  ∀ (s t : State) (b : Byte), exec (.push b) s = .next t →
    (∀ a, pushSlot s ≠ some a → Mem.read t.store a = Mem.read s.store a) ∧
    (s.mayIssue = false ∨ s.portA.cfgd = false → ∀ a, Mem.read t.store a = Mem.read s.store a) ∧
    (∀ a, Mem.read t.buf a = Mem.read s.buf a) ∧
    t.head = s.head ∧ t.portA = s.portA ∧ t.portB = s.portB ∧ t.rxneieA = s.rxneieA ∧ t.hregA = s.hregA ∧
    t.par = s.par ∧ t.program = s.program ∧ t.sched = s.sched ∧
    (t.seq = s.seq ∨ t.seq = { s.seq with op := .fault, code := .unconfigured })

/-- 40_byte_queue.md section 3 and 42_receive_wait.md (RDBLK issue): the frame of the commands that write registers only,
`POP`, `DEPTH`, `DRAIN` and `RDBLK`, whatever their outcome. No byte of memory changes. -/
def Obligations.RegisterCommandsFrame : Prop :=
  ∀ (s t : State) (i : Instr), (i = .pop ∨ i = .depth ∨ (∃ n, i = .drain n) ∨ (∃ n, i = .rdblk n)) →
    exec i s = .next t →
    (∀ a, Mem.read t.store a = Mem.read s.store a) ∧ (∀ a, Mem.read t.buf a = Mem.read s.buf a) ∧
    t.tail = s.tail ∧ t.portA = s.portA ∧ t.portB = s.portB ∧ t.rxneieA = s.rxneieA ∧ t.hregA = s.hregA ∧
    t.par = s.par ∧ t.program = s.program ∧ t.sched = s.sched ∧
    (i ≠ .pop → t.head = s.head ∧ t.count = s.count) ∧
    (i ≠ .pop → i ≠ .depth → t.resp = s.resp) ∧
    (i = .pop ∨ i = .depth → t.seq = s.seq ∨ t.seq = { s.seq with op := .fault, code := .unconfigured }) ∧
    (t.seq.code = s.seq.code ∨ t.seq.code = .unconfigured)

/-- 30_encoding.md R78: what each command that runs leaves in `RESP`, and that the handler never writes it. -/
def Obligations.ResponsesOfTheCommands : Prop :=
  (∀ s t : State, s.mayIssue = true → s.portA.cfgd = true →
    (∀ b, exec (.push b) s = .next t →
      t.resp = if s.count = s.par.cap then 0x00000000#32 else 0x80000000#32) ∧
    (exec .pop s = .next t →
      (s.count = 0 → t.resp = 0x00000000#32) ∧
      (∀ v, s.count ≠ 0 → Mem.read s.store s.head = .byte v → t.resp = 0x80000000#32 ||| (zext24 v).setWidth 32)) ∧
    (exec .depth s = .next t → t.resp = 0x80000000#32 ||| (BitVec.ofNat 24 s.count).setWidth 32)) ∧
  (∀ s t p baud, exec (.cfg p baud) s = .next t → t.resp = s.resp) ∧
  (∀ s t n, exec (.drain n) s = .next t → t.resp = s.resp) ∧
  (∀ s t n, exec (.rdblk n) s = .next t → t.resp = s.resp) ∧
  (∀ s t, isrA s = .next t → t.resp = s.resp)

/-- 40_byte_queue.md R97: the slot step of a drain in phase POP, when it is enabled and everything it does. -/
def Obligations.DrainPopSlotStep : Prop :=
  ∀ s : State, s.seq.op = .drain → s.seq.ph = .pop →
    (Turn.enabled s .consumer = true ↔ ¬(s.par.handlerPriority = true ∧ s.irqA = true)) ∧
    (Turn.enabled s .consumer = true →
      (s.count = 0 → consumerTurn s = .next
        { s with
          buf := Mem.write s.buf s.seq.i.toNat 0x00#8
          seq := if s.seq.i.toNat + 1 = s.seq.n.toNat then { s.seq with ph := .fill, op := .idle }
                 else { s.seq with ph := .fill, i := s.seq.i + 1#24 } }) ∧
      (∀ v, s.count ≠ 0 → s.head < s.par.cap → Mem.read s.store s.head = .byte v → consumerTurn s = .next
        { s with
          head := (s.head + 1) % s.par.cap
          count := s.count - 1
          buf := Mem.write s.buf s.seq.i.toNat v
          seq := if s.seq.i.toNat + 1 = s.seq.n.toNat then { s.seq with op := .idle }
                 else { s.seq with i := s.seq.i + 1#24 } }))

/-- 40_byte_queue.md R98: the slot step of a drain in phase FILL writes the zero byte and does not look at the queue; a
drain that has entered FILL stays in it until it ends, whoever moves, and takes no byte out of the queue. -/
def Obligations.DrainFillSlotStep : Prop :=
  (∀ s : State, s.seq.op = .drain → s.seq.ph = .fill →
    (Turn.enabled s .consumer = true ↔ ¬(s.par.handlerPriority = true ∧ s.irqA = true)) ∧
    (Turn.enabled s .consumer = true → consumerTurn s = .next
      { s with
        buf := Mem.write s.buf s.seq.i.toNat 0x00#8
        seq := if s.seq.i.toNat + 1 = s.seq.n.toNat then { s.seq with op := .idle }
               else { s.seq with i := s.seq.i + 1#24 } })) ∧
  (∀ s t : State, s.seq.op = .drain → s.seq.ph = .fill → step s = .next t →
    t.seq.ph = .fill ∧ t.head = s.head ∧ s.count ≤ t.count)

/-- 42_receive_wait.md R127: the slot step of `RDBLK`, when it is enabled and everything it does. -/
def Obligations.RdblkSlotStep : Prop :=
  ∀ s : State, s.seq.op = .blk →
    (Turn.enabled s .consumer = true ↔ s.portB.rxne = true ∧ ¬(s.par.handlerPriority = true ∧ s.irqA = true)) ∧
    (∀ v, Turn.enabled s .consumer = true → s.portB.rdr = .byte v → consumerTurn s = .next
      { s with
        portB := { s.portB with rxne := false }
        buf := Mem.write s.buf s.seq.i.toNat v
        seq := if s.seq.i.toNat + 1 = s.seq.n.toNat then { s.seq with op := .idle }
               else { s.seq with i := s.seq.i + 1#24 } })

/-- 42_receive_wait.md R126: `RDBLK` is held while `RXNE[B] = 0`; the poll changes nothing, and only a byte on Port B's
wire lifts the hold. -/
def Obligations.RdblkHeldUntilAByteArrives : Prop :=
  ∀ s : State, s.seq.op = .blk → s.portB.rxne = false →
    Turn.enabled s .consumer = false ∧ consumerTurn s = .next s ∧
    (∀ tn t, takeTurn tn s = .next t → (∀ b, tn ≠ .wire .b b) → t.seq = s.seq ∧ t.portB.rxne = false) ∧
    (s.portB.cfgd = true → s.shutOut = false → ∀ b, Turn.enabled (wire .b b s) .consumer = true)

/-- 40_byte_queue.md section 3 (what a completed drain has done; the spec's own inference from R96, R97, R98): with no step
of another agent in between, n slot steps complete `DRAIN n`; the result, which is all the run lets the application observe
(70_reset_and_hazards.md section 5), is the oldest min(n, count) bytes and then zero bytes; those bytes are gone from the queue,
no other slot is written, and no other field changes. -/
def Obligations.UninterruptedDrainDelivers : Prop :=
  ∀ (s : State) (rest : List Turn), MachineInv s → s.seq.op = .drain → s.seq.ph = .pop → s.seq.i = 0#24 → s.irqA = false →
    s.sched = List.replicate s.seq.n.toNat .consumer ++ rest →
    ∃ t, runFor s.seq.n.toNat s = .next t ∧
      result t s.seq.n.toNat =
        (contents s).take s.seq.n.toNat ++ List.replicate (s.seq.n.toNat - s.count) (.byte 0x00#8) ∧
      observations s.seq.n.toNat s = [.read (result t s.seq.n.toNat)] ∧
      contents t = (contents s).drop s.seq.n.toNat ∧
      (∀ a, s.seq.n.toNat ≤ a → Mem.read t.buf a = Mem.read s.buf a) ∧
      t = { s with
            head := (s.head + min s.seq.n.toNat s.count) % s.par.cap
            count := s.count - s.seq.n.toNat
            seq := { s.seq with
                     op := .idle
                     ph := if s.seq.n.toNat ≤ s.count then .pop else .fill
                     i := s.seq.n - 1#24 }
            buf := t.buf
            sched := rest }

/-- 42_receive_wait.md (what a completed `RDBLK n` has done; the spec's own inference from R125, R127): when n bytes arrive
on Port B, each taken before the next, `RDBLK n` completes and the result, which is all the run lets the application observe
(70_reset_and_hazards.md section 5), is those bytes in wire order; `RXNE[B] = 0` after the last slot step, `RDR[B]` keeps the last byte,
and the queue, Port A and every other field are as they were. -/
def Obligations.RdblkDeliversTheArrivingBytes : Prop :=
  ∀ (s : State) (bytes : List Byte) (rest : List Turn), MachineInv s → s.seq.op = .blk → s.seq.i = 0#24 →
    s.seq.n.toNat = bytes.length → s.portB.rxne = false → s.irqA = false →
    s.sched = (bytes.flatMap fun b => [.wire .b b, .consumer]) ++ rest →
    ∃ t, runFor (2 * bytes.length) s = .next t ∧
      result t bytes.length = bytes.map .byte ∧
      observations (2 * bytes.length) s = [.read (bytes.map .byte)] ∧
      (∀ a, bytes.length ≤ a → Mem.read t.buf a = Mem.read s.buf a) ∧
      some t.portB.rdr = bytes.getLast?.map .byte ∧
      t = { s with
            portB := { s.portB with rdr := t.portB.rdr }
            seq := { s.seq with op := .idle, i := s.seq.n - 1#24 }
            buf := t.buf
            sched := rest }

/-- 42_receive_wait.md (indefinite block): if no byte is ever scheduled on Port B's wire, a held `RDBLK` never returns: after
any number of steps the machine still runs, the operation is at the same slot, no slot has been written, no word issued,
and the run has not terminated. -/
def Obligations.RdblkBlocksForEver : Prop :=
  ∀ s : State, MachineInv s → s.seq.op = .blk → s.portB.rxne = false → (∀ b, Turn.wire .b b ∉ s.sched) →
    ∀ k, ∃ t, runFor k s = .next t ∧ t.seq = s.seq ∧ t.buf = s.buf ∧ t.program = s.program ∧ t.resp = s.resp ∧
      t.portB.rxne = false ∧ terminated t = false

/-- 40_byte_queue.md section 5 (laws of the queue, with the correction of 90_conflicts.md C1; the spec's own inference from
R91): pushing N bytes into an empty queue keeps the first C of them in order, the first C pushes succeed and the later ones
fail. -/
def Obligations.OverflowKeepsTheFirstBytes : Prop :=
  ∀ (bytes : List Byte) (s : State), QueueInv s → s.count = 0 →
    ∃ oks t, pushAll bytes s = .next (oks, t) ∧ contents t = (bytes.take s.par.cap).map .byte ∧
      oks = (List.range bytes.length).map fun k => decide (k < s.par.cap)

/-! ### The interrupt and the wires -/

/-- 60_exceptions.md R154: the request is the level `CFGD[A] and RXNEIE[A] and HREG_A and RXNE[A]`, which in every state
that meets the invariant equals `CFGD[A] and RXNE[A]`, and the handler's step is enabled exactly when it is true. -/
def Obligations.InterruptRequest : Prop :=
  ∀ s : State,
    (s.irqA = true ↔ s.portA.cfgd = true ∧ s.rxneie .a = true ∧ s.hregA = true ∧ s.portA.rxne = true) ∧
    (MachineInv s → s.irqA = (s.portA.cfgd && s.portA.rxne)) ∧
    Turn.enabled s .isr = s.irqA

/-- 41_receive_pipeline.md R112 and R113: the handler's run reads `RDR[A]`, clears `RXNE[A]` and pushes; on a full queue the
byte is gone and nothing else changes. -/
def Obligations.HandlerRun : Prop :=
  ∀ s : State,
    (Turn.enabled s .isr = true ↔
      s.portA.cfgd = true ∧ s.rxneieA = true ∧ s.hregA = true ∧ s.portA.rxne = true) ∧
    (∀ v, Turn.enabled s .isr = true → s.portA.rdr = .byte v →
      (s.count = s.par.cap → isrA s = .next { s with portA := { s.portA with rxne := false } }) ∧
      (s.count ≠ s.par.cap → s.tail < s.par.cap → isrA s = .next
        { s with
          portA := { s.portA with rxne := false }
          store := Mem.write s.store s.tail v
          tail := (s.tail + 1) % s.par.cap
          count := s.count + 1 }))

/-- 60_exceptions.md R163: after the handler's run the request is gone, nothing was disabled or re-enabled, and the handler
is not enabled again until the next `WIRE(A, b)`. -/
def Obligations.HandlerReturn : Prop :=
  (∀ s t : State, s.irqA = true → isrA s = .next t →
    t.portA.rxne = false ∧ t.irqA = false ∧ t.rxneieA = s.rxneieA ∧ t.hregA = s.hregA ∧ t.portA.cfgd = s.portA.cfgd) ∧
  (∀ s t tn, s.irqA = false → takeTurn tn s = .next t → (∀ b, tn ≠ .wire .a b) → t.irqA = false)

/-- 60_exceptions.md section 5 (handler entry) and 10_state.md section 6 (ownership): a turn of the handler or of a wire
leaves everything of the consumer and of the configuration as it was. -/
def Obligations.OtherAgentsLeaveTheConsumerAlone : Prop :=
  ∀ s t tn, takeTurn tn s = .next t → tn ≠ .consumer →
    t.seq = s.seq ∧ t.resp = s.resp ∧ t.buf = s.buf ∧ t.head = s.head ∧ t.program = s.program ∧ t.sched = s.sched ∧
    t.par = s.par ∧ t.rxneieA = s.rxneieA ∧ t.hregA = s.hregA ∧
    t.portA.cfgd = s.portA.cfgd ∧ t.portB.cfgd = s.portB.cfgd ∧ t.portA.baud = s.portA.baud ∧
    t.portB.baud = s.portB.baud ∧
    (tn = .isr → t.portB = s.portB) ∧
    (∀ b, tn = .wire .a b → t = { s with portA := t.portA }) ∧ (∀ b, tn = .wire .b b → t = { s with portB := t.portB })

/-- 60_exceptions.md R158: with `HANDLER_PRIORITY` true no consumer step is enabled while `IRQ_A` is true, wire steps are never
shut out; with it false the request shuts out nothing. -/
def Obligations.HandlerPriority : Prop :=
  ∀ s : State,
    (s.par.handlerPriority = true → s.irqA = true →
      Turn.enabled s .consumer = false ∧ s.mayIssue = false) ∧
    (∀ p b, Turn.enabled s (.wire p b) = true) ∧
    (s.par.handlerPriority = false →
      consumerTurn s = consumerAct s ∧ (s.mayIssue = true ↔ s.seq.op = .idle))

/-- 41_receive_pipeline.md R111: a byte arriving on a port: ignored before configuration, loaded when the register is free,
and at an overrun the policy says which byte is kept. -/
def Obligations.ByteArrives : Prop :=
  ∀ (s : State) (p : Port) (b : Byte),
    Turn.enabled s (.wire p b) = true ∧ takeTurn (.wire p b) s = .next (wire p b s) ∧
    ((s.port p).cfgd = false → wire p b s = s) ∧
    ((s.port p).cfgd = true → (s.port p).rxne = false →
      wire p b s = s.setPort p { s.port p with rdr := .byte b, rxne := true }) ∧
    ((s.port p).cfgd = true → (s.port p).rxne = true →
      (s.par.overrun = .keepOld → wire p b s = s) ∧
      (s.par.overrun = .takeNew → wire p b s = s.setPort p { s.port p with rdr := .byte b }))

/-- 60_exceptions.md R157: Port B raises no interrupt; `RXNE[B]` enables no handler, only the slot step of an `RDBLK` in
progress. -/
def Obligations.PortBRaisesNoInterrupt : Prop :=
  ∀ (s : State) (r : Datum) (f : Bool),
    s.rxneie .b = false ∧
    Turn.enabled { s with portB := { s.portB with rdr := r, rxne := f } } .isr = Turn.enabled s .isr ∧
    (s.seq.op ≠ .blk →
      Turn.enabled { s with portB := { s.portB with rdr := r, rxne := f } } .consumer = Turn.enabled s .consumer) ∧
    (s.seq.op = .blk →
      Turn.enabled { s with portB := { s.portB with rdr := r, rxne := f } } .consumer = (f && !s.shutOut))

/-! ### Faults -/

/-- 60_exceptions.md R160: raising a fault writes `SEQ.op` and `SEQ.code` only; from then on the consumer has no enabled step,
the fault is never cleared and the run never terminates, while the wires and the handler keep their steps. -/
def Obligations.FaultIsRecordedAndSticky : Prop :=
  (∀ s code, raiseFault code s = { s with seq := { s.seq with op := .fault, code := code } }) ∧
  (∀ s code p b, wire p b (raiseFault code s) = raiseFault code (wire p b s)) ∧
  (∀ s code t, isrA s = .next t → isrA (raiseFault code s) = .next (raiseFault code t)) ∧
  (∀ s : State, s.seq.op = .fault → Turn.enabled s .consumer = false ∧
    ∀ k t, runFor k s = .next t → t.seq = s.seq ∧ t.program = s.program ∧ t.resp = s.resp ∧ t.buf = s.buf ∧
      t.head = s.head ∧ terminated t = false)

/-- 60_exceptions.md section 4 (fault codes): a step from a state with no fault records one only by issuing a word, and the
code says why. -/
def Obligations.FaultsComeFromTheirCauses : Prop :=
  ∀ s t : State, step s = .next t → s.seq.op ≠ .fault → t.seq.op = .fault →
    nextTurn s = .consumer ∧ s.mayIssue = true ∧ ∃ w ws, s.program = w :: ws ∧
      ((t.seq.code = .illegal ∧ ∃ why, decode w = .illegal why) ∨
       (t.seq.code = .unconfigured ∧ ∃ i, decode w = .instr i ∧ (∀ p baud, i ≠ .cfg p baud) ∧
         (s.port (match i with | .rdblk _ => .b | _ => .a)).cfgd = false) ∨
       (t.seq.code = .reconfig ∧ ∃ p baud, decode w = .instr (.cfg p baud) ∧ (s.port p).cfgd = true) ∨
       (t.seq.code = .badBaud ∧ ∃ p baud, decode w = .instr (.cfg p baud) ∧ (s.port p).cfgd = false ∧
         Config.baudSupported baud = false))

/-- 43_configuration.md R142: any command but `CFG` for an unconfigured port is `F_UNCONFIGURED`, and bytes that arrive on an
unconfigured port are ignored. -/
def Obligations.UnconfiguredPortFaultsAndIgnoresBytes : Prop :=
  (∀ s : State, s.mayIssue = true → s.portA.cfgd = false →
    (∀ b, exec (.push b) s = .next (raiseFault .unconfigured s)) ∧ exec .pop s = .next (raiseFault .unconfigured s) ∧
    (∀ n, exec (.drain n) s = .next (raiseFault .unconfigured s)) ∧ exec .depth s = .next (raiseFault .unconfigured s)) ∧
  (∀ s : State, s.mayIssue = true → s.portB.cfgd = false →
    ∀ n, exec (.rdblk n) s = .next (raiseFault .unconfigured s)) ∧
  (∀ (s : State) p b, (s.port p).cfgd = false → wire p b s = s)

/-! ### Reset -/

/-- 10_state.md R44: the values after reset. `BUF` is the caller's and is not reset by the block: that it lists nothing is
the model's choice (log entry 6) and is not claimed here. -/
def Obligations.ResetValues : Prop :=
  (∀ k, Mem.read State.reset.store k = .unspec) ∧
  State.reset.head = 0 ∧ State.reset.tail = 0 ∧ State.reset.count = 0 ∧
  State.reset.portA.rdr = .unspec ∧ State.reset.portB.rdr = .unspec ∧
  State.reset.portA.rxne = false ∧ State.reset.portB.rxne = false ∧
  State.reset.portA.cfgd = false ∧ State.reset.portB.cfgd = false ∧
  State.reset.portA.baud = 0#24 ∧ State.reset.portB.baud = 0#24 ∧
  State.reset.rxneie .a = false ∧ State.reset.rxneie .b = false ∧ State.reset.hregA = false ∧
  State.reset.resp = 0x00000000#32 ∧
  State.reset.seq.op = .idle ∧ State.reset.seq.ph.bits = 0#1 ∧ State.reset.seq.i = 0#24 ∧ State.reset.seq.n = 0#24 ∧
  State.reset.seq.code.bits = 0#3 ∧
  State.reset.irqA = false

/-- 70_reset_and_hazards.md section 1 (after reset; the spec's own inference from R44 and R90): the only words that do not
fault are `CFG` of either port with a supported rate, a byte that arrives is ignored and the handler cannot run. -/
def Obligations.AfterResetOnlyCfgRuns : Prop :=
  (∀ w, ∃ t, issue w State.reset = .next t ∧
    (t.seq.op ≠ .fault ↔ ∃ p baud, decode w = .instr (.cfg p baud) ∧ Config.baudSupported baud = true)) ∧
  (∀ p b, wire p b State.reset = State.reset) ∧ State.reset.irqA = false ∧ Turn.enabled State.reset .isr = false

/-! ### The whole machine -/

/-- The invariant holds at reset (10_state.md sections 2, 4, 5 and 7). -/
def Obligations.ResetMeetsTheInvariant : Prop := MachineInv State.reset

/-- Every step keeps the invariant, from every state that meets it: the queue's bounds and its index relation, the held
bytes written, the canonical form of both memories, `HREG_A = RXNEIE[A] = CFGD[A]`, a ready byte only on a configured port,
the slot index below the requested count, the fault code. (10_state.md sections 2 to 5; the parts R25, R27, R33 are the spec's
own inferences; the canonical form is the model's, log entry 7.) -/
def Obligations.StepKeepsTheInvariant : Prop := ∀ s t, MachineInv s → step s = .next t → MachineInv t

/-- 10_state.md R24: every step keeps `0 <= count <= C`, `0 <= head < C`, `0 <= tail < C`, and `count == 0` means empty,
`count == C` means full. -/
def Obligations.StepKeepsTheQueueBounds : Prop :=
  (∀ s t : State, QueueBounds s → step s = .next t → QueueBounds t) ∧ QueueBounds State.reset ∧
  (∀ s : State, (s.empty = true ↔ s.count = 0) ∧ (s.full = true ↔ s.count = s.par.cap))

/-- No run from a state that meets the invariant stops: no access is out of range and no rule reads a location while it is
`UNSPEC` (00_scope.md section 5; 10_state.md section 2, the spec's own inference R27). -/
def Obligations.RunsNeverStop : Prop := ∀ s, MachineInv s → SafeRun s

/-- 20_memory.md section 3 (the guarantee of the atomic steps; the spec's own inference R65): along every interleaving, from
every state that meets the invariant with Port A configured, the bytes popped and the bytes still held are the bytes that
were held and the bytes pushed since, in that order: none lost, none twice, none made up. -/
def Obligations.QueueIsFirstInFirstOut : Prop :=
  ∀ k s t, MachineInv s → s.portA.cfgd = true → runFor k s = .next t →
    contents s ++ history pushedBy k s = history poppedBy k s ++ contents t

/-- 41_receive_pipeline.md (ordering guarantee; the spec's own inference R117): with no `PUSH` in the program the bytes taken
out of the queue, then those still in it and in the receive register, are a subsequence in the same order of what was there
and what arrived on Port A's wire. In the sanctioned use, H-SPSC (70_reset_and_hazards.md section 3), every byte pushed is
pushed by the handler and every byte taken out is taken out by a drain. -/
def Obligations.BytesKeepTheirWireOrder : Prop :=
  (∀ k s t, MachineInv s → s.portA.cfgd = true → NoPush s → runFor k s = .next t →
    (history poppedBy k s ++ contents t ++ pendingByte t).Sublist
      (contents s ++ pendingByte s ++ history arrivedBy k s)) ∧
  (∀ k s, SingleProducerSingleConsumer s →
    history pushedBy k s = history handedBy k s ∧ history poppedBy k s = history drainedBy k s)

/-- 41_receive_pipeline.md (ordering guarantee; the spec's own inference R117): "the whole sequence, nothing missing, when no
byte is lost at the receive register and none at the queue". And 70_reset_and_hazards.md section 3 (hazards): with no byte
unread at the start, under the premises `P_RATE_A` and H-DEPTH no byte is lost; `P_RATE_A` alone rules out the overrun. -/
def Obligations.NothingIsMissingWithoutALoss : Prop :=
  (∀ k s t, MachineInv s → s.portA.cfgd = true → NoPush s → runFor k s = .next t → lossless k s = true →
    history poppedBy k s ++ contents t ++ pendingByte t = contents s ++ pendingByte s ++ history arrivedBy k s) ∧
  (∀ k s, s.portA.rxne = false → RateA (stepsTaken k s) →
    never overrunsA k s = true ∧ (depthKept k s = true → lossless k s = true))

/-- 20_memory.md section 3 (independence of the ports; the spec's own inference R68): steps of different ports commute. -/
def Obligations.StepsOfTheTwoPortsCommute : Prop :=
  (∀ s b c, wire .a b (wire .b c s) = wire .b c (wire .a b s)) ∧
  (∀ s t c, isrA s = .next t → isrA (wire .b c s) = .next (wire .b c t)) ∧
  (∀ s t b, s.seq.op = .blk → blkSlot s = .next t → blkSlot (wire .a b s) = .next (wire .a b t)) ∧
  (∀ s t u, s.seq.op = .blk → isrA s = .next t → blkSlot s = .next u →
    ∃ v, blkSlot t = .next v ∧ isrA u = .next v)

/-- 10_state.md section 5 (RESP): a step changes `RESP` only by issuing `PUSH`, `POP` or `DEPTH`. And 70_reset_and_hazards.md
section 5 (the end of a run): a terminated run that began with no operation in progress has issued its whole program and
observed, in program order, one thing for each command but `CFG`: the list of a read, the response of the three others. -/
def Obligations.OnlyThreeCommandsWriteResp : Prop :=
  (∀ s t : State, step s = .next t → t.resp ≠ s.resp →
    (∃ b, issued s = some (.push b)) ∨ issued s = some .pop ∨ issued s = some .depth) ∧
  (∀ k s r, s.seq.op = .idle → observable k s = some r →
    r.observed.map Observation.isRead = s.program.filterMap leavesRead ∧
    runFor k s = .next r.final ∧ r.final.program = [] ∧ r.final.seq.op = .idle ∧ r.final.irqA = false)

/-- 20_memory.md section 1 (spaces Q and BUF): a step writes `store` at `tail` only, and only when it pushes a byte; it writes
`BUF` at `SEQ.i` only, and only in a slot step. -/
def Obligations.MemoryIsWrittenOnlyInPlace : Prop :=
  ∀ s t : State, step s = .next t →
    (∀ a, a ≠ s.tail → Mem.read t.store a = Mem.read s.store a) ∧
    (pushedBy s = [] → ∀ a, Mem.read t.store a = Mem.read s.store a) ∧
    (∀ a, a ≠ s.seq.i.toNat → Mem.read t.buf a = Mem.read s.buf a) ∧
    ((nextTurn s ≠ .consumer ∨ s.seq.op = .idle ∨ s.seq.op = .fault) → ∀ a, Mem.read t.buf a = Mem.read s.buf a)

/-- 10_state.md section 6 (ownership): `head` changes only by a pop and `tail` only by a push, but for the `CFG A` that creates
the queue. -/
def Obligations.EachSideWritesItsOwnIndex : Prop :=
  ∀ s t : State, step s = .next t →
    (t.head ≠ s.head → popsQueue s = true ∨ ∃ baud, issued s = some (.cfg .a baud)) ∧
    (t.tail ≠ s.tail → pushedBy s ≠ [] ∨ ∃ baud, issued s = some (.cfg .a baud))

/-- 10_state.md section 4 (control state): nothing but reset clears `CFGD[p]`, `RXNEIE[A]` or `HREG_A` or changes the rate of a
configured port; no step changes a parameter. -/
def Obligations.ConfigurationIsNeverUndone : Prop :=
  ∀ s t : State, step s = .next t →
    (∀ p, (s.port p).cfgd = true → (t.port p).cfgd = true ∧ (t.port p).baud = (s.port p).baud) ∧
    (s.rxneieA = true → t.rxneieA = true) ∧ (s.hregA = true → t.hregA = true) ∧ t.par = s.par ∧ t.rxneie .b = false

/-- 10_state.md section 2 and 00_scope.md section 4: the indices fit in IDXW bits and the count in CNTW bits, and the count
in the VAL field of a response. -/
def Obligations.IndicesFitTheirWidths : Prop :=
  ∀ s : State, QueueBounds s →
    s.head < 2 ^ Config.idxWidth s.par.cap ∧ s.tail < 2 ^ Config.idxWidth s.par.cap ∧
    s.count < 2 ^ Config.cntWidth s.par.cap ∧ (countVal s.count).toNat = s.count

/-- 20_memory.md section 3 and 10_state.md section 6 ("no cross-port sharing"): two states that differ only in the byte waiting
in `RDR[B]` step to states that differ only in that byte and, if an `RDBLK` is in progress, in the caller's buffer. -/
def Obligations.PortBByteStaysOutOfPortA : Prop :=
  ∀ (s t u : State) (x y : Byte),
    step { s with portB := { s.portB with rdr := .byte x } } = .next t →
    step { s with portB := { s.portB with rdr := .byte y } } = .next u →
    { t with portB := { t.portB with rdr := .unspec }, buf := [] } =
      { u with portB := { u.portB with rdr := .unspec }, buf := [] } ∧
    (s.seq.op ≠ .blk → t.buf = u.buf)
end

