-- ==== Sys2Proof/Laws/Decode.lean ====
section
/-! SUPPORT. The fields of a packed command word, one lemma per field. -/

namespace Sys2Proof

@[simp] theorem opOf_packCmd (op : BitVec 4) (p : Port) (arg : Len) : opOf (packCmd op p arg) = op := by
  unfold opOf packCmd
  ext i hi
  simp only [BitVec.getElem_extractLsb', BitVec.getLsbD_append]
  have h1 : ¬ (28 + i < 24) := by omega
  have h2 : ¬ (28 + i - 24 < 2) := by omega
  have h3 : ¬ (28 + i - 24 - 2 < 2) := by omega
  have h4 : 28 + i - 24 - 2 - 2 = i := by omega
  simp [h1, h2, h3, h4, BitVec.getLsbD_eq_getElem, hi]

@[simp] theorem portOf_packCmd (op : BitVec 4) (p : Port) (arg : Len) : portOf (packCmd op p arg) = portField p := by
  unfold portOf packCmd
  ext i hi
  simp only [BitVec.getElem_extractLsb', BitVec.getLsbD_append]
  have h1 : ¬ (26 + i < 24) := by omega
  have h2 : ¬ (26 + i - 24 < 2) := by omega
  have h4 : 26 + i - 24 - 2 = i := by omega
  simp [h1, h2, h4, BitVec.getLsbD_eq_getElem, hi]

@[simp] theorem rsvOf_packCmd (op : BitVec 4) (p : Port) (arg : Len) : rsvOf (packCmd op p arg) = 0b00#2 := by
  unfold rsvOf packCmd
  ext i hi
  simp only [BitVec.getElem_extractLsb', BitVec.getLsbD_append]
  simp
  omega

@[simp] theorem argOf_packCmd (op : BitVec 4) (p : Port) (arg : Len) : argOf (packCmd op p arg) = arg := by
  unfold argOf packCmd
  ext i hi
  simp only [BitVec.getElem_extractLsb', BitVec.getLsbD_append]
  simp [BitVec.getLsbD_eq_getElem, hi]

@[simp] theorem portOfField_portField (p : Port) : portOfField (portField p) = some p := by cases p <;> decide

/-- A field names a port exactly when it is that port's field. -/
theorem portOfField_eq_some {f : BitVec 2} {p : Port} : portOfField f = some p ↔ f = portField p := by
  revert f; cases p <;> decide

/-- A word is the packing of its four fields when RSV is 0. -/
theorem packCmd_fields {w : Word} {p : Port} (hr : rsvOf w = 0b00#2) (hp : portOf w = portField p) :
    packCmd (opOf w) p (argOf w) = w := by
  unfold packCmd
  rw [← hp, ← hr]
  unfold opOf portOf rsvOf argOf
  ext i hi
  simp only [BitVec.getElem_append, BitVec.getElem_extractLsb']
  split
  · simp [BitVec.getLsbD_eq_getElem, hi]
  · split
    · rw [show 24 + (i - 24) = i by omega, BitVec.getLsbD_eq_getElem hi]
    · split
      · rw [show 26 + (i - 24 - 2) = i by omega, BitVec.getLsbD_eq_getElem hi]
      · rw [show 28 + (i - 24 - 2 - 2) = i by omega, BitVec.getLsbD_eq_getElem hi]

/-- Decoding a packed word looks at its operation, its port and its argument. -/
@[simp] theorem decode_packCmd (op : BitVec 4) (p : Port) (arg : Len) : decode (packCmd op p arg) = decodeOp op p arg := by
  simp [decode]

end Sys2Proof
end

