-- ==== Sys2Proof/Laws/State.lean ====
section
/-! SUPPORT. Beside State: one lemma per field per update, true by unfolding, for the simplifier. -/

namespace Sys2Proof.Machine


/-! ### setResp -/

@[simp] theorem State.setResp_par (s : State) (w : Word) : (s.setResp w).par = s.par := rfl
@[simp] theorem State.setResp_store (s : State) (w : Word) : (s.setResp w).store = s.store := rfl
@[simp] theorem State.setResp_head (s : State) (w : Word) : (s.setResp w).head = s.head := rfl
@[simp] theorem State.setResp_tail (s : State) (w : Word) : (s.setResp w).tail = s.tail := rfl
@[simp] theorem State.setResp_count (s : State) (w : Word) : (s.setResp w).count = s.count := rfl
@[simp] theorem State.setResp_portA (s : State) (w : Word) : (s.setResp w).portA = s.portA := rfl
@[simp] theorem State.setResp_portB (s : State) (w : Word) : (s.setResp w).portB = s.portB := rfl
@[simp] theorem State.setResp_rxneieA (s : State) (w : Word) : (s.setResp w).rxneieA = s.rxneieA := rfl
@[simp] theorem State.setResp_hregA (s : State) (w : Word) : (s.setResp w).hregA = s.hregA := rfl
@[simp] theorem State.setResp_resp (s : State) (w : Word) : (s.setResp w).resp = w := rfl
@[simp] theorem State.setResp_seq (s : State) (w : Word) : (s.setResp w).seq = s.seq := rfl
@[simp] theorem State.setResp_buf (s : State) (w : Word) : (s.setResp w).buf = s.buf := rfl
@[simp] theorem State.setResp_program (s : State) (w : Word) : (s.setResp w).program = s.program := rfl
@[simp] theorem State.setResp_sched (s : State) (w : Word) : (s.setResp w).sched = s.sched := rfl

/-! ### setSeq -/

@[simp] theorem State.setSeq_par (s : State) (q : Seq) : (s.setSeq q).par = s.par := rfl
@[simp] theorem State.setSeq_store (s : State) (q : Seq) : (s.setSeq q).store = s.store := rfl
@[simp] theorem State.setSeq_head (s : State) (q : Seq) : (s.setSeq q).head = s.head := rfl
@[simp] theorem State.setSeq_tail (s : State) (q : Seq) : (s.setSeq q).tail = s.tail := rfl
@[simp] theorem State.setSeq_count (s : State) (q : Seq) : (s.setSeq q).count = s.count := rfl
@[simp] theorem State.setSeq_portA (s : State) (q : Seq) : (s.setSeq q).portA = s.portA := rfl
@[simp] theorem State.setSeq_portB (s : State) (q : Seq) : (s.setSeq q).portB = s.portB := rfl
@[simp] theorem State.setSeq_rxneieA (s : State) (q : Seq) : (s.setSeq q).rxneieA = s.rxneieA := rfl
@[simp] theorem State.setSeq_hregA (s : State) (q : Seq) : (s.setSeq q).hregA = s.hregA := rfl
@[simp] theorem State.setSeq_resp (s : State) (q : Seq) : (s.setSeq q).resp = s.resp := rfl
@[simp] theorem State.setSeq_seq (s : State) (q : Seq) : (s.setSeq q).seq = q := rfl
@[simp] theorem State.setSeq_buf (s : State) (q : Seq) : (s.setSeq q).buf = s.buf := rfl
@[simp] theorem State.setSeq_program (s : State) (q : Seq) : (s.setSeq q).program = s.program := rfl
@[simp] theorem State.setSeq_sched (s : State) (q : Seq) : (s.setSeq q).sched = s.sched := rfl

/-! ### setPort: the fields that are no port's, then the two ports -/

@[simp] theorem State.setPort_par (s : State) (p : Port) (r : PortRegs) : (s.setPort p r).par = s.par := by cases p <;> rfl
@[simp] theorem State.setPort_store (s : State) (p : Port) (r : PortRegs) : (s.setPort p r).store = s.store := by cases p <;> rfl
@[simp] theorem State.setPort_head (s : State) (p : Port) (r : PortRegs) : (s.setPort p r).head = s.head := by cases p <;> rfl
@[simp] theorem State.setPort_tail (s : State) (p : Port) (r : PortRegs) : (s.setPort p r).tail = s.tail := by cases p <;> rfl
@[simp] theorem State.setPort_count (s : State) (p : Port) (r : PortRegs) : (s.setPort p r).count = s.count := by cases p <;> rfl
@[simp] theorem State.setPort_rxneieA (s : State) (p : Port) (r : PortRegs) : (s.setPort p r).rxneieA = s.rxneieA := by cases p <;> rfl
@[simp] theorem State.setPort_hregA (s : State) (p : Port) (r : PortRegs) : (s.setPort p r).hregA = s.hregA := by cases p <;> rfl
@[simp] theorem State.setPort_resp (s : State) (p : Port) (r : PortRegs) : (s.setPort p r).resp = s.resp := by cases p <;> rfl
@[simp] theorem State.setPort_seq (s : State) (p : Port) (r : PortRegs) : (s.setPort p r).seq = s.seq := by cases p <;> rfl
@[simp] theorem State.setPort_buf (s : State) (p : Port) (r : PortRegs) : (s.setPort p r).buf = s.buf := by cases p <;> rfl
@[simp] theorem State.setPort_program (s : State) (p : Port) (r : PortRegs) : (s.setPort p r).program = s.program := by cases p <;> rfl
@[simp] theorem State.setPort_sched (s : State) (p : Port) (r : PortRegs) : (s.setPort p r).sched = s.sched := by cases p <;> rfl
@[simp] theorem State.setPort_a_portA (s : State) (r : PortRegs) : (s.setPort .a r).portA = r := rfl
@[simp] theorem State.setPort_a_portB (s : State) (r : PortRegs) : (s.setPort .a r).portB = s.portB := rfl
@[simp] theorem State.setPort_b_portA (s : State) (r : PortRegs) : (s.setPort .b r).portA = s.portA := rfl
@[simp] theorem State.setPort_b_portB (s : State) (r : PortRegs) : (s.setPort .b r).portB = r := rfl
@[simp] theorem State.port_a (s : State) : s.port .a = s.portA := rfl
@[simp] theorem State.port_b (s : State) : s.port .b = s.portB := rfl
@[simp] theorem State.port_setPort (s : State) (p : Port) (r : PortRegs) : (s.setPort p r).port p = r := by cases p <;> rfl
@[simp] theorem State.rxneie_a (s : State) : s.rxneie .a = s.rxneieA := rfl
@[simp] theorem State.rxneie_b (s : State) : s.rxneie .b = false := rfl

/-! ### raiseFault -/

@[simp] theorem raiseFault_par (c : FaultCode) (s : State) : (raiseFault c s).par = s.par := rfl
@[simp] theorem raiseFault_store (c : FaultCode) (s : State) : (raiseFault c s).store = s.store := rfl
@[simp] theorem raiseFault_head (c : FaultCode) (s : State) : (raiseFault c s).head = s.head := rfl
@[simp] theorem raiseFault_tail (c : FaultCode) (s : State) : (raiseFault c s).tail = s.tail := rfl
@[simp] theorem raiseFault_count (c : FaultCode) (s : State) : (raiseFault c s).count = s.count := rfl
@[simp] theorem raiseFault_portA (c : FaultCode) (s : State) : (raiseFault c s).portA = s.portA := rfl
@[simp] theorem raiseFault_portB (c : FaultCode) (s : State) : (raiseFault c s).portB = s.portB := rfl
@[simp] theorem raiseFault_rxneieA (c : FaultCode) (s : State) : (raiseFault c s).rxneieA = s.rxneieA := rfl
@[simp] theorem raiseFault_hregA (c : FaultCode) (s : State) : (raiseFault c s).hregA = s.hregA := rfl
@[simp] theorem raiseFault_resp (c : FaultCode) (s : State) : (raiseFault c s).resp = s.resp := rfl
@[simp] theorem raiseFault_seq (c : FaultCode) (s : State) : (raiseFault c s).seq = { s.seq with op := .fault, code := c } := rfl
@[simp] theorem raiseFault_buf (c : FaultCode) (s : State) : (raiseFault c s).buf = s.buf := rfl
@[simp] theorem raiseFault_program (c : FaultCode) (s : State) : (raiseFault c s).program = s.program := rfl
@[simp] theorem raiseFault_sched (c : FaultCode) (s : State) : (raiseFault c s).sched = s.sched := rfl

/-! ### bufWrite, advanceSlot, fillSlot -/

@[simp] theorem bufWrite_par (v : Byte) (s : State) : (bufWrite v s).par = s.par := rfl
@[simp] theorem bufWrite_store (v : Byte) (s : State) : (bufWrite v s).store = s.store := rfl
@[simp] theorem bufWrite_head (v : Byte) (s : State) : (bufWrite v s).head = s.head := rfl
@[simp] theorem bufWrite_tail (v : Byte) (s : State) : (bufWrite v s).tail = s.tail := rfl
@[simp] theorem bufWrite_count (v : Byte) (s : State) : (bufWrite v s).count = s.count := rfl
@[simp] theorem bufWrite_portA (v : Byte) (s : State) : (bufWrite v s).portA = s.portA := rfl
@[simp] theorem bufWrite_portB (v : Byte) (s : State) : (bufWrite v s).portB = s.portB := rfl
@[simp] theorem bufWrite_rxneieA (v : Byte) (s : State) : (bufWrite v s).rxneieA = s.rxneieA := rfl
@[simp] theorem bufWrite_hregA (v : Byte) (s : State) : (bufWrite v s).hregA = s.hregA := rfl
@[simp] theorem bufWrite_resp (v : Byte) (s : State) : (bufWrite v s).resp = s.resp := rfl
@[simp] theorem bufWrite_seq (v : Byte) (s : State) : (bufWrite v s).seq = s.seq := rfl
@[simp] theorem bufWrite_buf (v : Byte) (s : State) : (bufWrite v s).buf = Mem.write s.buf s.seq.i.toNat v := rfl
@[simp] theorem bufWrite_program (v : Byte) (s : State) : (bufWrite v s).program = s.program := rfl
@[simp] theorem bufWrite_sched (v : Byte) (s : State) : (bufWrite v s).sched = s.sched := rfl
@[simp] theorem advanceSlot_par (s : State) : (advanceSlot s).par = s.par := by unfold advanceSlot; split <;> rfl
@[simp] theorem advanceSlot_store (s : State) : (advanceSlot s).store = s.store := by unfold advanceSlot; split <;> rfl
@[simp] theorem advanceSlot_head (s : State) : (advanceSlot s).head = s.head := by unfold advanceSlot; split <;> rfl
@[simp] theorem advanceSlot_tail (s : State) : (advanceSlot s).tail = s.tail := by unfold advanceSlot; split <;> rfl
@[simp] theorem advanceSlot_count (s : State) : (advanceSlot s).count = s.count := by unfold advanceSlot; split <;> rfl
@[simp] theorem advanceSlot_portA (s : State) : (advanceSlot s).portA = s.portA := by unfold advanceSlot; split <;> rfl
@[simp] theorem advanceSlot_portB (s : State) : (advanceSlot s).portB = s.portB := by unfold advanceSlot; split <;> rfl
@[simp] theorem advanceSlot_rxneieA (s : State) : (advanceSlot s).rxneieA = s.rxneieA := by unfold advanceSlot; split <;> rfl
@[simp] theorem advanceSlot_hregA (s : State) : (advanceSlot s).hregA = s.hregA := by unfold advanceSlot; split <;> rfl
@[simp] theorem advanceSlot_resp (s : State) : (advanceSlot s).resp = s.resp := by unfold advanceSlot; split <;> rfl
@[simp] theorem advanceSlot_buf (s : State) : (advanceSlot s).buf = s.buf := by unfold advanceSlot; split <;> rfl
@[simp] theorem advanceSlot_program (s : State) : (advanceSlot s).program = s.program := by unfold advanceSlot; split <;> rfl
@[simp] theorem advanceSlot_sched (s : State) : (advanceSlot s).sched = s.sched := by unfold advanceSlot; split <;> rfl

/-- What the end of a slot step does to the sequencer. -/
theorem advanceSlot_seq (s : State) :
    (advanceSlot s).seq =
      if s.seq.i.toNat + 1 = s.seq.n.toNat then { s.seq with op := .idle } else { s.seq with i := s.seq.i + 1#24 } := by
  unfold advanceSlot; split <;> rfl

@[simp] theorem fillSlot_par (v : Byte) (s : State) : (fillSlot v s).par = s.par := by simp [fillSlot]
@[simp] theorem fillSlot_store (v : Byte) (s : State) : (fillSlot v s).store = s.store := by simp [fillSlot]
@[simp] theorem fillSlot_head (v : Byte) (s : State) : (fillSlot v s).head = s.head := by simp [fillSlot]
@[simp] theorem fillSlot_tail (v : Byte) (s : State) : (fillSlot v s).tail = s.tail := by simp [fillSlot]
@[simp] theorem fillSlot_count (v : Byte) (s : State) : (fillSlot v s).count = s.count := by simp [fillSlot]
@[simp] theorem fillSlot_portA (v : Byte) (s : State) : (fillSlot v s).portA = s.portA := by simp [fillSlot]
@[simp] theorem fillSlot_portB (v : Byte) (s : State) : (fillSlot v s).portB = s.portB := by simp [fillSlot]
@[simp] theorem fillSlot_rxneieA (v : Byte) (s : State) : (fillSlot v s).rxneieA = s.rxneieA := by simp [fillSlot]
@[simp] theorem fillSlot_hregA (v : Byte) (s : State) : (fillSlot v s).hregA = s.hregA := by simp [fillSlot]
@[simp] theorem fillSlot_resp (v : Byte) (s : State) : (fillSlot v s).resp = s.resp := by simp [fillSlot]
@[simp] theorem fillSlot_buf (v : Byte) (s : State) : (fillSlot v s).buf = Mem.write s.buf s.seq.i.toNat v := by simp [fillSlot]
@[simp] theorem fillSlot_program (v : Byte) (s : State) : (fillSlot v s).program = s.program := by simp [fillSlot]
@[simp] theorem fillSlot_sched (v : Byte) (s : State) : (fillSlot v s).sched = s.sched := by simp [fillSlot]

/-- What filling a slot does to the sequencer. -/
theorem fillSlot_seq (v : Byte) (s : State) :
    (fillSlot v s).seq =
      if s.seq.i.toNat + 1 = s.seq.n.toNat then { s.seq with op := .idle } else { s.seq with i := s.seq.i + 1#24 } :=
  advanceSlot_seq (bufWrite v s)


/-- Filling a slot, as one update. -/
theorem fillSlot_eq (v : Byte) (s : State) :
    fillSlot v s =
      { s with
        buf := Mem.write s.buf s.seq.i.toNat v
        seq := if s.seq.i.toNat + 1 = s.seq.n.toNat then { s.seq with op := .idle }
               else { s.seq with i := s.seq.i + 1#24 } } := by
  by_cases h : s.seq.i.toNat + 1 = s.seq.n.toNat <;> simp [fillSlot, advanceSlot, h, State.setSeq, bufWrite]

/-! ### wire -/

@[simp] theorem wire_par (p : Port) (b : Byte) (s : State) : (wire p b s).par = s.par := by simp [wire]
@[simp] theorem wire_store (p : Port) (b : Byte) (s : State) : (wire p b s).store = s.store := by simp [wire]
@[simp] theorem wire_head (p : Port) (b : Byte) (s : State) : (wire p b s).head = s.head := by simp [wire]
@[simp] theorem wire_tail (p : Port) (b : Byte) (s : State) : (wire p b s).tail = s.tail := by simp [wire]
@[simp] theorem wire_count (p : Port) (b : Byte) (s : State) : (wire p b s).count = s.count := by simp [wire]
@[simp] theorem wire_rxneieA (p : Port) (b : Byte) (s : State) : (wire p b s).rxneieA = s.rxneieA := by simp [wire]
@[simp] theorem wire_hregA (p : Port) (b : Byte) (s : State) : (wire p b s).hregA = s.hregA := by simp [wire]
@[simp] theorem wire_resp (p : Port) (b : Byte) (s : State) : (wire p b s).resp = s.resp := by simp [wire]
@[simp] theorem wire_seq (p : Port) (b : Byte) (s : State) : (wire p b s).seq = s.seq := by simp [wire]
@[simp] theorem wire_buf (p : Port) (b : Byte) (s : State) : (wire p b s).buf = s.buf := by simp [wire]
@[simp] theorem wire_program (p : Port) (b : Byte) (s : State) : (wire p b s).program = s.program := by simp [wire]
@[simp] theorem wire_sched (p : Port) (b : Byte) (s : State) : (wire p b s).sched = s.sched := by simp [wire]
@[simp] theorem wire_a_portA (b : Byte) (s : State) : (wire .a b s).portA = receive s.par.overrun b s.portA := rfl
@[simp] theorem wire_a_portB (b : Byte) (s : State) : (wire .a b s).portB = s.portB := rfl
@[simp] theorem wire_b_portA (b : Byte) (s : State) : (wire .b b s).portA = s.portA := rfl
@[simp] theorem wire_b_portB (b : Byte) (s : State) : (wire .b b s).portB = receive s.par.overrun b s.portB := rfl

/-! ### dropTurn -/

@[simp] theorem dropTurn_par (s : State) : (dropTurn s).par = s.par := rfl
@[simp] theorem dropTurn_store (s : State) : (dropTurn s).store = s.store := rfl
@[simp] theorem dropTurn_head (s : State) : (dropTurn s).head = s.head := rfl
@[simp] theorem dropTurn_tail (s : State) : (dropTurn s).tail = s.tail := rfl
@[simp] theorem dropTurn_count (s : State) : (dropTurn s).count = s.count := rfl
@[simp] theorem dropTurn_portA (s : State) : (dropTurn s).portA = s.portA := rfl
@[simp] theorem dropTurn_portB (s : State) : (dropTurn s).portB = s.portB := rfl
@[simp] theorem dropTurn_rxneieA (s : State) : (dropTurn s).rxneieA = s.rxneieA := rfl
@[simp] theorem dropTurn_hregA (s : State) : (dropTurn s).hregA = s.hregA := rfl
@[simp] theorem dropTurn_resp (s : State) : (dropTurn s).resp = s.resp := rfl
@[simp] theorem dropTurn_seq (s : State) : (dropTurn s).seq = s.seq := rfl
@[simp] theorem dropTurn_buf (s : State) : (dropTurn s).buf = s.buf := rfl
@[simp] theorem dropTurn_program (s : State) : (dropTurn s).program = s.program := rfl
@[simp] theorem dropTurn_sched (s : State) : (dropTurn s).sched = s.sched.tail := rfl

/-! ### the conditions see only the fields they read -/

@[simp] theorem dropTurn_empty (s : State) : (dropTurn s).empty = s.empty := rfl
@[simp] theorem setResp_empty (s : State) (w : Word) : (s.setResp w).empty = s.empty := rfl
@[simp] theorem dropTurn_full (s : State) : (dropTurn s).full = s.full := rfl
@[simp] theorem setResp_full (s : State) (w : Word) : (s.setResp w).full = s.full := rfl
@[simp] theorem dropTurn_irqA (s : State) : (dropTurn s).irqA = s.irqA := rfl
@[simp] theorem setResp_irqA (s : State) (w : Word) : (s.setResp w).irqA = s.irqA := rfl
@[simp] theorem dropTurn_shutOut (s : State) : (dropTurn s).shutOut = s.shutOut := rfl
@[simp] theorem setResp_shutOut (s : State) (w : Word) : (s.setResp w).shutOut = s.shutOut := rfl
@[simp] theorem dropTurn_mayIssue (s : State) : (dropTurn s).mayIssue = s.mayIssue := rfl
@[simp] theorem setResp_mayIssue (s : State) (w : Word) : (s.setResp w).mayIssue = s.mayIssue := rfl
@[simp] theorem setSeq_empty (s : State) (q : Seq) : (s.setSeq q).empty = s.empty := rfl
@[simp] theorem raiseFault_empty (c : FaultCode) (s : State) : (raiseFault c s).empty = s.empty := rfl
@[simp] theorem fillSlot_empty (v : Byte) (s : State) : (fillSlot v s).empty = s.empty := by simp [State.empty]
@[simp] theorem setSeq_full (s : State) (q : Seq) : (s.setSeq q).full = s.full := rfl
@[simp] theorem raiseFault_full (c : FaultCode) (s : State) : (raiseFault c s).full = s.full := rfl
@[simp] theorem fillSlot_full (v : Byte) (s : State) : (fillSlot v s).full = s.full := by simp [State.full]
@[simp] theorem setSeq_irqA (s : State) (q : Seq) : (s.setSeq q).irqA = s.irqA := rfl
@[simp] theorem raiseFault_irqA (c : FaultCode) (s : State) : (raiseFault c s).irqA = s.irqA := rfl
@[simp] theorem fillSlot_irqA (v : Byte) (s : State) : (fillSlot v s).irqA = s.irqA := by simp [State.irqA]
@[simp] theorem setSeq_shutOut (s : State) (q : Seq) : (s.setSeq q).shutOut = s.shutOut := rfl
@[simp] theorem raiseFault_shutOut (c : FaultCode) (s : State) : (raiseFault c s).shutOut = s.shutOut := rfl
@[simp] theorem fillSlot_shutOut (v : Byte) (s : State) : (fillSlot v s).shutOut = s.shutOut := by simp [State.shutOut, State.irqA]
@[simp] theorem setPort_full (s : State) (p : Port) (r : PortRegs) : (s.setPort p r).full = s.full := by cases p <;> rfl
@[simp] theorem setPort_empty (s : State) (p : Port) (r : PortRegs) : (s.setPort p r).empty = s.empty := by cases p <;> rfl
@[simp] theorem setPort_b_irqA (s : State) (r : PortRegs) : (s.setPort .b r).irqA = s.irqA := rfl
@[simp] theorem setPort_b_shutOut (s : State) (r : PortRegs) : (s.setPort .b r).shutOut = s.shutOut := rfl

/-- Reading `RDR[A]` withdraws the request. -/
theorem setPort_a_irqA (s : State) (r : PortRegs) (h : r.rxne = false) : (s.setPort .a r).irqA = false := by
  simp [State.irqA, h]

end Sys2Proof.Machine
end

