-- ==== Sys2Proof/Laws/Mem.lean ====
section
/-! SUPPORT. Byte memories: a read after a write, the canonical form, and which locations are listed. -/

namespace Sys2Proof.Machine

/-- A read after a write: the byte at the written location, every other location as before. -/
theorem Mem.read_write (m : Mem) (a : Nat) (b : Byte) (x : Nat) :
    Mem.read (Mem.write m a b) x = if a = x then .byte b else Mem.read m x := by
  induction m with
  | nil => simp [Mem.write, Mem.read]
  | cons c rest ih =>
    obtain ⟨k, v⟩ := c
    by_cases h1 : a < k
    · simp [Mem.write, h1, Mem.read]
    · by_cases h2 : a = k
      · subst h2; by_cases hx : a = x <;> simp [Mem.write, Mem.read, hx]
      · by_cases hk : k = x
        · subst hk; simp [Mem.write, h1, h2, Mem.read]
        · simp [Mem.write, h1, h2, Mem.read, hk, ih]

@[simp] theorem Mem.read_write_same (m : Mem) (a : Nat) (b : Byte) : Mem.read (Mem.write m a b) a = .byte b := by
  simp [Mem.read_write]

theorem Mem.read_write_ne (m : Mem) {a x : Nat} (b : Byte) (h : x ≠ a) :
    Mem.read (Mem.write m a b) x = Mem.read m x := by
  simp [Mem.read_write, Ne.symm h]

/-- The entries after a write: the written one, and entries that were there. -/
theorem Mem.mem_write {m : Mem} {a : Nat} {b : Byte} {c : Host.Cell} (h : c ∈ Mem.write m a b) :
    c = (a, b) ∨ c ∈ m := by
  induction m with
  | nil => simpa [Mem.write] using h
  | cons d rest ih =>
    obtain ⟨k, v⟩ := d
    unfold Mem.write at h
    split at h
    · simpa using h
    · split at h
      · rcases List.mem_cons.1 h with h | h
        · exact .inl h
        · exact .inr (List.mem_cons_of_mem _ h)
      · rcases List.mem_cons.1 h with h | h
        · exact .inr (h ▸ List.mem_cons_self ..)
        · exact (ih h).imp id (List.mem_cons_of_mem _)

/-- A write keeps the canonical form. -/
theorem Mem.wf_write {m : Mem} (a : Nat) (b : Byte) (h : Mem.wf m) : Mem.wf (Mem.write m a b) := by
  induction m with
  | nil => simp [Mem.write, Mem.wf]
  | cons d rest ih =>
    obtain ⟨k, v⟩ := d
    obtain ⟨hk, hr⟩ := List.pairwise_cons.1 h
    unfold Mem.write
    split
    · rename_i hlt
      refine List.pairwise_cons.2 ⟨fun c hc => ?_, h⟩
      rcases List.mem_cons.1 hc with rfl | hc
      · exact hlt
      · exact Nat.lt_trans hlt (hk c hc)
    · split
      · rename_i heq; subst heq; exact List.pairwise_cons.2 ⟨hk, hr⟩
      · rename_i h1 h2
        refine List.pairwise_cons.2 ⟨fun c hc => ?_, ih hr⟩
        rcases Mem.mem_write hc with rfl | hc
        · show k < a; omega
        · exact hk c hc

/-- The memories of the state after reset have the canonical form. -/
theorem Mem.wf_reset : Mem.wf State.reset.store ∧ Mem.wf State.reset.buf := ⟨.nil, .nil⟩

end Sys2Proof.Machine
end

