-- ==== Sys2Proof/Laws/Ops.lean ====
section
/-! SUPPORT. One lemma per shared operation: everything it can do when it answers a next state. -/

namespace Sys2Proof.Machine

@[simp] theorem andThen_next {α β : Type} (a : α) (f : α → Res β) : andThen (.next a) f = f a := rfl

theorem andThen_eq_next {α β : Type} {r : Res α} {f : α → Res β} {b : β} :
    andThen r f = .next b ↔ ∃ a, r = .next a ∧ f a = .next b := by
  cases r <;> simp [andThen]

theorem qRead_eq_next {s : State} {off : Nat} {v : Byte} :
    qRead s off = .next v ↔ off < s.par.cap ∧ Mem.read s.store off = .byte v := by
  unfold qRead
  by_cases h : off < s.par.cap
  · cases hr : Mem.read s.store off <;> simp [h]
  · simp [h]

theorem qWrite_eq_next {s : State} {off : Nat} {b : Byte} {t : State} :
    qWrite s off b = .next t ↔ off < s.par.cap ∧ t = { s with store := Mem.write s.store off b } := by
  unfold qWrite
  by_cases h : off < s.par.cap <;> simp [h, eq_comm]

theorem readRdr_eq_next {p : Port} {s : State} {r : Byte × State} :
    readRdr p s = .next r ↔
      (s.port p).rdr = .byte r.1 ∧ r.2 = s.setPort p { s.port p with rxne := false } := by
  obtain ⟨v, t⟩ := r
  unfold readRdr
  cases h : (s.port p).rdr <;> simp [eq_comm]

/-- The offset a push writes. -/
theorem pushSlot_of_full {s : State} (h : s.full = true) : pushSlot s = none := by simp [pushSlot, h]

theorem pushSlot_of_room {s : State} (h : s.full = false) : pushSlot s = some s.tail := by simp [pushSlot, h]

/-- push (40_byte_queue.md R91): a full queue is left alone, else the byte is stored at `tail`. -/
theorem pushByte_eq_next {b : Byte} {s : State} {r : Bool × State} :
    pushByte b s = .next r ↔
      (s.full = true ∧ r = (false, s)) ∨
      (s.full = false ∧ s.tail < s.par.cap ∧
        r = (true, { s with store := Mem.write s.store s.tail b, tail := nextIndex s.par.cap s.tail, count := s.count + 1 })) := by
  unfold pushByte pushSlot
  cases hf : s.full
  · simp only [andThen_eq_next, qWrite_eq_next, Bool.false_eq_true, if_false]
    constructor
    · rintro ⟨_, ⟨hlt, rfl⟩, h⟩
      exact .inr ⟨trivial, hlt, (Host.Outcome.next.inj h).symm⟩
    · rintro (⟨h, _⟩ | ⟨_, hlt, rfl⟩)
      · simp at h
      · exact ⟨_, ⟨hlt, rfl⟩, rfl⟩
  · simp [eq_comm]

/-- pop (40_byte_queue.md R92): an empty queue is left alone, else the byte at `head` is taken. -/
theorem popByte_eq_next {s : State} {r : Option Byte × State} :
    popByte s = .next r ↔
      (s.empty = true ∧ r = (none, s)) ∨
      (s.empty = false ∧ s.head < s.par.cap ∧ ∃ v, Mem.read s.store s.head = .byte v ∧
        r = (some v, { s with head := nextIndex s.par.cap s.head, count := s.count - 1 })) := by
  unfold popByte
  cases he : s.empty
  · simp only [andThen_eq_next, qRead_eq_next, Bool.false_eq_true, if_false]
    constructor
    · rintro ⟨v, ⟨hlt, hv⟩, h⟩
      exact .inr ⟨trivial, hlt, v, hv, (Host.Outcome.next.inj h).symm⟩
    · rintro (⟨h, _⟩ | ⟨_, hlt, v, hv, rfl⟩)
      · simp at h
      · exact ⟨v, ⟨hlt, hv⟩, rfl⟩
  · simp [eq_comm]

/-- An issue step is enabled, or the consumer is held. -/
theorem whenMayIssue_eq_next {s : State} {k : Res State} {t : State} :
    whenMayIssue s k = .next t ↔ (s.mayIssue = false ∧ t = s) ∨ (s.mayIssue = true ∧ k = .next t) := by
  unfold whenMayIssue
  cases s.mayIssue <;> simp [@eq_comm _ t]

/-- The check of every command but `CFG`: held, `F_UNCONFIGURED`, or the command's rule. -/
theorem whenConfigured_eq_next {q : Port} {s : State} {k : Res State} {t : State} :
    whenConfigured q s k = .next t ↔
      (s.mayIssue = false ∧ t = s) ∨
      (s.mayIssue = true ∧ (s.port q).cfgd = false ∧ t = raiseFault .unconfigured s) ∨
      (s.mayIssue = true ∧ (s.port q).cfgd = true ∧ k = .next t) := by
  rw [whenConfigured, whenMayIssue_eq_next]
  cases (s.port q).cfgd <;> simp [@eq_comm _ t]

theorem whenConfigured_run {q : Port} {s : State} {k : Res State} (hi : s.mayIssue = true)
    (hc : (s.port q).cfgd = true) : whenConfigured q s k = k := by simp [whenConfigured, whenMayIssue, hi, hc]

/-- The handler's run (41_receive_pipeline.md R112): held, a byte dropped at a full queue (R113), or a byte pushed. -/
theorem isrA_eq_next {s t : State} :
    isrA s = .next t ↔
      (s.irqA = false ∧ t = s) ∨
      (s.irqA = true ∧ ∃ v, s.portA.rdr = .byte v ∧
        ((s.full = true ∧ t = s.setPort .a { s.portA with rxne := false }) ∨
         (s.full = false ∧ s.tail < s.par.cap ∧
          t = { s.setPort .a { s.portA with rxne := false } with
                store := Mem.write s.store s.tail v
                tail := nextIndex s.par.cap s.tail
                count := s.count + 1 }))) := by
  unfold isrA
  cases s.irqA
  · simp [@eq_comm _ t]
  · simp only [andThen_eq_next, readRdr_eq_next, pushByte_eq_next, if_true, Bool.true_eq_false, false_and, false_or, true_and]
    constructor
    · rintro ⟨⟨v, u⟩, ⟨hv, rfl⟩, q, hq, h⟩
      refine ⟨v, hv, ?_⟩
      rcases hq with ⟨hf, rfl⟩ | ⟨hf, hlt, rfl⟩
      · exact .inl ⟨hf, (Host.Outcome.next.inj h).symm⟩
      · exact .inr ⟨hf, hlt, (Host.Outcome.next.inj h).symm⟩
    · rintro ⟨v, hv, ⟨hf, rfl⟩ | ⟨hf, hlt, rfl⟩⟩
      · exact ⟨(v, _), ⟨hv, rfl⟩, (false, _), .inl ⟨hf, rfl⟩, rfl⟩
      · exact ⟨(v, _), ⟨hv, rfl⟩, (true, _), .inr ⟨hf, hlt, rfl⟩, rfl⟩

/-- A drain's slot step in phase POP (40_byte_queue.md R97). -/
theorem drainPopSlot_eq_next {s t : State} :
    drainPopSlot s = .next t ↔
      (s.empty = true ∧ t = fillSlot 0x00#8 (s.setSeq { s.seq with ph := .fill })) ∨
      (s.empty = false ∧ s.head < s.par.cap ∧ ∃ v, Mem.read s.store s.head = .byte v ∧
        t = fillSlot v { s with head := nextIndex s.par.cap s.head, count := s.count - 1 }) := by
  simp only [drainPopSlot, andThen_eq_next, popByte_eq_next]
  constructor
  · rintro ⟨r, ⟨he, rfl⟩ | ⟨he, hlt, v, hv, rfl⟩, h⟩
    · exact .inl ⟨he, (Host.Outcome.next.inj h).symm⟩
    · exact .inr ⟨he, hlt, v, hv, (Host.Outcome.next.inj h).symm⟩
  · rintro (⟨he, rfl⟩ | ⟨he, hlt, v, hv, rfl⟩)
    · exact ⟨(none, s), .inl ⟨he, rfl⟩, rfl⟩
    · exact ⟨(some v, _), .inr ⟨he, hlt, v, hv, rfl⟩, rfl⟩

/-- The slot step of `RDBLK` (42_receive_wait.md R127), or the hold (R126). -/
theorem blkSlot_eq_next {s t : State} :
    blkSlot s = .next t ↔
      (s.portB.rxne = false ∧ t = s) ∨
      (s.portB.rxne = true ∧ ∃ v, s.portB.rdr = .byte v ∧
        t = fillSlot v (s.setPort .b { s.portB with rxne := false })) := by
  unfold blkSlot
  cases s.portB.rxne
  · simp [@eq_comm _ t]
  · simp only [andThen_eq_next, readRdr_eq_next, if_true, Bool.true_eq_false, false_and, false_or, true_and]
    constructor
    · rintro ⟨⟨v, u⟩, ⟨hv, rfl⟩, h⟩
      exact ⟨v, hv, (Host.Outcome.next.inj h).symm⟩
    · rintro ⟨v, hv, rfl⟩
      exact ⟨(v, _), ⟨hv, rfl⟩, rfl⟩

end Sys2Proof.Machine
end

