-- ==== Sys2Proof/Laws/PerInstr.lean ====
section
/-! SUPPORT. Per-instruction family `EncodedFields`: the fields every encoded command has (30_encoding.md R70, R73). -/

namespace Sys2Proof.Laws.EncodedFields

/-- The operation code of a command (30_encoding.md R73). -/
def opcode : Instr → BitVec 4
  | .cfg _ _ => 0x1#4
  | .push _ => 0x2#4
  | .pop => 0x3#4
  | .drain _ => 0x4#4
  | .rdblk _ => 0x5#4
  | .depth => 0x6#4

/-- An encoded command has its operation code in OP, zero in RSV and a port identity in PORT. -/
def Statement (i : Instr) : Prop :=
  opOf (encode i) = opcode i ∧ rsvOf (encode i) = 0b00#2 ∧ ∃ p, portOf (encode i) = portField p

theorem cfg (port : Port) (baud : Len) : Statement (.cfg port baud) := ⟨opOf_packCmd .., rsvOf_packCmd .., port, portOf_packCmd ..⟩

theorem push (byte : Byte) : Statement (.push byte) := ⟨opOf_packCmd .., rsvOf_packCmd .., .a, portOf_packCmd ..⟩

theorem pop : Statement .pop := ⟨opOf_packCmd .., rsvOf_packCmd .., .a, portOf_packCmd ..⟩

theorem drain (n : Len) : Statement (.drain n) := ⟨opOf_packCmd .., rsvOf_packCmd .., .a, portOf_packCmd ..⟩

theorem rdblk (n : Len) : Statement (.rdblk n) := ⟨opOf_packCmd .., rsvOf_packCmd .., .b, portOf_packCmd ..⟩

theorem depth : Statement .depth := ⟨opOf_packCmd .., rsvOf_packCmd .., .a, portOf_packCmd ..⟩

end Sys2Proof.Laws.EncodedFields
end

