-- ==== Sys2Proof/Laws/Step.lean ====
section
/-! SUPPORT. Said once: everything an issue step, a turn and a step can do. Later proofs take these apart instead of
unfolding the step function. -/

namespace Sys2Proof.Machine

/-- What an enabled issue step of a command does to the state. -/
inductive IssueEffect (s : State) : Instr → State → Prop where
  | unconfigured (i : Instr) (h : (∀ b, i ≠ .rdblk b) ∧ (∀ p b, i ≠ .cfg p b) ∧ s.portA.cfgd = false ∨
      (∃ n, i = .rdblk n) ∧ s.portB.cfgd = false) : IssueEffect s i (raiseFault .unconfigured s)
  | reconfig (p : Port) (baud : Len) (h : (s.port p).cfgd = true) : IssueEffect s (.cfg p baud) (raiseFault .reconfig s)
  | badBaud (p : Port) (baud : Len) (h : (s.port p).cfgd = false) (hb : Config.baudSupported baud = false) :
      IssueEffect s (.cfg p baud) (raiseFault .badBaud s)
  | cfg (p : Port) (baud : Len) (h : (s.port p).cfgd = false) (hb : Config.baudSupported baud = true) :
      IssueEffect s (.cfg p baud) (configured p baud s)
  | pushFull (b : Byte) (hc : s.portA.cfgd = true) (hf : s.full = true) :
      IssueEffect s (.push b) (s.setResp (respWord false 0#24))
  | pushRoom (b : Byte) (hc : s.portA.cfgd = true) (hf : s.full = false) (hlt : s.tail < s.par.cap) :
      IssueEffect s (.push b)
        { s with
          store := Mem.write s.store s.tail b
          tail := nextIndex s.par.cap s.tail
          count := s.count + 1
          resp := respWord true 0#24 }
  | popEmpty (hc : s.portA.cfgd = true) (he : s.empty = true) : IssueEffect s .pop (s.setResp (respWord false 0#24))
  | popByte (v : Byte) (hc : s.portA.cfgd = true) (he : s.empty = false) (hlt : s.head < s.par.cap)
      (hv : Mem.read s.store s.head = .byte v) :
      IssueEffect s .pop
        { s with
          head := nextIndex s.par.cap s.head
          count := s.count - 1
          resp := respWord true (zext24 v) }
  | depth (hc : s.portA.cfgd = true) : IssueEffect s .depth (s.setResp (respWord true (countVal s.count)))
  | drainZero (hc : s.portA.cfgd = true) : IssueEffect s (.drain 0#24) s
  | drain (n : Len) (hc : s.portA.cfgd = true) (hn : n ≠ 0#24) :
      IssueEffect s (.drain n) (s.setSeq { s.seq with op := .drain, ph := .pop, i := 0#24, n := n })
  | rdblkZero (hc : s.portB.cfgd = true) : IssueEffect s (.rdblk 0#24) s
  | rdblk (n : Len) (hc : s.portB.cfgd = true) (hn : n ≠ 0#24) :
      IssueEffect s (.rdblk n) (s.setSeq { s.seq with op := .blk, i := 0#24, n := n })

/-- An issue step that is not enabled changes nothing; an enabled one does one of the things above. -/
theorem exec_cases {i : Instr} {s t : State} (h : exec i s = .next t) :
    (s.mayIssue = false ∧ t = s) ∨ (s.mayIssue = true ∧ IssueEffect s i t) := by
  cases i with
  | cfg p baud =>
    rcases whenMayIssue_eq_next.1 h with h | ⟨hi, h⟩
    · exact .inl h
    · refine .inr ⟨hi, ?_⟩
      cases hc : (s.port p).cfgd
      · cases hb : Config.baudSupported baud
        · simp only [hc, hb, Bool.false_eq_true, if_false] at h
          exact Host.Outcome.next.inj h ▸ .badBaud p baud hc hb
        · simp only [hc, hb, Bool.false_eq_true, if_false, if_true] at h
          exact Host.Outcome.next.inj h ▸ .cfg p baud hc hb
      · simp only [hc, if_true] at h
        exact Host.Outcome.next.inj h ▸ .reconfig p baud hc
  | push b =>
    rcases whenConfigured_eq_next.1 h with h | ⟨hi, hc, rfl⟩ | ⟨hi, hc, h⟩
    · exact .inl h
    · exact .inr ⟨hi, .unconfigured _ (.inl ⟨by simp, by simp, hc⟩)⟩
    · obtain ⟨r, hr, h⟩ := andThen_eq_next.1 h
      rcases pushByte_eq_next.1 hr with ⟨hf, rfl⟩ | ⟨hf, hlt, rfl⟩
      · exact .inr ⟨hi, Host.Outcome.next.inj h ▸ .pushFull b hc hf⟩
      · exact .inr ⟨hi, Host.Outcome.next.inj h ▸ .pushRoom b hc hf hlt⟩
  | pop =>
    rcases whenConfigured_eq_next.1 h with h | ⟨hi, hc, rfl⟩ | ⟨hi, hc, h⟩
    · exact .inl h
    · exact .inr ⟨hi, .unconfigured _ (.inl ⟨by simp, by simp, hc⟩)⟩
    · obtain ⟨r, hr, h⟩ := andThen_eq_next.1 h
      rcases popByte_eq_next.1 hr with ⟨he, rfl⟩ | ⟨he, hlt, v, hv, rfl⟩
      · exact .inr ⟨hi, Host.Outcome.next.inj h ▸ .popEmpty hc he⟩
      · exact .inr ⟨hi, Host.Outcome.next.inj h ▸ .popByte v hc he hlt hv⟩
  | drain n =>
    rcases whenConfigured_eq_next.1 h with h | ⟨hi, hc, rfl⟩ | ⟨hi, hc, h⟩
    · exact .inl h
    · exact .inr ⟨hi, .unconfigured _ (.inl ⟨by simp, by simp, hc⟩)⟩
    · refine .inr ⟨hi, Host.Outcome.next.inj h ▸ ?_⟩
      split
      · rename_i hn; subst hn; exact .drainZero hc
      · rename_i hn; exact .drain n hc hn
  | rdblk n =>
    rcases whenConfigured_eq_next.1 h with h | ⟨hi, hc, rfl⟩ | ⟨hi, hc, h⟩
    · exact .inl h
    · exact .inr ⟨hi, .unconfigured _ (.inr ⟨⟨n, rfl⟩, hc⟩)⟩
    · refine .inr ⟨hi, Host.Outcome.next.inj h ▸ ?_⟩
      split
      · rename_i hn; subst hn; exact .rdblkZero hc
      · rename_i hn; exact .rdblk n hc hn
  | depth =>
    rcases whenConfigured_eq_next.1 h with h | ⟨hi, hc, rfl⟩ | ⟨hi, hc, h⟩
    · exact .inl h
    · exact .inr ⟨hi, .unconfigured _ (.inl ⟨by simp, by simp, hc⟩)⟩
    · exact .inr ⟨hi, Host.Outcome.next.inj h ▸ .depth hc⟩

/-- What a turn does to the state (the turn itself already taken off the schedule). -/
inductive TurnEffect (s : State) : Turn → State → Prop where
  | held (t : Turn) (h : t.enabled s = false) : TurnEffect s t s
  | wire (p : Port) (b : Byte) : TurnEffect s (.wire p b) (wire p b s)
  | isrFull (v : Byte) (hq : s.irqA = true) (hv : s.portA.rdr = .byte v) (hf : s.full = true) :
      TurnEffect s .isr (s.setPort .a { s.portA with rxne := false })
  | isrPush (v : Byte) (hq : s.irqA = true) (hv : s.portA.rdr = .byte v) (hf : s.full = false)
      (hlt : s.tail < s.par.cap) :
      TurnEffect s .isr
        { s.setPort .a { s.portA with rxne := false } with
          store := Mem.write s.store s.tail v
          tail := nextIndex s.par.cap s.tail
          count := s.count + 1 }
  | illegal (w : Word) (ws : List Word) (why : IllegalReason) (hi : s.mayIssue = true) (hp : s.program = w :: ws)
      (hd : decode w = .illegal why) : TurnEffect s .consumer (raiseFault .illegal { s with program := ws })
  | issue (w : Word) (ws : List Word) (i : Instr) (u : State) (hi : s.mayIssue = true) (hp : s.program = w :: ws)
      (hd : decode w = .instr i) (he : IssueEffect { s with program := ws } i u) : TurnEffect s .consumer u
  | drainEmpty (hs : s.shutOut = false) (ho : s.seq.op = .drain) (hph : s.seq.ph = .pop) (he : s.empty = true) :
      TurnEffect s .consumer (fillSlot 0x00#8 (s.setSeq { s.seq with ph := .fill }))
  | drainByte (v : Byte) (hs : s.shutOut = false) (ho : s.seq.op = .drain) (hph : s.seq.ph = .pop)
      (he : s.empty = false) (hlt : s.head < s.par.cap) (hv : Mem.read s.store s.head = .byte v) :
      TurnEffect s .consumer (fillSlot v { s with head := nextIndex s.par.cap s.head, count := s.count - 1 })
  | drainFill (hs : s.shutOut = false) (ho : s.seq.op = .drain) (hph : s.seq.ph = .fill) :
      TurnEffect s .consumer (fillSlot 0x00#8 s)
  | blkByte (v : Byte) (hs : s.shutOut = false) (ho : s.seq.op = .blk) (hr : s.portB.rxne = true)
      (hv : s.portB.rdr = .byte v) :
      TurnEffect s .consumer (fillSlot v (s.setPort .b { s.portB with rxne := false }))

theorem mayIssue_iff {s : State} : s.mayIssue = true ↔ s.seq.op = .idle ∧ s.shutOut = false := by
  simp [State.mayIssue]

/-- Everything a turn can do. -/
theorem takeTurn_cases {tn : Turn} {s t : State} (h : takeTurn tn s = .next t) : TurnEffect s tn t := by
  cases tn with
  | wire p b => exact Host.Outcome.next.inj h ▸ .wire p b
  | isr =>
    rcases isrA_eq_next.1 h with ⟨hq, rfl⟩ | ⟨hq, v, hv, ⟨hf, rfl⟩ | ⟨hf, hlt, rfl⟩⟩
    · exact .held _ hq
    · exact .isrFull v hq hv hf
    · exact .isrPush v hq hv hf hlt
  | consumer =>
    unfold takeTurn consumerTurn at h
    cases hs : s.shutOut
    · simp only [hs, Bool.false_eq_true, if_false] at h
      unfold consumerAct at h
      cases ho : s.seq.op <;> simp only [ho] at h
      · unfold issueNext at h
        cases hp : s.program <;> simp only [hp] at h
        · cases h; exact .held _ (by simp [Turn.enabled, ho, hp])
        · rename_i w ws
          have hi : s.mayIssue = true := mayIssue_iff.2 ⟨ho, hs⟩
          unfold Sys2Proof.Machine.issue at h
          cases hd : decode w <;> simp only [hd] at h
          · rcases exec_cases h with ⟨hn, _⟩ | ⟨_, he⟩
            · have : s.mayIssue = false := hn
              simp [hi] at this
            · exact .issue w ws _ _ hi hp hd he
          · exact Host.Outcome.next.inj h ▸ .illegal w ws _ hi hp hd
      · unfold drainSlot at h
        cases hph : s.seq.ph <;> simp only [hph] at h
        · rcases drainPopSlot_eq_next.1 h with ⟨he, rfl⟩ | ⟨he, hlt, v, hv, rfl⟩
          · exact .drainEmpty hs ho hph he
          · exact .drainByte v hs ho hph he hlt hv
        · exact Host.Outcome.next.inj h ▸ .drainFill hs ho hph
      · rcases blkSlot_eq_next.1 h with ⟨hr, rfl⟩ | ⟨hr, v, hv, rfl⟩
        · exact .held _ (by simp [Turn.enabled, ho, hr])
        · exact .blkByte v hs ho hr hv
      · cases h; exact .held _ (by simp [Turn.enabled, ho])
    · simp only [hs, if_true] at h
      cases h; exact .held _ (by simp [Turn.enabled, hs])

/-- Everything a step can do. -/
theorem step_cases {s t : State} (h : step s = .next t) : TurnEffect (dropTurn s) (nextTurn s) t := takeTurn_cases h

end Sys2Proof.Machine
end

