-- ==== Sys2Proof/Laws/Run.lean ====
section
/-! SUPPORT. Runs, one step at a time. -/

namespace Sys2Proof.Safety

open Sys2Proof.Machine

@[simp] theorem runFor_zero (s : State) : runFor 0 s = .next s := rfl

/-- A run of k + 1 steps is a step and a run of k. -/
theorem runFor_succ (k : Nat) (s : State) : runFor (k + 1) s = andThen (step s) (runFor k) := rfl

/-- `runFor` is the host's run of the machine. -/
theorem runFor_eq_run (k : Nat) (s : State) : runFor k s = Host.Core.run Sys2Proof.core k s := by
  induction k generalizing s with
  | zero => rfl
  | succ k ih =>
    have run_succ (M : Host.Core) (x : M.State) :
        M.run (k + 1) x = match M.step x with
          | .next y => M.run k y
          | .fault e => .fault e
          | .refused e => .refused e := by
      cases h : M.step x <;> simp only [Host.Core.run, h]
    refine Eq.trans ?_ (run_succ Sys2Proof.core s).symm
    rw [runFor_succ]
    cases h : step s with
    | next t => rw [show Sys2Proof.core.step s = .next t from h]; exact ih t
    | fault e => rw [show Sys2Proof.core.step s = .fault e from h]; rfl
    | refused e => rw [show Sys2Proof.core.step s = .refused e from h]; rfl

/-- Taking a run apart. -/
theorem runFor_succ_eq_next {k : Nat} {s t : State} :
    runFor (k + 1) s = .next t ↔ ∃ u, step s = .next u ∧ runFor k u = .next t := by
  rw [runFor_succ, andThen_eq_next]

/-- What a run adds up to, a step at a time. -/
theorem history_succ {s u : State} (f : State → List Datum) (k : Nat) (h : step s = .next u) :
    history f (k + 1) s = f s ++ history f k u := by simp [history, h]

theorem never_succ {s u : State} (f : State → Bool) (k : Nat) (h : step s = .next u) :
    never f (k + 1) s = (!f s && never f k u) := by simp [never, h]

theorem stepsTaken_succ {s u : State} (k : Nat) (h : step s = .next u) :
    stepsTaken (k + 1) s = (if (nextTurn s).enabled s then [nextTurn s] else []) ++ stepsTaken k u := by
  simp [stepsTaken, h]

theorem observations_succ {s u : State} (k : Nat) (h : step s = .next u) :
    observations (k + 1) s = observedBy s u ++ observations k u := by simp [observations, h]

/-- A run has an observable result exactly when it reaches a terminated state. -/
theorem observable_eq_some {k : Nat} {s : State} {r : RunResult} :
    observable k s = some r ↔
      runFor k s = .next r.final ∧ terminated r.final = true ∧ r.observed = observations k s := by
  obtain ⟨o, t⟩ := r
  unfold observable
  cases runFor k s with
  | next u =>
    by_cases h : terminated u = true
    · simp only [h, if_true, Option.some.injEq, RunResult.mk.injEq, Host.Outcome.next.injEq]
      constructor
      · rintro ⟨rfl, rfl⟩; exact ⟨rfl, h, rfl⟩
      · rintro ⟨rfl, _, rfl⟩; exact ⟨rfl, rfl⟩
    · simp only [h, Host.Outcome.next.injEq]
      constructor
      · intro h'; cases h'
      · rintro ⟨rfl, h', _⟩; exact absurd h' h
  | fault e => simp
  | refused e => simp

theorem leavesRead_eq {w : Word} {i : Instr} (h : decode w = .instr i) : leavesRead w = commandLeavesRead i := by
  simp only [leavesRead, h]

/-! ### The rate premise -/

theorem rateA_nil : RateA [] := by
  intro before between after b c h
  cases before <;> cases h

/-- A `WIRE(A, b)` at the front: an `ISR_A` stands before the next one. -/
theorem rateA_cons_wire {b : Byte} {l : List Turn} :
    RateA (.wire .a b :: l) ↔
      RateA l ∧ ∀ between after c, l = between ++ .wire .a c :: after → .isr ∈ between := by
  constructor
  · intro h
    exact ⟨fun before between after x y e => h (.wire .a b :: before) between after x y (by rw [e]; rfl),
      fun between after c e => h [] between after b c (by rw [e]; rfl)⟩
  · rintro ⟨hl, hn⟩ before between after x y e
    cases before with
    | nil => exact hn between after y (List.cons.inj e).2
    | cons z before => exact hl before between after x y (List.cons.inj e).2

/-- Another step at the front plays no part. -/
theorem rateA_cons_other {x : Turn} {l : List Turn} (hx : ∀ b, x ≠ .wire .a b) : RateA (x :: l) ↔ RateA l := by
  constructor
  · intro h before between after b c e
    exact h (x :: before) between after b c (by rw [e]; rfl)
  · intro h before between after b c e
    cases before with
    | nil => exact absurd (List.cons.inj e).1 (hx b)
    | cons z before => exact h before between after b c (List.cons.inj e).2

/-- The length of the abstract content is the count (40_byte_queue.md R103). -/
theorem length_contents (s : State) : (contents s).length = s.count := by simp [contents]

end Sys2Proof.Safety
end

