-- ==== Sys2Proof/Laws/Queue.lean ====
section
/-! SUPPORT. The Byte Queue in a state that meets its invariant: its conditions as equations, what the abstract content and the
invariant depend on, and the content with a byte put behind it or taken from its front. -/

namespace Sys2Proof.Safety

open Sys2Proof.Machine

theorem full_iff {s : State} : s.full = true ↔ s.count = s.par.cap := by simp [State.full]

theorem empty_iff {s : State} : s.empty = true ↔ s.count = 0 := by simp [State.empty]

theorem full_false {s : State} : s.full = false ↔ s.count ≠ s.par.cap := by simp [State.full]

theorem empty_false {s : State} : s.empty = false ↔ s.count ≠ 0 := by simp [State.empty]

/-- An advanced index is in range (40_byte_queue.md R100). -/
theorem nextIndex_lt {cap x : Nat} (h : 0 < cap) : nextIndex cap x < cap := Nat.mod_lt _ h

/-- The abstract content depends on the parameters, the storage, the head and the count only. -/
theorem contents_congr {s t : State} (hp : t.par = s.par) (hs : t.store = s.store) (hh : t.head = s.head)
    (hc : t.count = s.count) : contents t = contents s := by simp [contents, heldSlot, hp, hs, hh, hc]

/-- The queue's invariant depends on the parameters and the queue's fields only. -/
theorem queueInv_congr {s t : State} (h : QueueInv s) (hp : t.par = s.par) (hs : t.store = s.store)
    (hh : t.head = s.head) (ht : t.tail = s.tail) (hc : t.count = s.count) : QueueInv t := by
  refine ⟨⟨?_, ?_, ?_, ?_⟩, ?_, ?_, ?_, ?_⟩
  · rw [hp]; exact h.cap_wf
  · rw [hp, hc]; exact h.count_le
  · rw [hp, hh]; exact h.head_lt
  · rw [hp, ht]; exact h.tail_lt
  · rw [hp, hh, ht, hc]; exact h.tail_eq
  · rw [hs]; exact h.store_wf
  · rw [hp, hs]; exact h.store_inside
  · intro k hk
    rw [hs, heldSlot, hp, hh]
    exact h.held_written k (hc ▸ hk)

/-- The oldest byte held has been written (10_state.md R27). -/
theorem head_written {s : State} (h : QueueInv s) (he : s.count ≠ 0) : ∃ v, Mem.read s.store s.head = .byte v := by
  have hw := h.held_written 0 (Nat.pos_of_ne_zero he)
  rw [heldSlot, Nat.add_zero, Nat.mod_eq_of_lt h.head_lt] at hw
  cases hr : Mem.read s.store s.head with
  | unspec => exact absurd hr hw
  | byte v => exact ⟨v, rfl⟩

/-- A byte written at `tail` with the count raised stands behind the content. -/
theorem contents_write_tail {s : State} (h : QueueInv s) (b : Byte) (hr : s.count ≠ s.par.cap) (tail : Nat) :
    contents { s with store := Mem.write s.store s.tail b, tail := tail, count := s.count + 1 } =
      contents s ++ [.byte b] := by
  have hc := h.count_le
  unfold contents
  simp only [List.range_succ, List.map_append, List.map_cons, List.map_nil]
  congr 1
  · refine List.map_congr_left fun k hk => Mem.read_write_ne _ _ ?_
    rw [List.mem_range] at hk
    intro e
    have hm : s.head + k ≡ s.head + s.count [MOD s.par.cap] := by rw [h.tail_eq] at e; exact e
    have := (Nat.ModEq.add_left_cancel' s.head hm).eq_of_lt_of_lt (by omega) (by omega)
    omega
  · rw [show heldSlot { s with store := Mem.write s.store s.tail b, tail := tail, count := s.count + 1 } s.count = s.tail
      from h.tail_eq.symm, Mem.read_write_same]

/-- The content is the byte at `head`, then the content with the head advanced and the count lowered. -/
theorem contents_eq_cons {s : State} (h : QueueInv s) (he : s.count ≠ 0) :
    contents s =
      Mem.read s.store s.head :: contents { s with head := nextIndex s.par.cap s.head, count := s.count - 1 } := by
  obtain ⟨c, hc⟩ : ∃ c, s.count = c + 1 := ⟨s.count - 1, by omega⟩
  unfold contents
  rw [hc, List.range_succ_eq_map]
  simp only [List.map_cons, List.map_map, Nat.add_sub_cancel]
  congr 1
  · rw [heldSlot, Nat.add_zero, Nat.mod_eq_of_lt h.head_lt]
  · refine List.map_congr_left fun k _ => ?_
    simp only [Function.comp, heldSlot, nextIndex, Nat.mod_add_mod]
    rw [show s.head + (k + 1) = s.head + 1 + k by omega]

end Sys2Proof.Safety
end

