-- ==== Sys2Proof/Tests/Slice0.lean ====
section
/-! SUPPORT. Tests on fixed values, their expected results from 95_test_vectors.md (the vector is named) or from the rule
named, and for each statement with hypotheses a concrete state and operands that meet them. -/

namespace Sys2Proof.Tests

open Sys2Proof.Machine Sys2Proof.Safety

/-! ### Small states -/

/-- The state after reset with capacity `c` (R44), an overrun policy and a handler priority. -/
def start (c : Nat) (o : OverrunPolicy) (h : Bool) : State :=
  { State.reset with par := { cap := c, overrun := o, handlerPriority := h } }

/-- A port right after `CFG` at 115200. -/
def on : PortRegs := { rdr := .unspec, rxne := false, cfgd := true, baud := 115200#24 }

/-- A configured port with an unread byte. -/
def ready (b : Byte) : PortRegs := { rdr := .byte b, rxne := true, cfgd := true, baud := 115200#24 }

/-- C = 4, as most vectors, nothing configured. -/
def fresh : State := start 4 .keepOld true

/-- After `CFG A, 115200`. -/
def idleA : State := { fresh with portA := on, rxneieA := true, hregA := true }

/-- After `CFG B, 115200`. -/
def idleB : State := { fresh with portB := on }

/-- After both. -/
def idleAB : State := { idleA with portB := on }

/-- Contents `[41, 42, 43]`, `(0, 3, 3)`. -/
def three : State := { idleAB with store := [(0, 0x41#8), (1, 0x42#8), (2, 0x43#8)], tail := 3, count := 3 }

/-- Contents `[41, 42, 43, 44]`, `(0, 0, 4)`. -/
def four : State :=
  { idleAB with store := [(0, 0x41#8), (1, 0x42#8), (2, 0x43#8), (3, 0x44#8)], tail := 0, count := 4 }

/-- Contents `[42, 43, 44]`, `(1, 0, 3)`, the state after V7. -/
def wrapped : State := { four with head := 1, count := 3 }

/-- Port A holds an unread byte: `IRQ_A` is true. -/
def pendingA : State := { idleAB with portA := ready 0x41#8 }

/-- `RDNB 5` issued on `three`. -/
def draining : State := { three with seq := { op := .drain, ph := .pop, i := 0#24, n := 5#24, code := .none } }

/-- A drain of 3 with its last slot left, in phase FILL, a byte pushed meanwhile (V16 before its last slot). -/
def filling : State :=
  { idleAB with
    store := [(0, 0x41#8), (1, 0x42#8)]
    head := 1
    tail := 2
    count := 1
    seq := { op := .drain, ph := .fill, i := 2#24, n := 3#24, code := .none } }

/-- `RDBLK 2` issued, no byte on Port B. -/
def blocked : State := { idleAB with seq := { op := .blk, ph := .pop, i := 0#24, n := 2#24, code := .none } }

/-- `RDBLK 2` at its last slot, a byte waiting. -/
def lastByte : State :=
  { idleAB with
    portB := ready 0x69#8
    buf := [(0, 0x68#8)]
    seq := { op := .blk, ph := .pop, i := 1#24, n := 2#24, code := .none } }

/-- After a fault. -/
def faulted : State := { idleAB with seq := { Seq.reset with op := .fault, code := .illegal } }

/-- What a step's next state looks like through `f`. -/
def look {α : Type} (r : Res State) (f : State → α) : Option α :=
  match r with
  | .next t => some (f t)
  | .fault _ => none
  | .refused _ => none

/-- The queue registers and the response. -/
def queueView (t : State) : Nat × Nat × Nat × Word := (t.head, t.tail, t.count, t.resp)

/-- The first four storage bytes. -/
def storeView (t : State) : List Datum := (List.range 4).map (Mem.read t.store)

/-- The parts of the invariant, as facts a decision procedure can check on a concrete state. -/
theorem machineInv_of (s : State)
    (hq : s.par.wf ∧ s.count ≤ s.par.cap ∧ s.head < s.par.cap ∧ s.tail < s.par.cap ∧
      s.tail = (s.head + s.count) % s.par.cap ∧ Mem.wf s.store ∧ (∀ c ∈ s.store, c.1 < s.par.cap) ∧
      ∀ k < s.count, Mem.read s.store (heldSlot s k) ≠ .unspec)
    (hp : ∀ r ∈ [s.portA, s.portB],
      (r.rxne = true → r.cfgd = true) ∧ (r.rxne = true → r.rdr ≠ .unspec) ∧
      (r.cfgd = true → Config.baudSupported r.baud = true) ∧ (r.cfgd = false → r.baud = 0#24))
    (hc : s.rxneieA = s.portA.cfgd ∧ s.hregA = s.portA.cfgd ∧
      (s.portA.cfgd = false → s.head = 0 ∧ s.tail = 0 ∧ s.count = 0))
    (hs : (s.seq.op = .drain → s.seq.i.toNat < s.seq.n.toNat ∧ s.portA.cfgd = true) ∧
      (s.seq.op = .blk → s.seq.i.toNat < s.seq.n.toNat ∧ s.portB.cfgd = true) ∧
      (s.seq.code = .none ↔ s.seq.op ≠ .fault))
    (hb : Mem.wf s.buf ∧ ∀ c ∈ s.buf, c.1 < 2 ^ 24 - 1) : MachineInv s := by
  obtain ⟨q1, q2, q3, q4, q5, q6, q7, q8⟩ := hq
  obtain ⟨a1, a2, a3, a4⟩ := hp s.portA (by simp)
  obtain ⟨b1, b2, b3, b4⟩ := hp s.portB (by simp)
  exact ⟨⟨⟨q1, q2, q3, q4⟩, q5, q6, q7, q8⟩, ⟨a1, a2, a3, a4⟩, ⟨b1, b2, b3, b4⟩, ⟨hc.1, hc.2.1, hc.2.2⟩,
    ⟨hs.1, hs.2.1, hs.2.2⟩, ⟨hb.1, hb.2⟩⟩

theorem inv_idleAB : MachineInv idleAB := machineInv_of _ (by decide) (by decide) (by decide) (by decide) (by decide)
theorem inv_three : MachineInv three := machineInv_of _ (by decide) (by decide) (by decide) (by decide) (by decide)
theorem inv_four : MachineInv four := machineInv_of _ (by decide) (by decide) (by decide) (by decide) (by decide)
theorem inv_wrapped : MachineInv wrapped := machineInv_of _ (by decide) (by decide) (by decide) (by decide) (by decide)
theorem inv_pendingA : MachineInv pendingA := machineInv_of _ (by decide) (by decide) (by decide) (by decide) (by decide)
theorem inv_draining : MachineInv draining := machineInv_of _ (by decide) (by decide) (by decide) (by decide) (by decide)
theorem inv_filling : MachineInv filling := machineInv_of _ (by decide) (by decide) (by decide) (by decide) (by decide)
theorem inv_blocked : MachineInv blocked := machineInv_of _ (by decide) (by decide) (by decide) (by decide) (by decide)
theorem inv_lastByte : MachineInv lastByte := machineInv_of _ (by decide) (by decide) (by decide) (by decide) (by decide)
theorem inv_faulted : MachineInv faulted := machineInv_of _ (by decide) (by decide) (by decide) (by decide) (by decide)

/-! ### Encoding: words written out field by field, OP PORT RSV ARG (R70, R73) -/

/-- E1: `CFG A, 115200`. -/
theorem test_decode_cfg_a : decode (0b0001#4 ++ 0b00#2 ++ 0b00#2 ++ 0b000000011100001000000000#24) = .instr (.cfg .a 115200#24) := by decide

/-- E2: `CFG B, 115200`. -/
theorem test_decode_cfg_b : decode (0b0001#4 ++ 0b01#2 ++ 0b00#2 ++ 0b000000011100001000000000#24) = .instr (.cfg .b 115200#24) := by decide

/-- E6: `PUSH 0xFF`. -/
theorem test_decode_push : decode (0b0010#4 ++ 0b00#2 ++ 0b00#2 ++ 0b000000000000000011111111#24) = .instr (.push 0xFF#8) := by decide

/-- E7: `POP`. -/
theorem test_decode_pop : decode (0b0011#4 ++ 0b00#2 ++ 0b00#2 ++ 0b000000000000000000000000#24) = .instr .pop := by decide

/-- E10: `RDNB 16777215`. -/
theorem test_decode_drain : decode (0b0100#4 ++ 0b00#2 ++ 0b00#2 ++ 0b111111111111111111111111#24) = .instr (.drain 16777215#24) := by decide

/-- E11: `RDBLK 1`. -/
theorem test_decode_rdblk : decode (0b0101#4 ++ 0b01#2 ++ 0b00#2 ++ 0b000000000000000000000001#24) = .instr (.rdblk 1#24) := by decide

/-- E13: `DEPTH`. -/
theorem test_decode_depth : decode (0b0110#4 ++ 0b00#2 ++ 0b00#2 ++ 0b000000000000000000000000#24) = .instr .depth := by decide

/-- E3, E4, E8, E9, E12: the words the encoder gives. -/
theorem test_encode_words :
    encode (.cfg .a 9600#24) = 0x10002580#32 ∧ encode (.cfg .a 0#24) = 0x10000000#32 ∧ encode (.drain 5#24) = 0x40000005#32 ∧
    encode (.drain 0#24) = 0x40000000#32 ∧ encode (.rdblk 0#24) = 0x54000000#32 := by decide

/-- X1 to X14: illegal, each for its reason. -/
theorem test_illegal_words :
    decode 0x00000000#32 = .illegal .reservedOpcode ∧ decode 0xFFFFFFFF#32 = .illegal .reservedBits ∧
    decode 0x70000000#32 = .illegal .reservedOpcode ∧ decode 0x1101C200#32 = .illegal .reservedBits ∧
    decode 0x1801C200#32 = .illegal .reservedPort ∧ decode 0x1C01C200#32 = .illegal .reservedPort ∧
    decode 0x24000041#32 = .illegal .portLacksOperation ∧ decode 0x20000141#32 = .illegal .operandBits ∧
    decode 0x30000001#32 = .illegal .operandBits ∧ decode 0x34000000#32 = .illegal .portLacksOperation ∧
    decode 0x44000005#32 = .illegal .portLacksOperation ∧ decode 0x50000001#32 = .illegal .portLacksOperation ∧
    decode 0x64000000#32 = .illegal .portLacksOperation ∧ decode 0x60000001#32 = .illegal .operandBits := by decide

/-- The table's numbering is the word's own (R8). -/
theorem test_table_word : decodeTableWord 32 0x54000002 = some (.rdblk 2#24) ∧ decodeTableWord 32 0x50000002 = none := by decide

/-! ### Well-formedness: a line out of range for each check (R80), refused, beside the last one in range -/

theorem test_illformed_cfg : (AsmLine.cfg .b 16777216).wellFormed = false ∧ (AsmLine.cfg .b 16777215).wellFormed = true := by decide
theorem test_illformed_push : (AsmLine.push 256).wellFormed = false ∧ (AsmLine.push 255).wellFormed = true := by decide
theorem test_illformed_drain : (AsmLine.drain 16777216).wellFormed = false ∧ (AsmLine.drain 16777215).wellFormed = true := by decide
theorem test_illformed_rdnb : (AsmLine.rdnb 16777216).wellFormed = false ∧ (AsmLine.rdnb 16777215).wellFormed = true := by decide
theorem test_illformed_rdblk : (AsmLine.rdblk 16777216).wellFormed = false ∧ (AsmLine.rdblk 16777215).wellFormed = true := by decide

/-- R80, R81: the words of lines, and no word out of range. -/
theorem test_assemble :
    assemble (.cfg .b 115200) = some 0x1401C200#32 ∧ assemble (.rdnb 5) = some 0x40000005#32 ∧
    assemble (.push 256) = none := by decide

/-! ### Memory: the canonical form (20_memory.md R50 and log entry 7) -/

theorem test_mem_write_sorts :
    Mem.write (Mem.write (Mem.write [] 2 0x43#8) 0 0x41#8) 2 0x44#8 = [(0, 0x41#8), (2, 0x44#8)] ∧
    Mem.read [(0, 0x41#8), (2, 0x44#8)] 1 = .unspec := by decide

/-! ### One step per vector -/

/-- V32: `CFG A, 115200` from reset. -/
theorem test_cfg_a :
    look (exec (.cfg .a 115200#24) State.reset) (fun t => (t.portA, t.portB, t.rxneieA, t.hregA)) =
      some ({ rdr := .unspec, rxne := false, cfgd := true, baud := 115200#24 }, PortRegs.reset, true, true) ∧
    look (exec (.cfg .a 115200#24) State.reset) queueView = some (0, 0, 0, 0x00000000#32) := by decide

/-- V39: the reconfiguration check comes before the baud check. -/
theorem test_cfg_twice :
    look (exec (.cfg .a 0#24) idleA) (fun t => (t.seq.op.bits, t.seq.code.bits, t.portA.baud)) =
      some (3#2, 3#3, 115200#24) := by decide

/-- V4: `tail` wraps 3 to 0. -/
theorem test_push_wraps :
    look (exec (.push 0x44#8) three) (fun t => (queueView t, storeView t)) =
      some ((0, 0, 4, 0x80000000#32), [.byte 0x41#8, .byte 0x42#8, .byte 0x43#8, .byte 0x44#8]) := by decide

/-- V5: a full queue drops the byte; `store[0]` is still 0x41. -/
theorem test_push_full :
    look (exec (.push 0x45#8) four) (fun t => (queueView t, storeView t)) =
      some ((0, 0, 4, 0x00000000#32), [.byte 0x41#8, .byte 0x42#8, .byte 0x43#8, .byte 0x44#8]) := by decide

/-- V7: the oldest byte; slot 0 is not erased. -/
theorem test_pop_oldest :
    look (exec .pop four) (fun t => (queueView t, Mem.read t.store 0)) =
      some ((1, 0, 3, 0x80000041#32), .byte 0x41#8) := by decide

/-- V9, the fourth and the fifth pop: `head` at 0 takes 0x46 and reaches an empty queue, which then changes nothing. -/
theorem test_pop_empty :
    look (exec .pop { wrapped with store := [(0, 0x46#8)], head := 0, tail := 1, count := 1 }) queueView =
      some (1, 1, 0, 0x80000046#32) ∧
    look (exec .pop { wrapped with head := 1, tail := 1, count := 0, resp := 0x80000046#32 }) queueView =
      some (1, 1, 0, 0x00000000#32) := by decide

/-- V6: `DEPTH` on a full queue. -/
theorem test_depth_full : look (exec .depth four) queueView = some (0, 0, 4, 0x80000004#32) := by decide

/-- V9d: count 0 with ST = 1. -/
theorem test_depth_empty : look (exec .depth idleA) queueView = some (0, 0, 0, 0x80000000#32) := by decide

/-- V10, the issue step. -/
theorem test_drain_issue :
    look (exec (.drain 5#24) three) (fun t => (t.seq, t.count, t.buf)) =
      some ({ op := .drain, ph := .pop, i := 0#24, n := 5#24, code := .none }, 3, []) := by decide

/-- V13: `RDNB 0` changes nothing. -/
theorem test_drain_zero : look (exec (.drain 0#24) three) id = some three := by decide

/-- V25, the issue step. -/
theorem test_rdblk_issue :
    look (exec (.rdblk 2#24) idleB) (fun t => (t.seq.op, t.seq.i, t.seq.n)) = some (.blk, 0#24, 2#24) := by decide

/-- V35: Port B is not configured though A is. -/
theorem test_rdblk_unconfigured :
    look (exec (.rdblk 1#24) idleA) (fun t => (t.seq.op.bits, t.seq.code.bits)) = some (3#2, 2#3) := by decide

/-- V10, first slot: the oldest byte goes to slot 0. -/
theorem test_slot_pop :
    look (consumerTurn draining) (fun t => (t.buf, t.head, t.count, t.seq.i, t.seq.ph)) =
      some ([(0, 0x41#8)], 1, 2, 1#24, .pop) := by decide

/-- V12, first slot: an empty queue gives the zero byte and phase FILL. -/
theorem test_slot_empty :
    look (consumerTurn { idleA with seq := { op := .drain, ph := .pop, i := 0#24, n := 3#24, code := .none } })
      (fun t => (t.buf, t.count, t.seq)) =
      some ([(0, 0x00#8)], 0, { op := .drain, ph := .fill, i := 1#24, n := 3#24, code := .none }) := by decide

/-- V16, last slot: phase FILL does not look at the queue, and the operation is complete with `i = n - 1`. -/
theorem test_slot_fill :
    look (consumerTurn filling) (fun t => (t.buf, t.head, t.count, t.seq)) =
      some ([(2, 0x00#8)], 1, 1, { op := .idle, ph := .fill, i := 2#24, n := 3#24, code := .none }) := by decide

/-- V25, last slot. -/
theorem test_slot_rdblk :
    look (consumerTurn lastByte) (fun t => (t.buf, t.portB.rxne, t.seq.op)) =
      some ([(0, 0x68#8), (1, 0x69#8)], false, .idle) := by decide

/-- V31: no byte, no slot step. -/
theorem test_slot_rdblk_held : look (consumerTurn blocked) id = some blocked := by decide

/-- V18: a byte for an unconfigured port changes nothing. -/
theorem test_wire_unconfigured : wire .a 0x41#8 fresh = fresh ∧ fresh.irqA = false := by decide

/-- V19: `RDR[A]`, `RXNE[A]` and `IRQ_A`. -/
theorem test_wire_loads : (wire .a 0x41#8 idleA).portA = ready 0x41#8 ∧ (wire .a 0x41#8 idleA).irqA = true := by decide

/-- V21: at an overrun the policy says which byte is kept. -/
theorem test_wire_overrun :
    (wire .a 0x42#8 { pendingA with par := { cap := 4, overrun := .keepOld, handlerPriority := true } }).portA = ready 0x41#8 ∧
    (wire .a 0x42#8 { pendingA with par := { cap := 4, overrun := .takeNew, handlerPriority := true } }).portA = ready 0x42#8 := by decide

/-- V24: Port B raises no interrupt. -/
theorem test_wire_b : (wire .b 0x55#8 idleB).portB = ready 0x55#8 ∧ (wire .b 0x55#8 idleB).irqA = false := by decide

/-- V20: the handler's run. -/
theorem test_isr_pushes :
    look (isrA pendingA) (fun t => (t.portA.rxne, t.irqA, Mem.read t.store 0)) = some (false, false, .byte 0x41#8) ∧
    look (isrA pendingA) queueView = some (0, 1, 1, 0x00000000#32) := by decide

/-- V22: a full queue, the byte is gone. -/
theorem test_isr_full :
    look (isrA { four with portA := ready 0x45#8 }) (fun t => (t.portA.rxne, queueView t, storeView t)) =
      some (false, (0, 0, 4, 0x00000000#32), [.byte 0x41#8, .byte 0x42#8, .byte 0x43#8, .byte 0x44#8]) := by decide

/-- V17: `RDNB` cannot issue before the handler ran, unless the handler has no priority. -/
theorem test_priority :
    look (exec (.drain 1#24) pendingA) id = some pendingA ∧
    look (exec (.drain 1#24) { pendingA with par := { cap := 4, overrun := .keepOld, handlerPriority := false } })
      (fun t => t.seq.op) = some .drain := by decide

/-- V40: an illegal word on a configured port is `F_ILLEGAL`. -/
theorem test_illegal_issue :
    look (issue 0x1101C200#32 idleA) (fun t => (t.seq.op.bits, t.seq.code.bits)) = some (3#2, 1#3) := by decide

/-- A word placed after reset is issued by the next step (log entry 5). -/
theorem test_fetch_word :
    look (step (State.reset.withFetchWord 32 0x1001C200)) (fun t => (t.portA.cfgd, t.portA.baud, t.program, t.sched)) =
      some (true, 115200#24, [], []) := by decide

/-! ### Witnesses: states and operands that meet the hypotheses of the statements, clause by clause -/

/-- The premise "the operation answers a next state". -/
theorem next_of_look {r : Res State} (h : look r (fun _ => ()) = some ()) : ∃ t, r = .next t := by
  cases r with
  | next t => exact ⟨t, rfl⟩
  | fault e => cases h
  | refused e => cases h

theorem witness_DecodeAndEncodeFollowTheRule :
    rsvOf 0x1101C200#32 ≠ 0#2 ∧
    (rsvOf 0x14FFFFFF#32 = 0#2 ∧ opOf 0x14FFFFFF#32 = 0x1#4 ∧ (0x14FFFFFF#32).getLsbD 27 = false) ∧
    (rsvOf 0x200000FF#32 = 0#2 ∧ opOf 0x200000FF#32 = 0x2#4 ∧ portOf 0x200000FF#32 = 0#2 ∧
      (0x200000FF#32).extractLsb' 8 16 = 0#16) ∧
    (rsvOf 0x40FFFFFF#32 = 0#2 ∧ opOf 0x40FFFFFF#32 = 0x4#4 ∧ portOf 0x40FFFFFF#32 = 0#2) ∧
    (rsvOf 0x54FFFFFF#32 = 0#2 ∧ opOf 0x54FFFFFF#32 = 0x5#4 ∧ portOf 0x54FFFFFF#32 = 1#2) ∧
    ¬(rsvOf 0x20000100#32 = 0#2 ∧
        ((opOf 0x20000100#32 = 0x1#4 ∧ (0x20000100#32).getLsbD 27 = false) ∨
         (opOf 0x20000100#32 = 0x2#4 ∧ portOf 0x20000100#32 = 0#2 ∧ (0x20000100#32).extractLsb' 8 16 = 0#16) ∨
         (0x20000100#32) = 0x30000000#32 ∨ (opOf 0x20000100#32 = 0x4#4 ∧ portOf 0x20000100#32 = 0#2) ∨
         (opOf 0x20000100#32 = 0x5#4 ∧ portOf 0x20000100#32 = 1#2) ∨ (0x20000100#32) = 0x60000000#32)) ∧
    (Instr.rdblk 0xFFFFFF#24).wellFormed = true ∧ decode 0x54FFFFFF#32 = .instr (.rdblk 0xFFFFFF#24) := by decide

theorem witness_OpcodeMapSelectsTheCommand :
    decode 0x14FFFFFF#32 = .instr (.cfg .b 0xFFFFFF#24) ∧ (opcodeMap.all fun r => r.selects r.pattern) = true ∧
    (opcodeMap.map fun r => r.selects 0x200000FF#32) = [false, true, false, false, false, false] := by decide

theorem witness_IllegalWordsAreTheListedOnes :
    decode 0x6F000000#32 = .illegal .reservedBits ∧ decode 0x70000000#32 = .illegal .reservedOpcode ∧
    decode 0x20000100#32 = .illegal .operandBits ∧ decode 0x50FFFFFF#32 = .illegal .portLacksOperation := by decide

theorem witness_ResponseWordHasItsFields :
    idleA.resp.extractLsb' 24 7 = 0#7 ∧ ∃ t, step { idleA with program := [0x60000000#32] } = .next t :=
  ⟨by decide, next_of_look (by decide)⟩

/-- A state whose next step issues `w`. -/
def issuing (w : Word) (s : State) : State := { s with program := [w], sched := [.consumer] }

/-- A state whose next turn is `tn`. -/
def turning (tn : Turn) (s : State) : State := { s with sched := [tn] }

theorem witness_StepRunsTheDecodedCommand :
    (nextTurn (issuing 0x60000000#32 idleA) = .consumer ∧ (issuing 0x60000000#32 idleA).mayIssue = true ∧
      (issuing 0x60000000#32 idleA).program = [0x60000000#32] ∧ decode 0x60000000#32 = .instr .depth) ∧
    (nextTurn (issuing 0#32 idleA) = .consumer ∧ (issuing 0#32 idleA).mayIssue = true ∧
      (issuing 0#32 idleA).program = [0#32] ∧ decode 0#32 = .illegal .reservedOpcode) ∧
    nextTurn (turning (.wire .b 0xFF#8) idleA) = .wire .b 0xFF#8 ∧ nextTurn pendingA = .isr ∧
    (nextTurn draining = .consumer ∧ draining.shutOut = false ∧ draining.seq.op = .drain) ∧
    (nextTurn blocked = .consumer ∧ blocked.shutOut = false ∧ blocked.seq.op = .blk) := by decide

theorem witness_TurnsFollowTheSchedule :
    (turning .isr idleA).sched = .isr :: [] ∧ (pendingA.sched = [] ∧ pendingA.irqA = true) ∧
    (idleA.sched = [] ∧ idleA.irqA = false) := by decide

theorem witness_PlacedWordIsIssuedNext :
    State.reset.mayIssue = true ∧ decodeTableWord 32 0x54FFFFFF = some (.rdblk 0xFFFFFF#24) := by decide

theorem witness_IssueChecksInOrder :
    idleA.mayIssue = true ∧
    decode 0xFFFFFFFF#32 = .illegal .reservedBits ∧ decode 0x1401C200#32 = .instr (.cfg .b 115200#24) ∧
    (decode 0x54000001#32 = .instr (.rdblk 1#24) ∧ (idleA.port .b).cfgd = false) ∧
    (decode 0x30000000#32 = .instr .pop ∧ (∀ p baud, Instr.pop ≠ .cfg p baud) ∧ (idleA.port .a).cfgd = true) :=
  ⟨by decide, by decide, by decide, by decide, by decide, nofun, by decide⟩

theorem witness_DisabledAgentIsHeld :
    Turn.enabled idleA .isr = false ∧ Turn.enabled idleA .consumer = false ∧ Turn.enabled pendingA .consumer = false ∧
    Turn.enabled blocked .consumer = false ∧ Turn.enabled faulted .consumer = false ∧
    (nextTurn (turning .isr idleA) = .isr ∧ Turn.enabled (turning .isr idleA) .isr = false ∧
      ∃ t, step (turning .isr idleA) = .next t) ∧
    pendingA.shutOut = true ∧ draining.mayIssue = false ∧ pendingA.mayIssue = false ∧ faulted.mayIssue = false :=
  ⟨by decide, by decide, by decide, by decide, by decide, ⟨by decide, by decide, next_of_look (by decide)⟩, by decide⟩

theorem witness_CfgFollowsItsRule :
    (idleAB.mayIssue = true ∧ idleAB.portA.cfgd = true ∧ idleAB.portB.cfgd = true) ∧
    (fresh.mayIssue = true ∧ fresh.portA.cfgd = false ∧ fresh.portB.cfgd = false) ∧
    Config.baudSupported 0#24 = false ∧ Config.baudSupported 115200#24 = true := by decide

theorem witness_CfgFrame : (∃ t, exec (.cfg .a 115200#24) idleB = .next t) ∧ ∃ t, exec (.cfg .b 115200#24) idleA = .next t :=
  ⟨next_of_look (by decide), next_of_look (by decide)⟩

theorem witness_ConfigurationRunsOnce :
    (idleA.mayIssue = true ∧ (idleA.port .a).cfgd = true) ∧
    (fresh.mayIssue = true ∧ fresh.portA.cfgd = false ∧ fresh.portB.cfgd = false ∧
      Config.baudSupported 115200#24 = true) := by decide

theorem witness_UnsupportedBaudFaults :
    fresh.mayIssue = true ∧ (fresh.port .b).cfgd = false ∧ Config.baudSupported 0#24 = false := by decide

theorem witness_CfgBOnlyTurnsTheReceiverOn :
    (idleA.mayIssue = true ∧ idleA.portB.cfgd = false ∧ Config.baudSupported 115200#24 = true) ∧
    (pendingA.portB.cfgd = true ∧ (∃ t, takeTurn .isr pendingA = .next t) ∧ ∀ b, Turn.isr ≠ .wire .b b) :=
  ⟨by decide, by decide, next_of_look (by decide), nofun⟩

theorem witness_PushPrimitive :
    (four.count = four.par.cap ∧ QueueInv four) ∧
    (three.count ≠ three.par.cap ∧ three.tail = three.par.cap - 1 ∧ three.tail < three.par.cap ∧ QueueInv three ∧
      pushSlot three ≠ some 0) :=
  ⟨⟨by decide, inv_four.queue⟩, by decide, by decide, by decide, inv_three.queue, by decide⟩

theorem witness_PopPrimitive :
    (idleAB.count = 0 ∧ QueueInv idleAB) ∧
    (four.count ≠ 0 ∧ four.head < four.par.cap ∧ Mem.read four.store four.head = .byte 0x41#8 ∧ QueueInv four) :=
  ⟨⟨by decide, inv_idleAB.queue⟩, by decide, by decide, by decide, inv_four.queue⟩

theorem witness_PushCommand :
    (idleB.mayIssue = true ∧ idleB.portA.cfgd = false) ∧
    (four.mayIssue = true ∧ four.portA.cfgd = true ∧ four.count = four.par.cap) ∧
    (three.mayIssue = true ∧ three.portA.cfgd = true ∧ three.count ≠ three.par.cap ∧ three.tail < three.par.cap ∧
      three.count + 1 = three.par.cap) := by decide

theorem witness_PopCommand :
    (idleB.mayIssue = true ∧ idleB.portA.cfgd = false) ∧
    (idleA.mayIssue = true ∧ idleA.portA.cfgd = true ∧ idleA.count = 0) ∧
    (four.mayIssue = true ∧ four.portA.cfgd = true ∧ four.count ≠ 0 ∧ four.head < four.par.cap ∧
      Mem.read four.store four.head = .byte 0x41#8 ∧ four.count ≤ four.par.cap) ∧
    { wrapped with tail := 2, count := 1 : State }.count = 1 := by decide

theorem witness_DepthCommand :
    (idleB.mayIssue = true ∧ idleB.portA.cfgd = false) ∧
    (four.mayIssue = true ∧ four.portA.cfgd = true ∧ four.count ≤ four.par.cap ∧ four.par.wf) ∧
    ∃ t, isrA pendingA = .next t :=
  ⟨by decide, by decide, next_of_look (by decide)⟩

theorem witness_DrainIssueStep :
    (idleB.mayIssue = true ∧ idleB.portA.cfgd = false) ∧ (three.mayIssue = true ∧ three.portA.cfgd = true) ∧
    (16777215#24 : Len) ≠ 0#24 := by decide

theorem witness_RdblkIssueStep :
    (idleA.mayIssue = true ∧ idleA.portB.cfgd = false) ∧ (idleB.mayIssue = true ∧ idleB.portB.cfgd = true) ∧
    (16777215#24 : Len) ≠ 0#24 := by decide

theorem witness_PushFrame :
    ((∃ t, exec (.push 0x44#8) three = .next t) ∧ pushSlot three ≠ some 4) ∧
    ((∃ t, exec (.push 0x44#8) draining = .next t) ∧ draining.mayIssue = false) ∧
    ((∃ t, exec (.push 0x44#8) idleB = .next t) ∧ idleB.portA.cfgd = false) :=
  ⟨⟨next_of_look (by decide), by decide⟩, ⟨next_of_look (by decide), by decide⟩, next_of_look (by decide), by decide⟩

theorem witness_RegisterCommandsFrame :
    (∃ t, exec .pop four = .next t) ∧ (∃ t, exec .depth four = .next t) ∧ (∃ t, exec (.drain 5#24) four = .next t) ∧
    ∃ t, exec (.rdblk 2#24) idleAB = .next t :=
  ⟨next_of_look (by decide), next_of_look (by decide), next_of_look (by decide), next_of_look (by decide)⟩

theorem witness_ResponsesOfTheCommands :
    (four.mayIssue = true ∧ four.portA.cfgd = true ∧ four.count ≠ 0 ∧ Mem.read four.store four.head = .byte 0x41#8) ∧
    (idleAB.mayIssue = true ∧ idleAB.portA.cfgd = true ∧ idleAB.count = 0) ∧
    (∃ t, exec (.push 0x45#8) four = .next t) ∧ (∃ t, exec .pop four = .next t) ∧ (∃ t, exec .pop idleAB = .next t) ∧
    (∃ t, exec .depth four = .next t) ∧ (∃ t, exec (.cfg .a 0#24) fresh = .next t) ∧
    (∃ t, exec (.drain 0#24) four = .next t) ∧ (∃ t, exec (.rdblk 1#24) four = .next t) ∧ ∃ t, isrA pendingA = .next t :=
  ⟨by decide, by decide, next_of_look (by decide), next_of_look (by decide), next_of_look (by decide),
    next_of_look (by decide), next_of_look (by decide), next_of_look (by decide), next_of_look (by decide),
    next_of_look (by decide)⟩

/-- `filling` in phase POP: its last slot, with a byte to take or with an empty queue. -/
def lastPop (count : Nat) : State := { filling with count := count, seq := { filling.seq with ph := .pop } }

theorem witness_DrainPopSlotStep :
    ((lastPop 0).seq.op = .drain ∧ (lastPop 0).seq.ph = .pop ∧ Turn.enabled (lastPop 0) .consumer = true ∧ (lastPop 0).count = 0) ∧
    ((lastPop 1).count ≠ 0 ∧ (lastPop 1).head < (lastPop 1).par.cap ∧
      Mem.read (lastPop 1).store (lastPop 1).head = .byte 0x42#8 ∧ Turn.enabled (lastPop 1) .consumer = true ∧
      (lastPop 1).seq.i.toNat + 1 = (lastPop 1).seq.n.toNat) := by decide

theorem witness_DrainFillSlotStep :
    (filling.seq.op = .drain ∧ filling.seq.ph = .fill ∧ Turn.enabled filling .consumer = true) ∧ ∃ t, step filling = .next t :=
  ⟨by decide, next_of_look (by decide)⟩

theorem witness_RdblkSlotStep :
    lastByte.seq.op = .blk ∧ Turn.enabled lastByte .consumer = true ∧ lastByte.portB.rdr = .byte 0x69#8 := by decide

theorem witness_RdblkHeldUntilAByteArrives :
    blocked.seq.op = .blk ∧ blocked.portB.rxne = false ∧ (∃ t, takeTurn .consumer blocked = .next t) ∧
    (∀ b, Turn.consumer ≠ .wire .b b) ∧ blocked.portB.cfgd = true ∧ blocked.shutOut = false :=
  ⟨by decide, by decide, next_of_look (by decide), nofun, by decide, by decide⟩

/-- V10 with its five slot steps scheduled, one turn more behind them. -/
def drainingRun : State := { draining with sched := List.replicate 5 .consumer ++ [.isr] }

theorem witness_UninterruptedDrainDelivers :
    MachineInv drainingRun ∧ drainingRun.seq.op = .drain ∧ drainingRun.seq.ph = .pop ∧ drainingRun.seq.i = 0#24 ∧
    drainingRun.irqA = false ∧ drainingRun.sched = List.replicate drainingRun.seq.n.toNat .consumer ++ [.isr] :=
  ⟨machineInv_of _ (by decide) (by decide) (by decide) (by decide) (by decide), by decide, by decide, by decide, by decide,
    by decide⟩

/-- V25 with its two bytes and two slot steps scheduled. -/
def blockedRun : State :=
  { blocked with sched := [.wire .b 0x68#8, .consumer, .wire .b 0x69#8, .consumer] }

theorem witness_RdblkDeliversTheArrivingBytes :
    MachineInv blockedRun ∧ blockedRun.seq.op = .blk ∧ blockedRun.seq.i = 0#24 ∧
    blockedRun.seq.n.toNat = [0x68#8, 0x69#8].length ∧ blockedRun.portB.rxne = false ∧ blockedRun.irqA = false ∧
    blockedRun.sched = (([0x68#8, 0x69#8] : List Byte).flatMap fun b => [.wire .b b, .consumer]) ++ [] :=
  ⟨machineInv_of _ (by decide) (by decide) (by decide) (by decide) (by decide), by decide, by decide, by decide, by decide,
    by decide, by decide⟩

theorem witness_RdblkBlocksForEver :
    MachineInv blocked ∧ blocked.seq.op = .blk ∧ blocked.portB.rxne = false ∧ ∀ b, Turn.wire .b b ∉ blocked.sched :=
  ⟨inv_blocked, by decide, by decide, fun _ h => nomatch h⟩

theorem witness_OverflowKeepsTheFirstBytes : QueueInv idleA ∧ idleA.count = 0 :=
  ⟨(machineInv_of idleA (by decide) (by decide) (by decide) (by decide) (by decide)).queue, by decide⟩

theorem witness_InterruptRequest : MachineInv pendingA ∧ pendingA.irqA = true := ⟨inv_pendingA, by decide⟩

/-- `four` with an unread byte of Port A. -/
def pendingFull : State := { four with portA := ready 0x45#8 }

theorem witness_HandlerRun :
    (Turn.enabled pendingFull .isr = true ∧ pendingFull.portA.rdr = .byte 0x45#8 ∧ pendingFull.count = pendingFull.par.cap) ∧
    (Turn.enabled pendingA .isr = true ∧ pendingA.portA.rdr = .byte 0x41#8 ∧ pendingA.count ≠ pendingA.par.cap ∧
      pendingA.tail < pendingA.par.cap) := by decide

theorem witness_HandlerReturn :
    (pendingA.irqA = true ∧ ∃ t, isrA pendingA = .next t) ∧
    (idleA.irqA = false ∧ (∃ t, takeTurn (.wire .b 0x41#8) idleA = .next t) ∧ ∀ b, Turn.wire .b 0x41#8 ≠ .wire .a b) :=
  ⟨⟨by decide, next_of_look (by decide)⟩, by decide, next_of_look (by decide), nofun⟩

theorem witness_OtherAgentsLeaveTheConsumerAlone :
    (∃ t, takeTurn .isr pendingA = .next t) ∧ (∃ t, takeTurn (.wire .a 0x41#8) draining = .next t) ∧
    (∃ t, takeTurn (.wire .b 0x41#8) draining = .next t) ∧ Turn.isr ≠ .consumer :=
  ⟨next_of_look (by decide), next_of_look (by decide), next_of_look (by decide), nofun⟩

theorem witness_HandlerPriority :
    (pendingA.par.handlerPriority = true ∧ pendingA.irqA = true) ∧ (start 4 .keepOld false).par.handlerPriority = false := by decide

theorem witness_ByteArrives :
    (fresh.port .a).cfgd = false ∧ ((idleA.port .a).cfgd = true ∧ (idleA.port .a).rxne = false) ∧
    ((pendingA.port .a).cfgd = true ∧ (pendingA.port .a).rxne = true ∧ pendingA.par.overrun = .keepOld) ∧
    (({ pendingA with par := { cap := 4, overrun := .takeNew, handlerPriority := true } : State }.port .a).rxne = true ∧
      { pendingA with par := { cap := 4, overrun := .takeNew, handlerPriority := true } : State }.par.overrun = .takeNew) := by
  decide

theorem witness_PortBRaisesNoInterrupt : idleB.seq.op ≠ .blk ∧ blocked.seq.op = .blk := by decide

theorem witness_FaultIsRecordedAndSticky :
    (∃ t, isrA pendingA = .next t) ∧ faulted.seq.op = .fault ∧
    ∃ t, runFor 2 { faulted with sched := [.wire .a 0x41#8, .isr] } = .next t :=
  ⟨next_of_look (by decide), by decide, next_of_look (by decide)⟩

/-- Whether the next step records a fault. -/
def faultsNext (s : State) : Bool := look (step s) (fun t => t.seq.op) == some .fault

theorem witness_FaultsComeFromTheirCauses :
    faultsNext (issuing 0x00000000#32 idleA) = true ∧ faultsNext (issuing 0x54000001#32 idleA) = true ∧
    faultsNext (issuing 0x1001C200#32 idleA) = true ∧ faultsNext (issuing 0x10000000#32 fresh) = true ∧
    idleA.seq.op ≠ .fault ∧ fresh.seq.op ≠ .fault :=
  ⟨by decide, by decide, by decide, by decide, by decide, by decide⟩

theorem witness_UnconfiguredPortFaultsAndIgnoresBytes :
    (idleB.mayIssue = true ∧ idleB.portA.cfgd = false) ∧ (idleA.mayIssue = true ∧ idleA.portB.cfgd = false) ∧
    (fresh.port .b).cfgd = false := by decide

/-- A run that pushes, pops and fills: a byte arrives, the handler runs, `POP` is issued, two bytes arrive. -/
def mixedRun : State :=
  { three with
    program := [0x30000000#32]
    sched := [.wire .a 0x44#8, .isr, .consumer, .wire .a 0x45#8, .isr] }

theorem inv_mixedRun : MachineInv mixedRun := machineInv_of _ (by decide) (by decide) (by decide) (by decide) (by decide)

theorem noPush_mixedRun : NoPush mixedRun := by
  intro w hw b
  rw [List.mem_singleton.1 hw, show decode 0x30000000#32 = .instr .pop by decide]
  nofun

theorem witness_StepKeepsTheInvariant : MachineInv mixedRun ∧ ∃ t, step mixedRun = .next t :=
  ⟨inv_mixedRun, next_of_look (by decide)⟩

theorem witness_StepKeepsTheQueueBounds : QueueBounds mixedRun ∧ ∃ t, step mixedRun = .next t :=
  ⟨inv_mixedRun.queue.toQueueBounds, next_of_look (by decide)⟩

theorem witness_RunsNeverStop : MachineInv pendingFull :=
  machineInv_of _ (by decide) (by decide) (by decide) (by decide) (by decide)

theorem witness_QueueIsFirstInFirstOut :
    MachineInv mixedRun ∧ mixedRun.portA.cfgd = true ∧ ∃ t, runFor 5 mixedRun = .next t :=
  ⟨inv_mixedRun, by decide, next_of_look (by decide)⟩

/-- The sanctioned use: `RDNB 1` is the program, and the handler runs between the two bytes on Port A's wire. -/
def sanctioned : State :=
  { idleAB with
    program := [0x40000001#32]
    sched := [.wire .a 0x41#8, .isr, .wire .a 0x42#8] }

theorem spsc_sanctioned : SingleProducerSingleConsumer sanctioned := by
  have h : decode 0x40000001#32 = .instr (.drain 1#24) := by decide
  refine ⟨?_, ?_⟩ <;> intro w hw <;> rw [List.mem_singleton.1 hw, h] <;> nofun

/-- H-SPSC is refused by a program that holds a `POP` (R187). -/
theorem test_spsc_refuses_pop : ¬SingleProducerSingleConsumer mixedRun := fun h =>
  h.no_pop 0x30000000#32 (by decide) (by decide)

theorem rateA_sanctioned : RateA (stepsTaken 3 sanctioned) := by
  rw [show stepsTaken 3 sanctioned = [.wire .a 0x41#8, .isr, .wire .a 0x42#8] by decide, rateA_cons_wire,
    rateA_cons_other (x := .isr) (fun _ h => nomatch h), rateA_cons_wire]
  refine ⟨⟨rateA_nil, fun between _ _ h => by cases between <;> cases h⟩, fun between after c h => ?_⟩
  cases between with
  | nil => cases h
  | cons x between => obtain rfl := (List.cons.inj h).1; exact List.mem_cons_self

/-- `P_RATE_A` is refused by two bytes on Port A's wire with only a byte of Port B between them (R188). -/
theorem test_rateA_refuses : ¬RateA [.wire .a 0x41#8, .wire .b 0x42#8, .wire .a 0x43#8] := fun h =>
  absurd (h [] [.wire .b 0x42#8] [] 0x41#8 0x43#8 rfl) (by decide)

theorem witness_BytesKeepTheirWireOrder :
    (MachineInv mixedRun ∧ mixedRun.portA.cfgd = true ∧ NoPush mixedRun ∧ ∃ t, runFor 5 mixedRun = .next t) ∧
    SingleProducerSingleConsumer sanctioned :=
  ⟨⟨inv_mixedRun, by decide, noPush_mixedRun, next_of_look (by decide)⟩, spsc_sanctioned⟩

theorem witness_NothingIsMissingWithoutALoss :
    (MachineInv mixedRun ∧ mixedRun.portA.cfgd = true ∧ NoPush mixedRun ∧ (∃ t, runFor 5 mixedRun = .next t) ∧
      lossless 5 mixedRun = true) ∧
    (sanctioned.portA.rxne = false ∧ RateA (stepsTaken 3 sanctioned) ∧ depthKept 3 sanctioned = true) :=
  ⟨⟨inv_mixedRun, by decide, noPush_mixedRun, next_of_look (by decide), by decide⟩, by decide, rateA_sanctioned, by decide⟩

theorem witness_StepsOfTheTwoPortsCommute :
    let s : State := { lastByte with portA := ready 0x41#8 }
    (∃ t, isrA s = .next t) ∧ s.seq.op = .blk ∧ ∃ u, blkSlot s = .next u :=
  ⟨next_of_look (by decide), by decide, next_of_look (by decide)⟩

/-- R195, with V10's first byte: `RDNB 1`, its issue step and its slot step, then `DEPTH`. -/
theorem test_observable_result :
    ((observable 3 { three with program := [0x40000001#32, 0x60000000#32] }).map fun r => (r.observed, r.final.count)) =
      some ([.read [.byte 0x41#8], .resp 0x80000002#32], 2) ∧
    observable 2 { three with program := [0x40000001#32, 0x60000000#32] } = none := by decide

theorem witness_OnlyThreeCommandsWriteResp :
    (look (step (issuing 0x20000041#32 idleA)) (fun t => t.resp) = some 0x80000000#32 ∧
      (issuing 0x20000041#32 idleA).resp ≠ 0x80000000#32) ∧
    (issuing 0x20000041#32 idleA).seq.op = .idle ∧ ∃ r, observable 1 (issuing 0x20000041#32 idleA) = some r :=
  ⟨by decide, by decide, Option.isSome_iff_exists.1 (by decide)⟩

theorem witness_MemoryIsWrittenOnlyInPlace :
    ((∃ t, step mixedRun = .next t) ∧ pushedBy mixedRun = [] ∧ nextTurn mixedRun ≠ .consumer ∧ mixedRun.seq.op = .idle) ∧
    (∃ t, step pendingA = .next t) ∧ (∃ t, step draining = .next t) ∧ ∃ t, step faulted = .next t :=
  ⟨⟨next_of_look (by decide), by decide, by decide, by decide⟩, next_of_look (by decide), next_of_look (by decide),
    next_of_look (by decide)⟩

theorem witness_EachSideWritesItsOwnIndex :
    (look (step draining) (fun t => t.head) = some 1 ∧ draining.head ≠ 1) ∧
    (look (step pendingA) (fun t => t.tail) = some 1 ∧ pendingA.tail ≠ 1) := by decide

theorem witness_ConfigurationIsNeverUndone :
    (∃ t, step idleAB = .next t) ∧ (idleAB.port .a).cfgd = true ∧ (idleAB.port .b).cfgd = true ∧ idleAB.rxneieA = true ∧
    idleAB.hregA = true :=
  ⟨next_of_look (by decide), by decide⟩

theorem witness_IndicesFitTheirWidths :
    QueueBounds { start (2 ^ 24 - 1) .keepOld true with head := 2 ^ 24 - 2, count := 2 ^ 24 - 1 } ∧
    QueueBounds { start 1 .keepOld true with count := 1 } :=
  ⟨⟨by simp [start, Params.wf], by simp [start], by simp [start], by simp [start, State.reset]⟩, by decide, by decide, by decide, by decide⟩

theorem witness_PortBByteStaysOutOfPortA :
    (∃ t, step { lastByte with portB := { lastByte.portB with rdr := .byte 0x00#8 } } = .next t) ∧
    (∃ t, step { lastByte with portB := { lastByte.portB with rdr := .byte 0xFF#8 } } = .next t) ∧ mixedRun.seq.op ≠ .blk :=
  ⟨next_of_look (by decide), next_of_look (by decide), by decide⟩

end Sys2Proof.Tests
end

/-! PROOFS. The queue's bounds (10_state.md R24): what each way of moving the indices and the count keeps, then every issue
step, every turn and every step. -/

namespace Sys2Proof.Safety

open Sys2Proof.Machine

/-- The OPEN capacity is in its range (00_scope.md R6), whichever one it is. -/
theorem params_wf : Config.params.wf :=
  ⟨Nat.le_add_left 1 _, Config.capacityFree.isLt⟩

/-! ### The ways a step moves the queue's fields -/

section

variable {s t : State}

/-- The bounds depend on the parameters, the indices and the count only. -/
theorem queueBounds_congr (h : QueueBounds s) (hp : t.par = s.par := by simp) (hh : t.head = s.head := by simp)
    (ht : t.tail = s.tail := by simp) (hc : t.count = s.count := by simp) : QueueBounds t where
  cap_wf := hp ▸ h.cap_wf
  count_le := by rw [hp, hc]; exact h.count_le
  head_lt := by rw [hp, hh]; exact h.head_lt
  tail_lt := by rw [hp, ht]; exact h.tail_lt

/-- An empty queue at offset 0, as reset and `CFG A` leave it (43_configuration.md R137), is in bounds. -/
theorem queueBounds_of_cleared (hw : t.par.wf) (hh : t.head = 0) (ht : t.tail = 0) (hc : t.count = 0) :
    QueueBounds t where
  cap_wf := hw
  count_le := by rw [hc]; exact Nat.zero_le _
  head_lt := by rw [hh]; exact hw.1
  tail_lt := by rw [ht]; exact hw.1

/-- A push with room (40_byte_queue.md R91) keeps the bounds: below C the count may go up by one. -/
theorem queueBounds_pushed (h : QueueBounds s) (hf : s.full = false) (hp : t.par = s.par := by simp)
    (hh : t.head = s.head := by simp) (ht : t.tail = nextIndex s.par.cap s.tail := by simp)
    (hc : t.count = s.count + 1 := by simp) : QueueBounds t where
  cap_wf := hp ▸ h.cap_wf
  count_le := by rw [hp, hc]; exact Nat.lt_of_le_of_ne h.count_le (full_false.1 hf)
  head_lt := by rw [hp, hh]; exact h.head_lt
  tail_lt := by rw [hp, ht]; exact nextIndex_lt h.cap_wf.1

/-- A pop (40_byte_queue.md R92) keeps the bounds. -/
theorem queueBounds_popped (h : QueueBounds s) (hp : t.par = s.par := by simp)
    (hh : t.head = nextIndex s.par.cap s.head := by simp) (ht : t.tail = s.tail := by simp)
    (hc : t.count = s.count - 1 := by simp) : QueueBounds t where
  cap_wf := hp ▸ h.cap_wf
  count_le := by rw [hp, hc]; exact Nat.le_trans (Nat.sub_le _ _) h.count_le
  head_lt := by rw [hp, hh]; exact nextIndex_lt h.cap_wf.1
  tail_lt := by rw [hp, ht]; exact h.tail_lt

/-! ### Configuration, issue steps, turns and steps -/

/-- A `CFG` that passed its checks: `CFG A` creates the empty queue, `CFG B` leaves the queue alone. -/
theorem queueBounds_configured (p : Port) (baud : Len) (h : QueueBounds s) : QueueBounds (configured p baud s) := by
  cases p with
  | a => exact queueBounds_of_cleared h.cap_wf rfl rfl rfl
  | b => exact queueBounds_congr h rfl rfl rfl rfl

/-- Every issue step keeps the bounds. -/
theorem issueEffect_keeps_queueBounds {i : Instr} (h : QueueBounds s) (he : IssueEffect s i t) : QueueBounds t := by
  cases he with
  | cfg p baud => exact queueBounds_configured p baud h
  | pushRoom b hc hf => exact queueBounds_pushed h hf
  | popByte => exact queueBounds_popped h
  | drainZero | rdblkZero => exact h
  | unconfigured | reconfig | badBaud | pushFull | popEmpty | depth | drain | rdblk => exact queueBounds_congr h

/-- Every turn keeps the bounds. -/
theorem turnEffect_keeps_queueBounds {tn : Turn} (h : QueueBounds s) (he : TurnEffect s tn t) : QueueBounds t := by
  cases he with
  | held => exact h
  | isrPush v hq hv hf => exact queueBounds_pushed h hf
  | drainByte => exact queueBounds_popped h
  | issue w ws i u hi hp hd hu => exact issueEffect_keeps_queueBounds (queueBounds_congr h) hu
  | wire | isrFull | illegal | drainEmpty | drainFill | blkByte => exact queueBounds_congr h

/-- Every step keeps the bounds. -/
theorem step_keeps_queueBounds (h : QueueBounds s) (hs : step s = .next t) : QueueBounds t :=
  turnEffect_keeps_queueBounds (s := dropTurn s) (queueBounds_congr h) (step_cases hs)

end

/-- The bounds hold at reset (10_state.md R44). -/
theorem queueBounds_reset : QueueBounds State.reset := queueBounds_of_cleared params_wf rfl rfl rfl

/-- Settles O49: every turn moves the queue's fields in one of four ways (not at all, a push with room, a pop, or cleared by
`CFG A`), each of which keeps the bounds. -/
theorem stepKeepsTheQueueBounds : Obligations.StepKeepsTheQueueBounds :=
  ⟨fun _ _ => step_keeps_queueBounds, queueBounds_reset, fun _ => ⟨empty_iff, full_iff⟩⟩

end Sys2Proof.Safety

/-! PROOFS. The command word as its four fields (30_encoding.md R70, R71): equality and masking field by field, and the
word of each command from its fields. -/

namespace Sys2Proof

/-- A word is its four fields side by side. -/
theorem fields_append (w : Word) : opOf w ++ portOf w ++ rsvOf w ++ argOf w = w := by
  unfold opOf portOf rsvOf argOf
  rw [BitVec.extractLsb'_append_extractLsb'_eq_extractLsb' (start₁ := 26) (len₁ := 2) rfl,
    BitVec.extractLsb'_append_extractLsb'_eq_extractLsb' (start₁ := 24) (len₁ := 2) rfl,
    BitVec.extractLsb'_append_extractLsb'_eq_extractLsb' (start₁ := 0) (len₁ := 24) rfl]
  exact BitVec.extractLsb'_eq_self

/-- An operand is its upper sixteen bits and its byte. -/
theorem argHigh_append_argByte (a : Len) : argHigh a ++ argByte a = a := by
  unfold argHigh argByte
  rw [BitVec.extractLsb'_append_extractLsb'_eq_extractLsb' (start₁ := 0) (len₁ := 8) rfl]
  exact BitVec.extractLsb'_eq_self

theorem word_eq_iff {v w : Word} :
    v = w ↔ opOf v = opOf w ∧ portOf v = portOf w ∧ rsvOf v = rsvOf w ∧ argOf v = argOf w := by
  constructor
  · rintro rfl
    exact ⟨rfl, rfl, rfl, rfl⟩
  · rintro ⟨ho, hp, hr, ha⟩
    rw [← fields_append v, ho, hp, hr, ha, fields_append]

theorem arg_eq_iff {a b : Len} : a = b ↔ argHigh a = argHigh b ∧ argByte a = argByte b := by
  constructor
  · rintro rfl
    exact ⟨rfl, rfl⟩
  · rintro ⟨hh, hb⟩
    rw [← argHigh_append_argByte a, hh, hb, argHigh_append_argByte]

/-! ### The operand of `PUSH` -/

@[simp] theorem argHigh_setWidth (b : Byte) : argHigh (b.setWidth 24) = 0#16 := by
  ext i hi
  simp [argHigh]

@[simp] theorem argByte_setWidth (b : Byte) : argByte (b.setWidth 24) = b :=
  (BitVec.extractLsb'_setWidth_of_le (by decide)).trans BitVec.extractLsb'_eq_self

theorem eq_setWidth_iff {a : Len} {b : Byte} : a = b.setWidth 24 ↔ argHigh a = 0#16 ∧ argByte a = b := by
  simp [arg_eq_iff]

theorem argHigh_argOf (w : Word) : argHigh (argOf w) = w.extractLsb' 8 16 :=
  BitVec.extractLsb'_extractLsb'_of_le (by decide)

theorem argByte_argOf (w : Word) : argByte (argOf w) = w.extractLsb' 0 8 :=
  BitVec.extractLsb'_extractLsb'_of_le (by decide)

/-! ### The PORT field -/

theorem portField_cases (f : BitVec 2) : (f = 0b10#2 ∨ f = 0b11#2) ∨ ∃ p, f = portField p := by
  have h : (f = 0b10#2 ∨ f = 0b11#2) ∨ f = portField .a ∨ f = portField .b := by
    revert f
    decide
  exact h.imp_right (Or.elim · (⟨.a, ·⟩) (⟨.b, ·⟩))

/-- The row of `CFG` looks at one bit of the port, since both ports have the command (30_encoding.md R73). -/
theorem and_two_eq_zero_iff {f : BitVec 2} : f &&& 0b10#2 = 0b00#2 ↔ ∃ p, f = portField p := by
  rcases portField_cases f with (rfl | rfl) | ⟨p, rfl⟩
  · exact iff_of_false (by decide) fun ⟨p, hp⟩ => by cases p <;> cases hp
  · exact iff_of_false (by decide) fun ⟨p, hp⟩ => by cases p <;> cases hp
  · exact iff_of_true (by cases p <;> rfl) ⟨p, rfl⟩

/-- `w[27]` says that a port is named, and `w[26]` which one. -/
theorem portOf_eq_portField_iff {w : Word} {p : Port} :
    portOf w = portField p ↔ w.getLsbD 27 = false ∧ p = if w.getLsbD 26 then .b else .a := by
  have h26 : w.getLsbD 26 = (portOf w).getLsbD 0 := by simp [portOf]
  have h27 : w.getLsbD 27 = (portOf w).getLsbD 1 := by simp [portOf]
  rw [h26, h27]
  generalize portOf w = f
  revert f
  cases p <;> decide

/-! ### Packed words -/

theorem packCmd_eq_iff {op : BitVec 4} {p : Port} {arg : Len} {w : Word} :
    packCmd op p arg = w ↔ opOf w = op ∧ portOf w = portField p ∧ rsvOf w = 0b00#2 ∧ argOf w = arg := by
  rw [@eq_comm _ (packCmd op p arg), word_eq_iff, opOf_packCmd, portOf_packCmd, rsvOf_packCmd, argOf_packCmd]

/-- A packed word as R83 writes it, its fields shifted into place and joined by OR. -/
theorem packCmd_eq_or (op : BitVec 4) (p : Port) (arg : Len) :
    packCmd op p arg = op.setWidth 32 <<< 28 ||| (portField p).setWidth 32 <<< 26 ||| arg.setWidth 32 := by
  unfold packCmd
  rw [← BitVec.setWidth_eq (op ++ portField p ++ 0b00#2 ++ arg),
    BitVec.setWidth_append_append_append_eq_shiftLeft_setWidth_or]
  simp

/-! ### Masked words -/

theorem and_eq_iff_fields {w m x : Word} :
    w &&& m = x ↔ opOf w &&& opOf m = opOf x ∧ portOf w &&& portOf m = portOf x ∧ rsvOf w &&& rsvOf m = rsvOf x ∧
      argOf w &&& argOf m = argOf x := by
  simp [word_eq_iff, opOf, portOf, rsvOf, argOf, BitVec.extractLsb'_and]

theorem and_eq_iff_argParts {a m x : Len} :
    a &&& m = x ↔ argHigh a &&& argHigh m = argHigh x ∧ argByte a &&& argByte m = argByte x := by
  simp [arg_eq_iff, argHigh, argByte, BitVec.extractLsb'_and]

end Sys2Proof

/-! PROOFS. Decoder and encoder (30_encoding.md R83): the decoder answers a command on that command's own word and on no
other. Both round trips, the lines of the decode table and the illegal words follow from this one equivalence. -/

namespace Sys2Proof

theorem onlyPortA_eq_instr {p : Port} {d : Decoded} {i : Instr} : onlyPortA p d = .instr i ↔ p = .a ∧ d = .instr i := by
  cases p <;> simp [onlyPortA]

theorem onlyPortB_eq_instr {p : Port} {d : Decoded} {i : Instr} : onlyPortB p d = .instr i ↔ p = .b ∧ d = .instr i := by
  cases p <;> simp [onlyPortB]

section

variable {c : Prop} [Decidable c] {i j : Instr} {why : IllegalReason}

theorem guarded_eq_instr : (if c then Decoded.instr i else .illegal why) = .instr j ↔ c ∧ i = j := by
  by_cases h : c <;> simp [h]

theorem guarded_illegal_iff : (∃ r, (if c then Decoded.instr i else .illegal why) = .illegal r) ↔ ¬c := by
  by_cases h : c <;> simp [h]

end

/-- The operation codes: the reserved ones, and one per command (30_encoding.md R73, R75). -/
theorem opcode_cases (op : BitVec 4) :
    (op = 0x0#4 ∨ 0x7#4 ≤ op) ∨ op = 0x1#4 ∨ op = 0x2#4 ∨ op = 0x3#4 ∨ op = 0x4#4 ∨ op = 0x5#4 ∨ op = 0x6#4 := by
  revert op
  decide

theorem decodeOp_reserved {op : BitVec 4} (h : op = 0x0#4 ∨ 0x7#4 ≤ op) (p : Port) (arg : Len) :
    decodeOp op p arg = .illegal .reservedOpcode := by
  unfold decodeOp
  rcases h with rfl | h
  · rfl
  · iterate 6 rw [if_neg (by rintro rfl; revert h; decide)]

/-- A row of the decode table reads the fields its command packs. -/
theorem encode_of_decodeOp {op : BitVec 4} {p : Port} {arg : Len} {i : Instr} (h : decodeOp op p arg = .instr i) :
    encode i = packCmd op p arg := by
  rcases opcode_cases op with hop | rfl | rfl | rfl | rfl | rfl | rfl
  · rw [decodeOp_reserved hop] at h
    cases h
  · cases h
    rfl
  · obtain ⟨rfl, h⟩ := onlyPortA_eq_instr.1 h
    obtain ⟨hh, rfl⟩ := guarded_eq_instr.1 h
    exact congrArg (packCmd 0x2#4 .a) (eq_setWidth_iff.2 ⟨hh, rfl⟩).symm
  · obtain ⟨rfl, h⟩ := onlyPortA_eq_instr.1 h
    obtain ⟨rfl, rfl⟩ := guarded_eq_instr.1 h
    rfl
  · obtain ⟨rfl, h⟩ := onlyPortA_eq_instr.1 h
    cases h
    rfl
  · obtain ⟨rfl, h⟩ := onlyPortB_eq_instr.1 h
    cases h
    rfl
  · obtain ⟨rfl, h⟩ := onlyPortA_eq_instr.1 h
    obtain ⟨rfl, rfl⟩ := guarded_eq_instr.1 h
    rfl

theorem decode_eq_decodeOp {w : Word} {p : Port} (hr : rsvOf w = 0b00#2) (hp : portOf w = portField p) :
    decode w = decodeOp (opOf w) p (argOf w) := by
  simp [decode, hr, hp]

theorem decode_reservedBits {w : Word} (hr : rsvOf w ≠ 0b00#2) : decode w = .illegal .reservedBits := by
  simp [decode, hr]

theorem decode_reservedPort {w : Word} (hr : rsvOf w = 0b00#2) (hp : portOf w = 0b10#2 ∨ portOf w = 0b11#2) :
    decode w = .illegal .reservedPort := by
  rcases hp with hp | hp <;> simp [decode, hr, hp, portOfField]

theorem decode_encode (i : Instr) : decode (encode i) = .instr i := by
  cases i <;> simp [encode, decodeOp, onlyPortA, onlyPortB]

theorem encode_of_decode {w : Word} {i : Instr} (h : decode w = .instr i) : encode i = w := by
  by_cases hr : rsvOf w = 0b00#2
  · rcases portField_cases (portOf w) with hp | ⟨p, hp⟩
    · rw [decode_reservedPort hr hp] at h
      cases h
    · rw [decode_eq_decodeOp hr hp] at h
      exact (encode_of_decodeOp h).trans (packCmd_fields hr hp)
  · rw [decode_reservedBits hr] at h
    cases h

/-- The decoder answers a command on that command's own word and on no other. -/
theorem decode_eq_instr_iff {w : Word} {i : Instr} : decode w = .instr i ↔ encode i = w :=
  ⟨encode_of_decode, fun h => h ▸ decode_encode i⟩

theorem decode_illegal_iff {w : Word} : (∃ why, decode w = .illegal why) ↔ ∀ i, encode i ≠ w := by
  simp only [ne_eq, ← decode_eq_instr_iff]
  cases decode w <;> simp

/-! ### The shapes of R83 -/

/-- The guards of the decode table's lines, each with RSV zero (30_encoding.md R83). -/
def LegalShape (w : Word) : Prop :=
  rsvOf w = 0#2 ∧
    ((opOf w = 0x1#4 ∧ w.getLsbD 27 = false) ∨
     (opOf w = 0x2#4 ∧ portOf w = 0#2 ∧ w.extractLsb' 8 16 = 0#16) ∨
     w = 0x30000000#32 ∨
     (opOf w = 0x4#4 ∧ portOf w = 0#2) ∨
     (opOf w = 0x5#4 ∧ portOf w = 1#2) ∨
     w = 0x60000000#32)

theorem legalShape_encode (i : Instr) : LegalShape (encode i) := by
  cases i with
  | cfg p baud =>
    have h27 := (portOf_eq_portField_iff.1 (portOf_packCmd 0x1#4 p baud)).1
    exact ⟨rsvOf_packCmd .., .inl ⟨opOf_packCmd .., h27⟩⟩
  | push b =>
    have hh : (encode (.push b)).extractLsb' 8 16 = 0#16 := by simp [← argHigh_argOf, encode]
    exact ⟨rsvOf_packCmd .., .inr (.inl ⟨opOf_packCmd .., portOf_packCmd .., hh⟩)⟩
  | pop => exact ⟨rsvOf_packCmd .., .inr (.inr (.inl rfl))⟩
  | drain n => exact ⟨rsvOf_packCmd .., .inr (.inr (.inr (.inl ⟨opOf_packCmd .., portOf_packCmd ..⟩)))⟩
  | rdblk n => exact ⟨rsvOf_packCmd .., .inr (.inr (.inr (.inr (.inl ⟨opOf_packCmd .., portOf_packCmd ..⟩))))⟩
  | depth => exact ⟨rsvOf_packCmd .., .inr (.inr (.inr (.inr (.inr rfl))))⟩

section

variable {w : Word}

/-- The otherwise line of the decode table. -/
theorem decode_illegal_of_not_legalShape (h : ¬LegalShape w) : ∃ why, decode w = .illegal why :=
  decode_illegal_iff.2 fun i hi => h (hi ▸ legalShape_encode i)

theorem decode_cfg_line (hr : rsvOf w = 0b00#2) (ho : opOf w = 0x1#4) (hp : w.getLsbD 27 = false) :
    decode w = .instr (.cfg (if w.getLsbD 26 then .b else .a) (argOf w)) :=
  decode_eq_instr_iff.2 (packCmd_eq_iff.2 ⟨ho, portOf_eq_portField_iff.2 ⟨hp, rfl⟩, hr, rfl⟩)

theorem decode_push_line (hr : rsvOf w = 0b00#2) (ho : opOf w = 0x2#4) (hp : portOf w = 0b00#2)
    (hh : w.extractLsb' 8 16 = 0#16) : decode w = .instr (.push (w.extractLsb' 0 8)) := by
  have harg : argOf w = (w.extractLsb' 0 8).setWidth 24 :=
    eq_setWidth_iff.2 ⟨(argHigh_argOf w).trans hh, argByte_argOf w⟩
  exact decode_eq_instr_iff.2 (packCmd_eq_iff.2 ⟨ho, hp, hr, harg⟩)

theorem decode_drain_line (hr : rsvOf w = 0b00#2) (ho : opOf w = 0x4#4) (hp : portOf w = 0b00#2) :
    decode w = .instr (.drain (argOf w)) :=
  decode_eq_instr_iff.2 (packCmd_eq_iff.2 ⟨ho, hp, hr, rfl⟩)

theorem decode_rdblk_line (hr : rsvOf w = 0b00#2) (ho : opOf w = 0x5#4) (hp : portOf w = 0b01#2) :
    decode w = .instr (.rdblk (argOf w)) :=
  decode_eq_instr_iff.2 (packCmd_eq_iff.2 ⟨ho, hp, hr, rfl⟩)

end

theorem encode_cfg_eq_or (p : Port) (baud : Len) :
    encode (.cfg p baud) = 0x10000000#32 ||| (portField p).setWidth 32 <<< 26 ||| baud.setWidth 32 :=
  packCmd_eq_or 0x1#4 p baud

theorem encode_push_eq_or (b : Byte) : encode (.push b) = 0x20000000#32 ||| b.setWidth 32 := by
  simp [encode, packCmd_eq_or, portField]

theorem encode_drain_eq_or (n : Len) : encode (.drain n) = 0x40000000#32 ||| n.setWidth 32 :=
  packCmd_eq_or 0x4#4 .a n

theorem encode_rdblk_eq_or (n : Len) : encode (.rdblk n) = 0x54000000#32 ||| n.setWidth 32 :=
  packCmd_eq_or 0x5#4 .b n

/-- Settles O1: a word decodes to a command exactly when it is that command's word, so each line of the table is a comparison
of four fields. -/
theorem decodeAndEncodeFollowTheRule : Obligations.DecodeAndEncodeFollowTheRule := by
  refine ⟨fun w => ⟨fun hr => ⟨_, decode_reservedBits hr⟩, fun hr => ⟨decode_cfg_line hr, decode_push_line hr,
      decode_drain_line hr, decode_rdblk_line hr⟩, ?pop, ?depth, decode_illegal_of_not_legalShape⟩,
    encode_cfg_eq_or, encode_push_eq_or, rfl, encode_drain_eq_or, encode_rdblk_eq_or, rfl,
    fun i _ => decode_encode i, fun _ _ => encode_of_decode⟩
  case pop =>
    rintro rfl
    exact decode_encode .pop
  case depth =>
    rintro rfl
    exact decode_encode .depth

end Sys2Proof

/-! PROOFS. Illegal words (30_encoding.md R75): the rows of the opcode map select the words of the commands, and the list that
R75 spells out is read off the decoder field by field. -/

namespace Sys2Proof

/-! ### The rows of the opcode map -/

section

variable {w : Word} {mnemonic : String}

theorem selects_iff {mask x : Word} : OpcodeRow.selects ⟨mnemonic, mask, x⟩ w = true ↔ w &&& mask = x := beq_iff_eq

/-- A row whose mask is all ones selects one word. -/
theorem selects_fixed {x : Word} : OpcodeRow.selects ⟨mnemonic, 0xFFFFFFFF#32, x⟩ w = true ↔ x = w := by
  rw [selects_iff]
  change w &&& .allOnes 32 = x ↔ x = w
  rw [BitVec.and_allOnes, eq_comm]

/-- A row that fixes everything but ARG selects the packed words of one operation and one port. -/
theorem selects_anyArg {op : BitVec 4} {p : Port} :
    OpcodeRow.selects ⟨mnemonic, 0xFF000000#32, packCmd op p 0#24⟩ w = true ↔ ∃ n, packCmd op p n = w := by
  rw [selects_iff, and_eq_iff_fields, opOf_packCmd, portOf_packCmd, rsvOf_packCmd, argOf_packCmd]
  change opOf w &&& .allOnes 4 = op ∧ portOf w &&& .allOnes 2 = portField p ∧ rsvOf w &&& .allOnes 2 = 0b00#2 ∧
    argOf w &&& 0#24 = 0#24 ↔ _
  simp only [BitVec.and_allOnes, BitVec.and_zero, packCmd_eq_iff, exists_and_left, exists_eq']

theorem selects_cfg :
    OpcodeRow.selects ⟨mnemonic, 0xFB000000#32, 0x10000000#32⟩ w = true ↔ ∃ p baud, encode (.cfg p baud) = w := by
  rw [selects_iff, and_eq_iff_fields]
  change opOf w &&& .allOnes 4 = 0x1#4 ∧ portOf w &&& 0b10#2 = 0b00#2 ∧ rsvOf w &&& .allOnes 2 = 0b00#2 ∧
    argOf w &&& 0#24 = 0#24 ↔ _
  simp only [BitVec.and_allOnes, BitVec.and_zero, and_two_eq_zero_iff, encode, packCmd_eq_iff, exists_and_left,
    exists_and_right, exists_eq']

theorem selects_push :
    OpcodeRow.selects ⟨mnemonic, 0xFFFFFF00#32, 0x20000000#32⟩ w = true ↔ ∃ b, encode (.push b) = w := by
  rw [selects_iff, and_eq_iff_fields, and_eq_iff_argParts]
  change opOf w &&& .allOnes 4 = 0x2#4 ∧ portOf w &&& .allOnes 2 = portField .a ∧ rsvOf w &&& .allOnes 2 = 0b00#2 ∧
    argHigh (argOf w) &&& .allOnes 16 = 0#16 ∧ argByte (argOf w) &&& 0#8 = 0#8 ↔ _
  simp only [BitVec.and_allOnes, BitVec.and_zero, encode, packCmd_eq_iff, eq_setWidth_iff, exists_and_left, exists_eq']

theorem selects_drain :
    OpcodeRow.selects ⟨mnemonic, 0xFF000000#32, 0x40000000#32⟩ w = true ↔ ∃ n, encode (.drain n) = w :=
  selects_anyArg (op := 0x4#4) (p := .a)

theorem selects_rdblk :
    OpcodeRow.selects ⟨mnemonic, 0xFF000000#32, 0x54000000#32⟩ w = true ↔ ∃ n, encode (.rdblk n) = w :=
  selects_anyArg (op := 0x5#4) (p := .b)

theorem selects_pop : OpcodeRow.selects ⟨mnemonic, 0xFFFFFFFF#32, 0x30000000#32⟩ w = true ↔ encode .pop = w :=
  selects_fixed

theorem selects_depth : OpcodeRow.selects ⟨mnemonic, 0xFFFFFFFF#32, 0x60000000#32⟩ w = true ↔ encode .depth = w :=
  selects_fixed

theorem forall_instr_iff {P : Instr → Prop} :
    (∀ i, P i) ↔ (∀ p baud, P (.cfg p baud)) ∧ (∀ b, P (.push b)) ∧ P .pop ∧ (∀ n, P (.drain n)) ∧
      (∀ n, P (.rdblk n)) ∧ P .depth := by
  constructor
  · intro h
    exact ⟨fun _ _ => h _, fun _ => h _, h _, fun _ => h _, fun _ => h _, h _⟩
  · rintro ⟨hcfg, hpush, hpop, hdrain, hrdblk, hdepth⟩ (⟨p, baud⟩ | b | _ | n | n | _)
    exacts [hcfg p baud, hpush b, hpop, hdrain n, hrdblk n, hdepth]

theorem no_row_selects_iff : (∀ r ∈ opcodeMap, r.selects w = false) ↔ ∀ i, encode i ≠ w := by
  simp only [opcodeMap, forall_instr_iff, List.forall_mem_cons, List.not_mem_nil, false_implies, implies_true, and_true,
    ← Bool.not_eq_true, selects_cfg, selects_push, selects_pop, selects_drain, selects_rdblk, selects_depth, not_exists, ne_eq]

end

/-! ### The list of R75 -/

theorem decodeOp_illegal_iff {op : BitVec 4} {p : Port} {arg : Len} :
    (∃ why, decodeOp op p arg = .illegal why) ↔
      op = 0x0#4 ∨ 0x7#4 ≤ op ∨
      (p = .b ∧ (op = 0x2#4 ∨ op = 0x3#4 ∨ op = 0x4#4 ∨ op = 0x6#4)) ∨
      (p = .a ∧ op = 0x5#4) ∨
      (op = 0x2#4 ∧ argHigh arg ≠ 0#16) ∨
      ((op = 0x3#4 ∨ op = 0x6#4) ∧ arg ≠ 0#24) := by
  rcases opcode_cases op with hop | rfl | rfl | rfl | rfl | rfl | rfl
  · exact iff_of_true ⟨_, decodeOp_reserved hop p arg⟩ (hop.imp_right .inl)
  all_goals cases p <;> simp [decodeOp, onlyPortA, onlyPortB, guarded_illegal_iff]

theorem decode_illegal_iff_listed (w : Word) :
    (∃ why, decode w = .illegal why) ↔
      opOf w = 0x0#4 ∨ 0x7#4 ≤ opOf w ∨ rsvOf w ≠ 0#2 ∨ portOf w = 0b10#2 ∨ portOf w = 0b11#2 ∨
      (portOf w = 1#2 ∧ (opOf w = 0x2#4 ∨ opOf w = 0x3#4 ∨ opOf w = 0x4#4 ∨ opOf w = 0x6#4)) ∨
      (portOf w = 0#2 ∧ opOf w = 0x5#4) ∨
      (opOf w = 0x2#4 ∧ w.extractLsb' 8 16 ≠ 0#16) ∨
      ((opOf w = 0x3#4 ∨ opOf w = 0x6#4) ∧ argOf w ≠ 0#24) := by
  by_cases hr : rsvOf w = 0b00#2
  · rcases portField_cases (portOf w) with hp | ⟨p, hp⟩
    · exact iff_of_true ⟨_, decode_reservedPort hr hp⟩ (.inr (.inr (.inr (hp.imp_right .inl))))
    · rw [decode_eq_decodeOp hr hp, decodeOp_illegal_iff, argHigh_argOf]
      cases p <;> simp [hr, hp, portField]
  · exact iff_of_true ⟨_, decode_reservedBits hr⟩ (.inr (.inr (.inl hr)))

/-- Settles O3: a word is illegal when it is the word of no command, which is what the rows and the list say. -/
theorem illegalWordsAreTheListedOnes : Obligations.IllegalWordsAreTheListedOnes := by
  refine ⟨fun w => ⟨decode_illegal_iff.trans no_row_selects_iff.symm, decode_illegal_iff_listed w⟩,
    ⟨.reservedOpcode, by decide⟩, ⟨.reservedBits, by decide⟩, fun w why s hd => ?_⟩
  simp only [Machine.issue, hd]

end Sys2Proof

/-! PROOFS. What the commands and the handler leave in `RESP` (30_encoding.md R77, R78). -/

namespace Sys2Proof.Machine

open Sys2Proof.Safety

/-- A response word with ST = 1, as R78 writes it. -/
theorem respWord_true_eq_or (val : Len) : respWord true val = 0x80000000#32 ||| val.setWidth 32 := by
  unfold respWord
  rw [← BitVec.setWidth_eq (BitVec.ofBool true ++ 0#7 ++ val), BitVec.setWidth_append_append_eq_shiftLeft_setWidth_or]
  simp

theorem configured_resp (p : Port) (baud : Len) (s : State) : (configured p baud s).resp = s.resp := by
  cases p <;> rfl

section

variable {s t : State}

/-- `RESP` is written by `PUSH`, `POP` and `DEPTH` only. -/
theorem issueEffect_resp_eq_or {i : Instr} (he : IssueEffect s i t) :
    t.resp = s.resp ∨ (∃ b, i = .push b) ∨ i = .pop ∨ i = .depth := by
  cases he with
  | unconfigured | reconfig | badBaud | drainZero | drain | rdblkZero | rdblk => exact .inl rfl
  | cfg p baud => exact .inl (configured_resp p baud s)
  | pushFull b | pushRoom b => exact .inr (.inl ⟨b, rfl⟩)
  | popEmpty | popByte => exact .inr (.inr (.inl rfl))
  | depth => exact .inr (.inr (.inr rfl))

theorem exec_keeps_resp {i : Instr} (hpush : ∀ b, i ≠ .push b) (hpop : i ≠ .pop) (hdepth : i ≠ .depth)
    (h : exec i s = .next t) : t.resp = s.resp := by
  rcases exec_cases h with ⟨_, rfl⟩ | ⟨_, he⟩
  · rfl
  · rcases issueEffect_resp_eq_or he with hresp | ⟨b, hb⟩ | hp | hd
    exacts [hresp, absurd hb (hpush b), absurd hp hpop, absurd hd hdepth]

theorem isrA_keeps_resp (h : isrA s = .next t) : t.resp = s.resp := by
  rcases isrA_eq_next.1 h with ⟨_, rfl⟩ | ⟨_, v, _, ⟨_, rfl⟩ | ⟨_, _, rfl⟩⟩ <;> rfl

/-- An enabled issue step has one of the listed effects. -/
theorem issueEffect_of_exec {i : Instr} (hi : s.mayIssue = true) (h : exec i s = .next t) : IssueEffect s i t := by
  rcases exec_cases h with ⟨hn, _⟩ | ⟨_, he⟩
  · simp [hi] at hn
  · exact he

variable (hi : s.mayIssue = true) (hc : s.portA.cfgd = true)
include hi hc

theorem push_resp {b : Byte} (h : exec (.push b) s = .next t) :
    t.resp = if s.count = s.par.cap then 0x00000000#32 else 0x80000000#32 := by
  cases issueEffect_of_exec hi h with
  | unconfigured _ hu => simp [hc] at hu
  | pushFull _ _ hf =>
    rw [if_pos (full_iff.1 hf)]
    rfl
  | pushRoom _ _ hf =>
    rw [if_neg (full_false.1 hf)]
    rfl

theorem pop_resp (h : exec .pop s = .next t) :
    (s.count = 0 → t.resp = 0x00000000#32) ∧
    ∀ v, s.count ≠ 0 → Mem.read s.store s.head = .byte v → t.resp = 0x80000000#32 ||| (zext24 v).setWidth 32 := by
  cases issueEffect_of_exec hi h with
  | unconfigured _ hu => simp [hc] at hu
  | popEmpty _ he => exact ⟨fun _ => rfl, fun _ hne _ => absurd (empty_iff.1 he) hne⟩
  | popByte u _ he _ hu =>
    refine ⟨fun h0 => absurd h0 (empty_false.1 he), fun v _ hv => ?_⟩
    obtain rfl : u = v := Datum.byte.inj (hu.symm.trans hv)
    exact respWord_true_eq_or (zext24 u)

theorem depth_resp (h : exec .depth s = .next t) :
    t.resp = 0x80000000#32 ||| (BitVec.ofNat 24 s.count).setWidth 32 := by
  cases issueEffect_of_exec hi h with
  | unconfigured _ hu => simp [hc] at hu
  | depth => exact respWord_true_eq_or (countVal s.count)

end

/-- Settles O26: an enabled issue step has one of the effects of `IssueEffect`, and each names the response it writes. -/
theorem responsesOfTheCommands : Obligations.ResponsesOfTheCommands := by
  refine ⟨fun s t hi hc => ⟨fun b => push_resp hi hc, pop_resp hi hc, depth_resp hi hc⟩, ?cfg, ?drain, ?rdblk,
    fun s t => isrA_keeps_resp⟩
  case cfg => exact fun s t p baud => exec_keeps_resp (by simp) (by simp) (by simp)
  case drain => exact fun s t n => exec_keeps_resp (by simp) (by simp) (by simp)
  case rdblk => exact fun s t n => exec_keeps_resp (by simp) (by simp) (by simp)

end Sys2Proof.Machine

/-! PROOFS. The issue step (40_byte_queue.md R90): when it is enabled, and what it comes to for an illegal word, for `CFG`, and
for a command of an unconfigured or a configured port. -/

namespace Sys2Proof.Machine

section

variable {s : State}

theorem shutOut_false_iff : s.shutOut = false ↔ ¬(s.par.handlerPriority = true ∧ s.irqA = true) := by
  rw [← Bool.and_eq_true, Bool.not_eq_true]
  rfl

theorem issue_of_illegal {w : Word} {why : IllegalReason} (hd : decode w = .illegal why) :
    issue w s = .next (raiseFault .illegal s) := by
  simp only [issue, hd]

theorem issue_of_instr {w : Word} {i : Instr} (hd : decode w = .instr i) : issue w s = exec i s := by
  simp only [issue, hd]

/-- The port whose configuration R90 checks: B for `RDBLK`, else A. -/
def checkedPort : Instr → Port
  | .rdblk _ => .b
  | _ => .a

/-- Every command but `CFG` is its own rule behind the configuration check of its port. -/
theorem exec_eq_whenConfigured {i : Instr} (hi : ∀ p baud, i ≠ .cfg p baud) :
    ∃ k, exec i s = whenConfigured (checkedPort i) s k := by
  cases i with
  | cfg p baud => exact absurd rfl (hi p baud)
  | push | pop | drain | rdblk | depth => exact ⟨_, rfl⟩

theorem exec_of_unconfigured {i : Instr} (hm : s.mayIssue = true) (hi : ∀ p baud, i ≠ .cfg p baud)
    (hc : (s.port (checkedPort i)).cfgd = false) : exec i s = .next (raiseFault .unconfigured s) := by
  obtain ⟨k, hk⟩ := exec_eq_whenConfigured (s := s) hi
  simp [hk, whenConfigured, whenMayIssue, hm, hc]

end

/-- Settles O10: the decoded word picks the case, and every command but `CFG` stands behind the check of its port. -/
theorem issueChecksInOrder : Obligations.IssueChecksInOrder := by
  intro s w
  refine ⟨mayIssue_iff.trans (and_congr_right' shutOut_false_iff), fun hm => ⟨fun why => issue_of_illegal,
    fun p baud => issue_of_instr, fun i hd hi => ⟨fun hc => ?_, fun _ => issue_of_instr hd⟩⟩⟩
  exact (issue_of_instr hd).trans (exec_of_unconfigured hm hi hc)

end Sys2Proof.Machine

/-! PROOFS. The queue primitives (40_byte_queue.md R91, R92): what each answers in each of its branches, and its effect on the
abstract content in a state that meets the queue's invariant. -/

namespace Sys2Proof.Safety

open Sys2Proof.Machine

section

variable {s : State} {b v : Byte}

theorem pushByte_of_full (hf : s.count = s.par.cap) : pushByte b s = .next (false, s) :=
  pushByte_eq_next.2 (.inl ⟨full_iff.2 hf, rfl⟩)

theorem pushByte_of_room (hr : s.count ≠ s.par.cap) (hlt : s.tail < s.par.cap) :
    pushByte b s = .next (true,
      { s with store := Mem.write s.store s.tail b, tail := nextIndex s.par.cap s.tail, count := s.count + 1 }) :=
  pushByte_eq_next.2 (.inr ⟨full_false.2 hr, hlt, rfl⟩)

theorem popByte_of_empty (he : s.count = 0) : popByte s = .next (none, s) :=
  popByte_eq_next.2 (.inl ⟨empty_iff.2 he, rfl⟩)

theorem popByte_of_byte (he : s.count ≠ 0) (hlt : s.head < s.par.cap) (hv : Mem.read s.store s.head = .byte v) :
    popByte s = .next (some v, { s with head := nextIndex s.par.cap s.head, count := s.count - 1 }) :=
  popByte_eq_next.2 (.inr ⟨empty_false.2 he, hlt, v, hv, rfl⟩)

/-- A push stores nowhere but at the offset `pushSlot` gives. -/
theorem read_write_of_ne_pushSlot {a : Nat} (hr : s.count ≠ s.par.cap) (ha : pushSlot s ≠ some a) :
    Mem.read (Mem.write s.store s.tail b) a = Mem.read s.store a := by
  rw [pushSlot_of_room (full_false.2 hr)] at ha
  exact Mem.read_write_ne _ _ fun e => ha (congrArg some e.symm)

/-- push refines the bounded append (40_byte_queue.md R91, R103). -/
theorem pushByte_refines_boundedPush (h : QueueInv s) (b : Byte) :
    ∃ r, pushByte b s = .next r ∧ contents r.2 = boundedPush s.par.cap (contents s) b ∧
      r.1 = decide ((contents s).length < s.par.cap) := by
  by_cases hf : s.count = s.par.cap
  · exact ⟨_, pushByte_of_full hf, by simp [boundedPush, length_contents, hf]⟩
  · have hlt : s.count < s.par.cap := Nat.lt_of_le_of_ne h.count_le hf
    refine ⟨_, pushByte_of_room hf h.tail_lt, (contents_write_tail h b hf _).trans ?_, ?_⟩
    · simp [boundedPush, length_contents, hlt]
    · simp [length_contents, hlt]

/-- pop refines the removal of the first byte (40_byte_queue.md R92, R103). -/
theorem popByte_refines_tail (h : QueueInv s) :
    ∃ r, popByte s = .next r ∧ contents r.2 = (contents s).tail ∧ r.1.map Datum.byte = (contents s).head? := by
  by_cases he : s.count = 0
  · have hnil : contents s = [] := List.length_eq_zero_iff.1 ((length_contents s).trans he)
    exact ⟨_, popByte_of_empty he, by simp [hnil]⟩
  · obtain ⟨v, hv⟩ := head_written h he
    exact ⟨_, popByte_of_byte he h.head_lt hv, by simp [contents_eq_cons h he, hv]⟩

end

/-- Settles O17: the two branches of push, and the byte behind the content where there is room. -/
theorem pushPrimitive : Obligations.PushPrimitive := by
  refine fun _ b => ⟨pushByte_of_full, fun hr hlt => ?_, fun h => pushByte_refines_boundedPush h b⟩
  exact ⟨pushByte_of_room hr hlt, Mem.read_write_same .., fun _ => read_write_of_ne_pushSlot hr⟩

/-- Settles O18: the two branches of pop, and the content split at its first byte where there is one. -/
theorem popPrimitive : Obligations.PopPrimitive := fun _ =>
  ⟨popByte_of_empty, fun _ => popByte_of_byte, popByte_refines_tail⟩

end Sys2Proof.Safety

/-! PROOFS. The slot steps of a drain (40_byte_queue.md R97, R98). -/

namespace Sys2Proof.Machine

open Sys2Proof.Safety

theorem isrA_count_le {s t : State} (h : isrA s = .next t) : s.count ≤ t.count := by
  rcases isrA_eq_next.1 h with ⟨_, rfl⟩ | ⟨_, v, _, ⟨_, rfl⟩ | ⟨_, _, rfl⟩⟩
  · exact Nat.le_refl _
  · exact Nat.le_refl _
  · exact Nat.le_succ _

theorem fillSlot_ph (v : Byte) (s : State) : (fillSlot v s).seq.ph = s.seq.ph := by
  rw [fillSlot_seq]
  split <;> rfl

section

variable {s t : State} (ho : s.seq.op = .drain)
include ho

theorem drain_enabled_iff_shutOut : Turn.enabled s .consumer = true ↔ s.shutOut = false := by
  simp [Turn.enabled, ho]

/-- A drain's slot step never waits (40_byte_queue.md R97): only the handler's priority holds it. -/
theorem drain_enabled_iff :
    Turn.enabled s .consumer = true ↔ ¬(s.par.handlerPriority = true ∧ s.irqA = true) :=
  (drain_enabled_iff_shutOut ho).trans shutOut_false_iff

theorem consumerTurn_of_drain (he : Turn.enabled s .consumer = true) : consumerTurn s = drainSlot s := by
  simp [consumerTurn, consumerAct, (drain_enabled_iff_shutOut ho).1 he, ho]

theorem consumerTurn_of_drain_pop (hph : s.seq.ph = .pop) (he : Turn.enabled s .consumer = true) :
    consumerTurn s = drainPopSlot s := by
  rw [consumerTurn_of_drain ho he]
  simp only [drainSlot, hph]

theorem consumerTurn_of_drain_fill (hph : s.seq.ph = .fill) (he : Turn.enabled s .consumer = true) :
    consumerTurn s = .next (fillSlot 0x00#8 s) := by
  rw [consumerTurn_of_drain ho he]
  simp only [drainSlot, hph, drainFillSlot]

/-- In a drain in phase FILL no turn takes a byte out of the queue (40_byte_queue.md R98). -/
theorem turnEffect_drain_fill {tn : Turn} (hph : s.seq.ph = .fill) (he : TurnEffect s tn t) :
    t.seq.ph = .fill ∧ t.head = s.head ∧ s.count ≤ t.count := by
  cases he with
  | held => exact ⟨hph, rfl, Nat.le_refl _⟩
  | wire p b => simp [hph]
  | isrFull => simp [hph]
  | isrPush => simp [hph]
  | drainFill => simp [fillSlot_ph, hph]
  | illegal w ws why hm | issue w ws i u hm => simp [mayIssue_iff, ho] at hm
  | drainEmpty _ _ hpop | drainByte _ _ _ hpop => simp [hph] at hpop
  | blkByte _ _ hblk => simp [ho] at hblk

end

/-- Settles O27: both outcomes of the pop, each followed by the filling of the slot. -/
theorem drainPopSlotStep : Obligations.DrainPopSlotStep := by
  refine fun _ ho hph => ⟨drain_enabled_iff ho, fun hen => ⟨fun he => ?_, fun v he hlt hv => ?_⟩⟩
  · rw [consumerTurn_of_drain_pop ho hph hen, drainPopSlot_eq_next.2 (.inl ⟨empty_iff.2 he, rfl⟩), fillSlot_eq]
    rfl
  · rw [consumerTurn_of_drain_pop ho hph hen, drainPopSlot_eq_next.2 (.inr ⟨empty_false.2 he, hlt, v, hv, rfl⟩),
      fillSlot_eq]
    rfl

/-- Settles O28: the slot step fills without looking at the queue, and no other turn from there pops. -/
theorem drainFillSlotStep : Obligations.DrainFillSlotStep := by
  refine ⟨fun s ho hph => ⟨drain_enabled_iff ho, fun hen => ?_⟩, fun s t ho hph h => ?_⟩
  · rw [consumerTurn_of_drain_fill ho hph hen, fillSlot_eq]
  · exact turnEffect_drain_fill (s := dropTurn s) ho hph (step_cases h)

end Sys2Proof.Machine

/-! PROOFS. The commands of the Byte Queue (40_byte_queue.md R93 to R96): the word of each, the fault of an unconfigured port,
and what an enabled issue step does on a configured one. -/

namespace Sys2Proof.Machine

open Sys2Proof.Safety

section

variable {s : State} (hm : s.mayIssue = true)
include hm

/-- The commands of Port A fault on an unconfigured port (40_byte_queue.md R90). -/
theorem exec_of_unconfigured_a {i : Instr} (hi : checkedPort i = .a) (hcfg : ∀ p baud, i ≠ .cfg p baud)
    (hc : s.portA.cfgd = false) : exec i s = .next (raiseFault .unconfigured s) :=
  exec_of_unconfigured hm hcfg (by rw [hi]; exact hc)

variable (hc : s.portA.cfgd = true)
include hc

theorem exec_push_of_configured (b : Byte) :
    exec (.push b) s = andThen (pushByte b s) fun r => .next (r.2.setResp (respWord r.1 0#24)) :=
  whenConfigured_run hm hc

theorem exec_pop_of_configured : exec .pop s = andThen (popByte s) fun r => .next (r.2.setResp (popResp r.1)) :=
  whenConfigured_run hm hc

theorem exec_depth_of_configured : exec .depth s = .next (s.setResp (respWord true (countVal s.count))) :=
  whenConfigured_run hm hc

theorem exec_drain_of_configured (n : Len) :
    exec (.drain n) s =
      .next (if n = 0#24 then s else s.setSeq { s.seq with op := .drain, ph := .pop, i := 0#24, n := n }) :=
  whenConfigured_run hm hc

end

theorem respWord_false_zero : respWord false 0#24 = 0x00000000#32 := rfl

theorem respWord_true_zero : respWord true 0#24 = 0x80000000#32 := rfl

theorem popResp_some (v : Byte) : popResp (some v) = 0x80000000#32 ||| v.setWidth 32 := by
  simp [popResp, respWord_true_eq_or, zext24]

/-- ST tells a popped zero byte from an empty queue (40_byte_queue.md R94). -/
theorem popResp_some_ne_zero (v : Byte) : popResp (some v) ≠ 0x00000000#32 := by
  rw [popResp_some]
  intro h
  simpa using congrArg (·.getLsbD 31) h

/-- The count fits the VAL field (30_encoding.md R78). -/
theorem respWord_countVal {n : Nat} (h : n < 2 ^ 24) :
    respWord true (countVal n) = 0x80000000#32 ||| BitVec.ofNat 32 n := by
  rw [respWord_true_eq_or, countVal, BitVec.setWidth_ofNat_of_le_of_lt (by decide) h]

/-- Settles O19: the two branches of push, with the returned bit as ST. -/
theorem pushCommand : Obligations.PushCommand := by
  refine ⟨fun b => decode_eq_instr_iff.2 (encode_push_eq_or b), fun s b hm =>
    ⟨exec_of_unconfigured_a hm rfl (by simp), fun hc =>
      ⟨fun hf => ?full, fun hr hlt => ⟨_, ?room, rfl, ?flags⟩⟩⟩⟩
  case full =>
    rw [exec_push_of_configured hm hc, pushByte_of_full hf, andThen_next, respWord_false_zero]
    rfl
  case room =>
    rw [exec_push_of_configured hm hc, pushByte_of_room hr hlt, andThen_next, respWord_true_zero]
    rfl
  case flags => exact ⟨empty_false.2 (Nat.succ_ne_zero _), fun h => full_iff.2 h⟩

/-- Settles O20: the two branches of pop, with ST set exactly where a byte was taken. -/
theorem popCommand : Obligations.PopCommand := by
  refine ⟨decode_encode .pop, fun s hm =>
    ⟨exec_of_unconfigured_a hm rfl (by simp), fun hc =>
      ⟨fun he => ?empty, fun v he hlt hv => ⟨_, ?byte, rfl, ?flags⟩⟩⟩,
    fun v => popResp_some v ▸ popResp_some_ne_zero v⟩
  case empty =>
    rw [exec_pop_of_configured hm hc, popByte_of_empty he]
    rfl
  case byte =>
    rw [exec_pop_of_configured hm hc, popByte_of_byte he hlt hv, ← popResp_some]
    rfl
  case flags =>
    refine ⟨fun hle => full_false.2 ?_, fun h1 => empty_iff.2 ?_⟩
    · show s.count - 1 ≠ s.par.cap
      omega
    · show s.count - 1 = 0
      omega

/-- Settles O21: the response is the count, which fits its field, and a run of the handler only pushes. -/
theorem depthCommand : Obligations.DepthCommand := by
  refine ⟨decode_encode .depth, fun s hm => ⟨exec_of_unconfigured_a hm rfl (by simp), fun hc hle hw => ?_⟩,
    fun s t => isrA_count_le⟩
  have hlt : s.count < 2 ^ 24 := by
    obtain ⟨_, hcap⟩ := hw
    omega
  rw [exec_depth_of_configured hm hc, respWord_countVal hlt]
  rfl

/-- Settles O22: the issue step either leaves the state or loads `SEQ`. -/
theorem drainIssueStep : Obligations.DrainIssueStep := by
  refine ⟨fun n => decode_eq_instr_iff.2 (encode_drain_eq_or n), fun s n hm =>
    ⟨exec_of_unconfigured_a hm rfl (by simp), fun hc => ⟨fun hn => ?_, fun hn => ?_⟩⟩⟩
  · rw [exec_drain_of_configured hm hc, if_pos hn]
  · rw [exec_drain_of_configured hm hc, if_neg hn]
    rfl

end Sys2Proof.Machine

/-! PROOFS. The receive pipeline: what a byte arriving at a port does to its registers, by the port's configuration, its ready
bit and the overrun policy (41_receive_pipeline.md R111), and the run of the handler (R112, R113). -/

namespace Sys2Proof.Machine

open Sys2Proof.Safety

section

variable {policy : OverrunPolicy} {b : Byte} {r : PortRegs}

theorem receive_of_unconfigured (hc : r.cfgd = false) : receive policy b r = r := by simp [receive, hc]

theorem receive_of_free (hc : r.cfgd = true) (hf : r.rxne = false) :
    receive policy b r = { r with rdr := .byte b, rxne := true } := by simp [receive, hc, hf]

theorem receive_keepOld_of_ready (hr : r.rxne = true) : receive .keepOld b r = r := by simp [receive, hr]

theorem receive_takeNew_of_ready (hc : r.cfgd = true) (hr : r.rxne = true) :
    receive .takeNew b r = { r with rdr := .byte b } := by simp [receive, hc, hr]

end

@[simp] theorem State.setPort_port_self (s : State) (p : Port) : s.setPort p (s.port p) = s := by cases p <;> rfl

section

variable {s : State} {p : Port} {b v : Byte}

theorem wire_of_receive {r : PortRegs} (h : receive s.par.overrun b (s.port p) = r) : wire p b s = s.setPort p r := by
  rw [wire, h]

/-- A byte that its port's registers do not take changes nothing. -/
theorem wire_eq_self (h : receive s.par.overrun b (s.port p) = s.port p) : wire p b s = s :=
  (wire_of_receive h).trans (s.setPort_port_self p)

theorem irqA_iff :
    s.irqA = true ↔ s.portA.cfgd = true ∧ s.rxneieA = true ∧ s.hregA = true ∧ s.portA.rxne = true := by
  simp [State.irqA, and_assoc]

theorem isrA_of_full (hq : s.irqA = true) (hv : s.portA.rdr = .byte v) (hf : s.count = s.par.cap) :
    isrA s = .next (s.setPort .a { s.portA with rxne := false }) :=
  isrA_eq_next.2 (.inr ⟨hq, v, hv, .inl ⟨full_iff.2 hf, rfl⟩⟩)

theorem isrA_of_room (hq : s.irqA = true) (hv : s.portA.rdr = .byte v) (hr : s.count ≠ s.par.cap)
    (hlt : s.tail < s.par.cap) :
    isrA s = .next
      { s.setPort .a { s.portA with rxne := false } with
        store := Mem.write s.store s.tail v
        tail := nextIndex s.par.cap s.tail
        count := s.count + 1 } :=
  isrA_eq_next.2 (.inr ⟨hq, v, hv, .inr ⟨full_false.2 hr, hlt, rfl⟩⟩)

end

/-- Settles O36: the handler is enabled exactly when it is requested, and its run has the two branches of the push. -/
theorem handlerRun : Obligations.HandlerRun := fun _ =>
  ⟨irqA_iff, fun _ hq hv => ⟨isrA_of_full hq hv, isrA_of_room hq hv⟩⟩

/-- Settles O40: the port's configuration, its ready bit and the overrun policy pick what the registers become. -/
theorem byteArrives : Obligations.ByteArrives := by
  refine fun s p b => ⟨rfl, rfl, fun hc => ?unconfigured, fun hc hf => ?free,
    fun hc hr => ⟨fun hpol => ?keepOld, fun hpol => ?takeNew⟩⟩
  case unconfigured => exact wire_eq_self (receive_of_unconfigured hc)
  case free => exact wire_of_receive (receive_of_free hc hf)
  case keepOld => exact wire_eq_self (hpol ▸ receive_keepOld_of_ready hr)
  case takeNew => exact wire_of_receive (hpol ▸ receive_takeNew_of_ready hc hr)

end Sys2Proof.Machine

/-! PROOFS. The blocking read of Port B (42_receive_wait.md R125 to R127, R130): its issue step, its slot step, and the hold
while no byte is ready. -/

namespace Sys2Proof.Machine

section

variable {s : State}

theorem exec_rdblk_of_configured (hm : s.mayIssue = true) (hc : s.portB.cfgd = true) (n : Len) :
    exec (.rdblk n) s = .next (if n = 0#24 then s else s.setSeq { s.seq with op := .blk, i := 0#24, n := n }) :=
  whenConfigured_run hm hc

theorem blkSlot_of_notReady (hr : s.portB.rxne = false) : blkSlot s = .next s :=
  blkSlot_eq_next.2 (.inl ⟨hr, rfl⟩)

theorem blkSlot_of_byte {v : Byte} (hr : s.portB.rxne = true) (hv : s.portB.rdr = .byte v) :
    blkSlot s = .next (fillSlot v (s.setPort .b { s.portB with rxne := false })) :=
  blkSlot_eq_next.2 (.inr ⟨hr, v, hv, rfl⟩)

/-- A byte that arrives at a configured port leaves its ready bit set, under either overrun policy (41_receive_pipeline.md
R111). -/
theorem receive_rxne_of_configured {policy : OverrunPolicy} {b : Byte} {r : PortRegs} (hc : r.cfgd = true) :
    (receive policy b r).rxne = true := by
  cases hr : r.rxne with
  | false => rw [receive_of_free hc hr]
  | true =>
    cases policy with
    | keepOld => rwa [receive_keepOld_of_ready hr]
    | takeNew => rwa [receive_takeNew_of_ready hc hr]

@[simp] theorem wire_b_shutOut (b : Byte) (s : State) : (wire .b b s).shutOut = s.shutOut := setPort_b_shutOut ..

section

variable (ho : s.seq.op = .blk)
include ho

theorem blk_enabled_iff_shutOut :
    Turn.enabled s .consumer = true ↔ s.portB.rxne = true ∧ s.shutOut = false := by
  simp [Turn.enabled, ho, and_comm]

/-- A slot step of a blocking read waits for a byte (42_receive_wait.md R127), and the handler's priority holds it. -/
theorem blk_enabled_iff :
    Turn.enabled s .consumer = true ↔ s.portB.rxne = true ∧ ¬(s.par.handlerPriority = true ∧ s.irqA = true) :=
  (blk_enabled_iff_shutOut ho).trans (and_congr_right' shutOut_false_iff)

theorem consumerTurn_of_blk : consumerTurn s = if s.shutOut then .next s else blkSlot s := by
  simp only [consumerTurn, consumerAct, ho]

theorem consumerTurn_of_blk_byte {v : Byte} (he : Turn.enabled s .consumer = true) (hv : s.portB.rdr = .byte v) :
    consumerTurn s = .next (fillSlot v (s.setPort .b { s.portB with rxne := false })) := by
  obtain ⟨hr, hs⟩ := (blk_enabled_iff_shutOut ho).1 he
  rw [consumerTurn_of_blk ho, hs]
  exact blkSlot_of_byte hr hv

theorem blk_enabled_after_wire (hc : s.portB.cfgd = true) (hs : s.shutOut = false) (b : Byte) :
    Turn.enabled (wire .b b s) .consumer = true :=
  (blk_enabled_iff_shutOut (by rwa [wire_seq])).2 ⟨receive_rxne_of_configured hc, by rwa [wire_b_shutOut]⟩

variable (hr : s.portB.rxne = false)
include hr

/-- The poll of a held blocking read is no step, whether or not the consumer is shut out as well (42_receive_wait.md R126). -/
theorem consumerTurn_of_blk_notReady : consumerTurn s = .next s := by
  rw [consumerTurn_of_blk ho, blkSlot_of_notReady hr, ite_self]

/-- No turn but one of Port B's wire touches a held blocking read: the handler and Port A's wire stay on Port A's side, and the
consumer has no step. -/
theorem turnEffect_blk_notReady {tn : Turn} {t : State} (he : TurnEffect s tn t) (hw : ∀ b, tn ≠ .wire .b b) :
    t.seq = s.seq ∧ t.portB.rxne = false := by
  cases he with
  | held => exact ⟨rfl, hr⟩
  | wire p b =>
    cases p with
    | a => exact ⟨wire_seq .., hr⟩
    | b => exact absurd rfl (hw b)
  | isrFull | isrPush => exact ⟨rfl, hr⟩
  | illegal w ws why hm | issue w ws i u hm => simp [mayIssue_iff, ho] at hm
  | drainEmpty _ hd | drainByte _ _ hd | drainFill _ hd => simp [ho] at hd
  | blkByte _ _ _ hready => simp [hr] at hready

end

end

/-- Settles O30: without a byte the consumer has no step, and the other turns leave `SEQ` and Port B alone until a byte
arrives there. -/
theorem rdblkHeldUntilAByteArrives : Obligations.RdblkHeldUntilAByteArrives := by
  refine fun s ho hr => ⟨?held, consumerTurn_of_blk_notReady ho hr,
    fun _ _ h hw => turnEffect_blk_notReady ho hr (takeTurn_cases h) hw, blk_enabled_after_wire ho⟩
  case held => exact Bool.eq_false_iff.2 fun he => absurd ((blk_enabled_iff_shutOut ho).1 he).1 (Bool.eq_false_iff.1 hr)

/-- Settles O23: the issue step looks at the configuration of Port B and at n, and at nothing else of the port. -/
theorem rdblkIssueStep : Obligations.RdblkIssueStep := by
  refine ⟨fun n => decode_eq_instr_iff.2 (encode_rdblk_eq_or n), fun s n hm =>
    ⟨exec_of_unconfigured (i := .rdblk n) hm (by simp), fun hc => ⟨fun hn => ?_, fun hn => ?_⟩⟩⟩
  · rw [exec_rdblk_of_configured hm hc, if_pos hn]
  · rw [exec_rdblk_of_configured hm hc, if_neg hn]
    rfl

/-- Settles O29: an enabled slot step reads the ready byte, clears the ready bit and fills the slot. -/
theorem rdblkSlotStep : Obligations.RdblkSlotStep := by
  refine fun _ ho => ⟨blk_enabled_iff ho, fun v he hv => ?_⟩
  rw [consumerTurn_of_blk_byte ho he hv, fillSlot_eq]
  rfl

end Sys2Proof.Machine

/-! PROOFS. Configuration (43_configuration.md R135 to R142): the three outcomes of an enabled `CFG`, the independence of the two
ports, what `CFG B` leaves alone, and the commands and bytes of an unconfigured port. -/

namespace Sys2Proof.Machine

theorem baudSupported_zero : Config.baudSupported 0#24 = false := if_pos rfl

theorem baudSupported_115200 : Config.baudSupported 115200#24 = true := (if_neg (by decide)).trans (if_pos rfl)

/-! ### The outcomes of `CFG` -/

section

variable {s : State} {p : Port} {baud : Len} (hm : s.mayIssue = true)
include hm

/-- An enabled `CFG`: the configuration check first, then the rate (60_exceptions.md R159). -/
theorem exec_cfg_of_mayIssue :
    exec (.cfg p baud) s =
      .next (if (s.port p).cfgd then raiseFault .reconfig s
        else if Config.baudSupported baud then configured p baud s
        else raiseFault .badBaud s) :=
  if_pos hm

theorem exec_cfg_of_configured (hc : (s.port p).cfgd = true) :
    exec (.cfg p baud) s = .next (raiseFault .reconfig s) := by
  rw [exec_cfg_of_mayIssue hm, if_pos hc]

theorem exec_cfg_of_unsupported (hc : (s.port p).cfgd = false) (hb : Config.baudSupported baud = false) :
    exec (.cfg p baud) s = .next (raiseFault .badBaud s) := by
  simp [exec_cfg_of_mayIssue hm, hc, hb]

theorem exec_cfg_of_supported (hc : (s.port p).cfgd = false) (hb : Config.baudSupported baud = true) :
    exec (.cfg p baud) s = .next (configured p baud s) := by
  simp [exec_cfg_of_mayIssue hm, hc, hb]

end

/-- Settles O12: the word is the encoded command, and the checks of `CFG` pick one of its three outcomes. -/
theorem cfgFollowsItsRule : Obligations.CfgFollowsItsRule :=
  ⟨fun p baud => decode_eq_instr_iff.2 (encode_cfg_eq_or p baud), fun _ _ hm =>
    ⟨exec_cfg_of_configured (p := .a) hm, exec_cfg_of_unsupported (p := .a) hm, exec_cfg_of_supported (p := .a) hm,
      exec_cfg_of_configured (p := .b) hm, exec_cfg_of_unsupported (p := .b) hm, exec_cfg_of_supported (p := .b) hm⟩⟩

/-- Settles O15: the rate check stands behind the configuration check and reads nothing but the rate. -/
theorem unsupportedBaudFaults : Obligations.UnsupportedBaudFaults :=
  ⟨fun _ _ _ => exec_cfg_of_unsupported, baudSupported_zero, baudSupported_115200⟩

/-! ### The two ports are independent (43_configuration.md R139) -/

@[simp] theorem configured_seq (p : Port) (baud : Len) (s : State) : (configured p baud s).seq = s.seq := by
  cases p <;> rfl

/-- A fresh port holds no byte, so `CFG` requests no interrupt that could shut the next command out. -/
theorem configured_mayIssue {s : State} (hm : s.mayIssue = true) (p : Port) (baud : Len) :
    (configured p baud s).mayIssue = true := by
  cases p with
  | a =>
    have hirq : (configured .a baud s).irqA = false := setPort_a_irqA (createQueue s) _ rfl
    exact mayIssue_iff.2 ⟨(mayIssue_iff.1 hm).1, by simp [State.shutOut, hirq]⟩
  | b => exact hm

theorem configured_comm (x y : Len) (s : State) :
    configured .a x (configured .b y s) = configured .b y (configured .a x s) := rfl

/-- Settles O14: each `CFG` leaves the issue step enabled and the other port unconfigured, and the two commute. -/
theorem configurationRunsOnce : Obligations.ConfigurationRunsOnce := by
  refine ⟨fun _ _ _ => exec_cfg_of_configured, fun s x y hm ha hb hx hy => ?_⟩
  have hidle : s.seq.op = .idle := (mayIssue_iff.1 hm).1
  refine ⟨configured .a x s, configured .b y s, configured .b y (configured .a x s), exec_cfg_of_supported hm ha hx,
    exec_cfg_of_supported hm hb hy, ?aThenB, ?bThenA, hidle, hidle, hidle, rfl, hb, ha, rfl, rfl, rfl⟩
  case aThenB => exact exec_cfg_of_supported (configured_mayIssue hm .a x) hb hy
  case bThenA =>
    rw [← configured_comm]
    exact exec_cfg_of_supported (configured_mayIssue hm .b y) ha hx

/-! ### Port B after its `CFG` (43_configuration.md R138) -/

/-- The first byte that arrives after `CFG B` finds the receive register free. -/
theorem wire_b_configured (b : Byte) (baud : Len) (s : State) :
    wire .b b (configured .b baud s) =
      (configured .b baud s).setPort .b { (configured .b baud s).portB with rdr := .byte b, rxne := true } :=
  wire_of_receive (receive_of_free rfl rfl)

section

variable {s t : State} (hc : s.portB.cfgd = true)
include hc

/-- Only `CFG B` writes Port B's registers in an issue step, and it does not run twice. -/
theorem issueEffect_keeps_portB {i : Instr} (he : IssueEffect s i t) : t.portB = s.portB := by
  cases he with
  | cfg p baud hu =>
    cases p with
    | a => rfl
    | b => simp [hc] at hu
  | unconfigured | reconfig | badBaud | pushFull | pushRoom | popEmpty | popByte | depth | drainZero | drain | rdblkZero
  | rdblk => rfl

/-- A byte waits in `RDR[B]` until a slot step of `RDBLK` reads it. -/
theorem turnEffect_keeps_portB_or_blk {tn : Turn} (he : TurnEffect s tn t) (hw : ∀ b, tn ≠ .wire .b b) :
    t.portB = s.portB ∨ (tn = .consumer ∧ s.seq.op = .blk) := by
  cases he with
  | wire p b =>
    cases p with
    | a => exact .inl rfl
    | b => exact absurd rfl (hw b)
  | issue w ws i u hi hp hd hu => exact .inl (issueEffect_keeps_portB (s := { s with program := ws }) hc hu)
  | drainEmpty | drainByte | drainFill => exact .inl (fillSlot_portB ..)
  | blkByte v hs ho => exact .inr ⟨rfl, ho⟩
  | held | isrFull | isrPush | illegal => exact .inl rfl

end

/-- Settles O16: `CFG B` writes Port B's registers and nothing else, and no turn but Port B's wire and a slot step of `RDBLK`
touches them afterwards. -/
theorem cfgBOnlyTurnsTheReceiverOn : Obligations.CfgBOnlyTurnsTheReceiverOn := by
  refine ⟨fun s baud hm hc hb => ?_, fun _ _ _ hc h => turnEffect_keeps_portB_or_blk hc (takeTurn_cases h)⟩
  exact ⟨configured .b baud s, exec_cfg_of_supported hm hc hb, rfl, rfl, rfl, rfl, rfl, rfl, rfl, rfl,
    fun b => wire_b_configured b baud s⟩

/-! ### Unconfigured ports (43_configuration.md R142) -/

/-- Settles O44: every command but `CFG` stands behind the check of its port, and an unconfigured port takes no byte. -/
theorem unconfiguredPortFaultsAndIgnoresBytes : Obligations.UnconfiguredPortFaultsAndIgnoresBytes := by
  refine ⟨fun s hm hc => ?portA, fun _ hm hc n => ?portB, fun _ _ _ hc => wire_eq_self (receive_of_unconfigured hc)⟩
  case portA =>
    have faults {i : Instr} (hi : checkedPort i = .a) (hcfg : ∀ p baud, i ≠ .cfg p baud) :
        exec i s = .next (raiseFault .unconfigured s) := exec_of_unconfigured_a hm hi hcfg hc
    exact ⟨fun _ => faults rfl nofun, faults rfl nofun, fun _ => faults rfl nofun, faults rfl nofun⟩
  case portB => exact exec_of_unconfigured (i := .rdblk n) hm nofun hc

end Sys2Proof.Machine

/-! PROOFS. The interrupt of Port A (60_exceptions.md R154, R157, R158, R163): the request as a level, what the handler's priority
shuts out, what Port B leaves to it, and what withdraws and raises the request. -/

namespace Sys2Proof.Machine

open Sys2Proof.Safety

section

variable {s : State}

/-- Under the invariant the two enables follow the configuration (10_state.md R33). -/
theorem irqA_of_controlInv (h : ControlInv s) : s.irqA = (s.portA.cfgd && s.portA.rxne) := by
  simp [State.irqA, h.rxneie_eq, h.hreg_eq]

theorem consumer_not_enabled_of_shutOut (hs : s.shutOut = true) : Turn.enabled s .consumer = false := by
  simp [Turn.enabled, hs]

theorem mayIssue_of_shutOut (hs : s.shutOut = true) : s.mayIssue = false := by
  simp [State.mayIssue, hs]

theorem consumerTurn_of_not_shutOut (hs : s.shutOut = false) : consumerTurn s = consumerAct s := by
  simp [consumerTurn, hs]

theorem mayIssue_iff_of_not_shutOut (hs : s.shutOut = false) : s.mayIssue = true ↔ s.seq.op = .idle := by
  simp [mayIssue_iff, hs]

/-- Outside an `RDBLK` the consumer's step does not look at Port B. -/
theorem setPort_b_consumer_enabled (ho : s.seq.op ≠ .blk) (r : PortRegs) :
    Turn.enabled (s.setPort .b r) .consumer = Turn.enabled s .consumer := by
  cases hop : s.seq.op with
  | idle | drain | fault => simp [Turn.enabled, hop]
  | blk => exact absurd hop ho

/-- The slot step of an `RDBLK` waits for the ready bit (42_receive_wait.md R126, R127). -/
theorem blk_consumer_enabled (ho : s.seq.op = .blk) : Turn.enabled s .consumer = (s.portB.rxne && !s.shutOut) := by
  simp [Turn.enabled, ho, Bool.and_comm]

end

/-- Settles O35: the request is the conjunction of its four bits, and under the invariant two of them repeat `CFGD[A]`. -/
theorem interruptRequest : Obligations.InterruptRequest := fun _ =>
  ⟨irqA_iff, fun h => irqA_of_controlInv h.control, rfl⟩

/-- Settles O39: with priority the request shuts the consumer out; without it nothing is shut out. -/
theorem handlerPriority : Obligations.HandlerPriority := by
  refine fun s => ⟨fun hp hq => ?priority, fun _ _ => rfl, fun hp => ?noPriority⟩
  case priority =>
    have hs : s.shutOut = true := Bool.and_eq_true_iff.2 ⟨hp, hq⟩
    exact ⟨consumer_not_enabled_of_shutOut hs, mayIssue_of_shutOut hs⟩
  case noPriority =>
    have hs : s.shutOut = false := shutOut_false_iff.2 (by simp [hp])
    exact ⟨consumerTurn_of_not_shutOut hs, mayIssue_iff_of_not_shutOut hs⟩

/-- Settles O41: the request reads nothing of Port B, and of the consumer's steps only the slot step of `RDBLK` reads its ready
bit. -/
theorem portBRaisesNoInterrupt : Obligations.PortBRaisesNoInterrupt := fun s r f =>
  ⟨rfl, rfl, fun ho => setPort_b_consumer_enabled ho _,
    blk_consumer_enabled (s := s.setPort .b { s.portB with rdr := r, rxne := f })⟩

/-! ### The handler's return (60_exceptions.md R163) -/

/-- A fresh port holds no byte, so `CFG A` requests no interrupt (43_configuration.md R137). -/
theorem configured_a_irqA (baud : Len) (s : State) : (configured .a baud s).irqA = false :=
  setPort_a_irqA (createQueue s) _ rfl

section

variable {s t : State}

/-- A run of the handler clears the ready bit and leaves the enables alone. -/
theorem isrA_registers (hq : s.irqA = true) (h : isrA s = .next t) :
    t.portA = { s.portA with rxne := false } ∧ t.rxneieA = s.rxneieA ∧ t.hregA = s.hregA := by
  rcases isrA_eq_next.1 h with ⟨hn, _⟩ | ⟨_, v, _, ⟨_, rfl⟩ | ⟨_, _, rfl⟩⟩
  · simp [hq] at hn
  · exact ⟨rfl, rfl, rfl⟩
  · exact ⟨rfl, rfl, rfl⟩

theorem irqA_of_not_ready (h : s.portA.rxne = false) : s.irqA = false := by
  simp [State.irqA, h]

variable (hq : s.irqA = false)
include hq

/-- No issue step raises the request: `CFG A` sets the enables but empties the register. -/
theorem issueEffect_keeps_no_request {i : Instr} (he : IssueEffect s i t) : t.irqA = false := by
  cases he with
  | cfg p baud =>
    cases p with
    | a => exact configured_a_irqA baud s
    | b => exact hq
  | unconfigured | reconfig | badBaud | pushFull | pushRoom | popEmpty | popByte | depth | drainZero | drain | rdblkZero
  | rdblk => exact hq

/-- Only a byte arriving at Port A raises the request. -/
theorem turnEffect_keeps_no_request {tn : Turn} (he : TurnEffect s tn t) (hw : ∀ b, tn ≠ .wire .a b) :
    t.irqA = false := by
  cases he with
  | wire p b =>
    cases p with
    | a => exact absurd rfl (hw b)
    | b => exact hq
  | isrFull | isrPush => exact irqA_of_not_ready rfl
  | issue w ws i u hi hp hd hu => exact issueEffect_keeps_no_request (s := { s with program := ws }) hq hu
  | drainEmpty | drainByte | drainFill | blkByte => exact (fillSlot_irqA ..).trans hq
  | held | illegal => exact hq

end

/-- Settles O37: the handler's run clears the ready bit, and among the turns only `WIRE(A, b)` sets it. -/
theorem handlerReturn : Obligations.HandlerReturn := by
  refine ⟨fun s t hq h => ?_, fun _ _ _ hq h => turnEffect_keeps_no_request hq (takeTurn_cases h)⟩
  obtain ⟨hport, hie, hreg⟩ := isrA_registers hq h
  have hready : t.portA.rxne = false := by rw [hport]
  exact ⟨hready, irqA_of_not_ready hready, hie, hreg, by rw [hport]⟩

end Sys2Proof.Machine

/-! PROOFS. The faulted sequencer (60_exceptions.md R160): the wires and the handler go on as without the fault, and the consumer
is stopped for good. -/

namespace Sys2Proof.Machine

open Sys2Proof.Safety

/-! ### The wires and the handler do not look at `SEQ` -/

theorem wire_raiseFault (code : FaultCode) (p : Port) (b : Byte) (s : State) :
    wire p b (raiseFault code s) = raiseFault code (wire p b s) := by
  cases p <;> rfl

theorem isrA_raiseFault {s t : State} (code : FaultCode) (h : isrA s = .next t) :
    isrA (raiseFault code s) = .next (raiseFault code t) := by
  refine isrA_eq_next.2 ?_
  rcases isrA_eq_next.1 h with ⟨hq, rfl⟩ | ⟨hq, v, hv, ⟨hf, rfl⟩ | ⟨hf, hlt, rfl⟩⟩
  · exact .inl ⟨hq, rfl⟩
  · exact .inr ⟨hq, v, hv, .inl ⟨hf, rfl⟩⟩
  · exact .inr ⟨hq, v, hv, .inr ⟨hf, hlt, rfl⟩⟩

/-! ### The consumer after a fault -/

/-- The two states agree on the consumer's side: `SEQ`, the words to issue, `RESP`, the buffer and `head`. -/
structure SameConsumer (s t : State) : Prop where
  seq : t.seq = s.seq
  program : t.program = s.program
  resp : t.resp = s.resp
  buf : t.buf = s.buf
  head : t.head = s.head

theorem SameConsumer.refl (s : State) : SameConsumer s s := ⟨rfl, rfl, rfl, rfl, rfl⟩

theorem SameConsumer.trans {s u t : State} (hu : SameConsumer s u) (ht : SameConsumer u t) : SameConsumer s t where
  seq := ht.seq.trans hu.seq
  program := ht.program.trans hu.program
  resp := ht.resp.trans hu.resp
  buf := ht.buf.trans hu.buf
  head := ht.head.trans hu.head

theorem sameConsumer_dropTurn (s : State) : SameConsumer s (dropTurn s) := ⟨rfl, rfl, rfl, rfl, rfl⟩

theorem terminated_of_not_idle {s : State} (ho : s.seq.op ≠ .idle) : terminated s = false := by
  simp [terminated, ho]

section

variable {s t : State} (ho : s.seq.op = .fault)
include ho

theorem consumer_not_enabled_of_fault : Turn.enabled s .consumer = false := by
  simp [Turn.enabled, ho]

/-- After a fault the turns left are those of the wires and of the handler. -/
theorem turnEffect_of_fault {tn : Turn} (he : TurnEffect s tn t) : SameConsumer s t := by
  cases he with
  | held => exact .refl s
  | wire p b => exact ⟨wire_seq .., wire_program .., wire_resp .., wire_buf .., wire_head ..⟩
  | isrFull | isrPush => exact ⟨rfl, rfl, rfl, rfl, rfl⟩
  | illegal w ws why hm | issue w ws i u hm => simp [mayIssue_iff, ho] at hm
  | drainEmpty _ hop | drainByte _ _ hop | drainFill _ hop | blkByte _ _ hop => simp [ho] at hop

theorem step_of_fault (h : step s = .next t) : SameConsumer s t :=
  (sameConsumer_dropTurn s).trans (turnEffect_of_fault (s := dropTurn s) ho (step_cases h))

end

/-- The fault is sticky: each step of a run starts from the faulted sequencer the step before it left. -/
theorem runFor_of_fault {k : Nat} {s t : State} (ho : s.seq.op = .fault) (h : runFor k s = .next t) :
    SameConsumer s t := by
  induction k generalizing s with
  | zero => exact Host.Outcome.next.inj h ▸ .refl s
  | succ k ih =>
    obtain ⟨u, hstep, hrun⟩ := runFor_succ_eq_next.1 h
    have hu : SameConsumer s u := step_of_fault ho hstep
    exact hu.trans (ih (by rw [hu.seq, ho]) hrun)

/-- Settles O42: only `SEQ` is written, which the wires and the handler do not look at, and no turn of a faulted machine writes
the consumer's side. -/
theorem faultIsRecordedAndSticky : Obligations.FaultIsRecordedAndSticky := by
  refine ⟨fun _ _ => rfl, fun s code p b => wire_raiseFault code p b s, fun _ code _ => isrA_raiseFault code,
    fun s ho => ⟨consumer_not_enabled_of_fault ho, fun k t h => ?_⟩⟩
  obtain ⟨hseq, hprogram, hresp, hbuf, hhead⟩ := runFor_of_fault ho h
  exact ⟨hseq, hprogram, hresp, hbuf, hhead, terminated_of_not_idle (by simp [hseq, ho])⟩

end Sys2Proof.Machine

/-! PROOFS. What no step, or no issue step, touches: the arguments of a run (10_state.md R42), the buffer outside a slot
step, and a configuration once it is there (10_state.md section 4). -/

namespace Sys2Proof.Machine

/-! ### A `CFG` that passed its checks, field by field -/

@[simp] theorem configured_par (p : Port) (baud : Len) (s : State) :
    (configured p baud s).par = s.par := by cases p <;> rfl
@[simp] theorem configured_buf (p : Port) (baud : Len) (s : State) :
    (configured p baud s).buf = s.buf := by cases p <;> rfl
@[simp] theorem configured_program (p : Port) (baud : Len) (s : State) :
    (configured p baud s).program = s.program := by cases p <;> rfl
@[simp] theorem configured_sched (p : Port) (baud : Len) (s : State) :
    (configured p baud s).sched = s.sched := by cases p <;> rfl

/-! ### Issue steps -/

/-- What no issue step writes. -/
structure IssueFrame (s t : State) : Prop where
  par : t.par = s.par
  buf : t.buf = s.buf
  program : t.program = s.program
  sched : t.sched = s.sched

theorem issueEffect_frame {s t : State} {i : Instr} (he : IssueEffect s i t) : IssueFrame s t := by
  cases he with
  | cfg p baud => exact ⟨configured_par .., configured_buf .., configured_program .., configured_sched ..⟩
  | unconfigured | reconfig | badBaud | pushFull | pushRoom | popEmpty | popByte | depth | drainZero | drain | rdblkZero
  | rdblk => exact ⟨rfl, rfl, rfl, rfl⟩

section

variable {s t : State}

/-- The next step issues a command: an enabled issue step at the consumer's turn, with that command's word next. -/
theorem issued_eq_some_iff {i : Instr} :
    Safety.issued s = some i ↔
      nextTurn s = .consumer ∧ s.mayIssue = true ∧ ∃ w ws, s.program = w :: ws ∧ decode w = .instr i := by
  unfold Safety.issued
  cases nextTurn s with
  | wire | isr => simp
  | consumer =>
    cases s.mayIssue with
    | false => simp
    | true =>
      cases s.program with
      | nil => simp
      | cons w ws => cases hd : decode w <;> simp [hd]

/-! ### Turns and steps -/

theorem turnEffect_keeps_par {tn : Turn} (he : TurnEffect s tn t) : t.par = s.par := by
  cases he with
  | wire => exact wire_par ..
  | issue w ws i u hi hp hd hu => exact (issueEffect_frame hu).par
  | drainEmpty | drainByte | drainFill | blkByte => exact fillSlot_par ..
  | held | isrFull | isrPush | illegal => rfl

theorem turnEffect_keeps_sched {tn : Turn} (he : TurnEffect s tn t) : t.sched = s.sched := by
  cases he with
  | wire => exact wire_sched ..
  | issue w ws i u hi hp hd hu => exact (issueEffect_frame hu).sched
  | drainEmpty | drainByte | drainFill | blkByte => exact fillSlot_sched ..
  | held | isrFull | isrPush | illegal => rfl

/-- A turn leaves the program, or issues its first word. -/
theorem turnEffect_program {tn : Turn} (he : TurnEffect s tn t) :
    t.program = s.program ∨ s.mayIssue = true ∧ ∃ w, s.program = w :: t.program := by
  cases he with
  | wire => exact .inl (wire_program ..)
  | illegal w ws why hi hp => exact .inr ⟨hi, w, hp⟩
  | issue w ws i u hi hp hd hu => exact .inr ⟨hi, w, by rw [(issueEffect_frame hu).program]; exact hp⟩
  | drainEmpty | drainByte | drainFill | blkByte => exact .inl (fillSlot_program ..)
  | held | isrFull | isrPush => exact .inl rfl

theorem step_keeps_par (h : step s = .next t) : t.par = s.par :=
  turnEffect_keeps_par (s := dropTurn s) (step_cases h)

/-- A step takes its turn off the schedule. -/
theorem step_sched (h : step s = .next t) : t.sched = s.sched.tail := turnEffect_keeps_sched (step_cases h)

/-- The words a step leaves to issue are among those that were there. -/
theorem mem_program_of_step (h : step s = .next t) {w : Word} (hw : w ∈ t.program) : w ∈ s.program := by
  rcases turnEffect_program (step_cases h) with hp | ⟨_, v, hp⟩
  · exact hp ▸ hw
  · rw [dropTurn_program] at hp
    exact hp ▸ List.mem_cons_of_mem v hw

end

/-! ### The configuration -/

/-- The two states agree on the configuration: `CFGD` and `BAUD` of both ports and the two enables (10_state.md R30 to
R33). -/
structure SameConfig (s t : State) : Prop where
  cfgd : ∀ p, (t.port p).cfgd = (s.port p).cfgd
  baud : ∀ p, (t.port p).baud = (s.port p).baud
  rxneie : t.rxneieA = s.rxneieA
  hreg : t.hregA = s.hregA

theorem SameConfig.of_ports {s t : State} (ha : t.portA.cfgd = s.portA.cfgd ∧ t.portA.baud = s.portA.baud)
    (hb : t.portB.cfgd = s.portB.cfgd ∧ t.portB.baud = s.portB.baud) (hi : t.rxneieA = s.rxneieA)
    (hr : t.hregA = s.hregA) : SameConfig s t where
  cfgd | .a => ha.1 | .b => hb.1
  baud | .a => ha.2 | .b => hb.2
  rxneie := hi
  hreg := hr

/-- What a step does to the configuration: nothing, or one port's `CFG` (43_configuration.md R135). -/
inductive ConfigChange (s t : State) : Prop where
  | kept (h : SameConfig s t)
  | configured (p : Port) (baud : Len) (hc : (s.port p).cfgd = false) (hb : Config.baudSupported baud = true)
      (h : SameConfig (Machine.configured p baud s) t)

/-- A byte that arrives leaves the configuration of its port. -/
theorem receive_config (policy : OverrunPolicy) (b : Byte) (r : PortRegs) :
    (receive policy b r).cfgd = r.cfgd ∧ (receive policy b r).baud = r.baud := by
  unfold receive
  split
  · split
    · cases policy <;> exact ⟨rfl, rfl⟩
    · exact ⟨rfl, rfl⟩
  · exact ⟨rfl, rfl⟩

theorem sameConfig_wire (p : Port) (b : Byte) (s : State) : SameConfig s (wire p b s) := by
  refine .of_ports ?_ ?_ (wire_rxneieA ..) (wire_hregA ..)
  · cases p with
    | a => exact receive_config ..
    | b => exact ⟨rfl, rfl⟩
  · cases p with
    | a => exact ⟨rfl, rfl⟩
    | b => exact receive_config ..

section

variable {s t : State}

/-- Filling a slot leaves the configuration. -/
theorem sameConfig_fillSlot {v : Byte} (h : SameConfig s t) : SameConfig s (fillSlot v t) := by
  refine .of_ports ?_ ?_ ((fillSlot_rxneieA ..).trans h.rxneie) ((fillSlot_hregA ..).trans h.hreg)
  · rw [fillSlot_portA]
    exact ⟨h.cfgd .a, h.baud .a⟩
  · rw [fillSlot_portB]
    exact ⟨h.cfgd .b, h.baud .b⟩

theorem issueEffect_config {i : Instr} (he : IssueEffect s i t) : ConfigChange s t := by
  cases he with
  | cfg p baud hc hb => exact .configured p baud hc hb ⟨fun _ => rfl, fun _ => rfl, rfl, rfl⟩
  | unconfigured | reconfig | badBaud | pushFull | pushRoom | popEmpty | popByte | depth | drainZero | drain | rdblkZero
  | rdblk => exact .kept ⟨fun _ => rfl, fun _ => rfl, rfl, rfl⟩

/-- The configuration does not read the arguments of a run. -/
theorem ConfigChange.of_arguments (ws : List Word) (ts : List Turn)
    (h : ConfigChange { s with program := ws, sched := ts } t) : ConfigChange s t := by
  cases h with
  | kept h => exact .kept ⟨h.cfgd, h.baud, h.rxneie, h.hreg⟩
  | configured p baud hc hb h =>
    cases p with
    | a => exact .configured .a baud hc hb ⟨h.cfgd, h.baud, h.rxneie, h.hreg⟩
    | b => exact .configured .b baud hc hb ⟨h.cfgd, h.baud, h.rxneie, h.hreg⟩

theorem turnEffect_config {tn : Turn} (he : TurnEffect s tn t) : ConfigChange s t := by
  cases he with
  | wire p b => exact .kept (sameConfig_wire p b s)
  | issue w ws i u hi hp hd hu => exact (issueEffect_config hu).of_arguments ws s.sched
  | drainEmpty | drainByte | drainFill => exact .kept (sameConfig_fillSlot ⟨fun _ => rfl, fun _ => rfl, rfl, rfl⟩)
  | blkByte => exact .kept (sameConfig_fillSlot (.of_ports ⟨rfl, rfl⟩ ⟨rfl, rfl⟩ rfl rfl))
  | isrFull | isrPush => exact .kept (.of_ports ⟨rfl, rfl⟩ ⟨rfl, rfl⟩ rfl rfl)
  | held | illegal => exact .kept ⟨fun _ => rfl, fun _ => rfl, rfl, rfl⟩

/-- A configured port stays so, with its rate (43_configuration.md R139). -/
theorem ConfigChange.port (h : ConfigChange s t) {p : Port} (hp : (s.port p).cfgd = true) :
    (t.port p).cfgd = true ∧ (t.port p).baud = (s.port p).baud := by
  cases h with
  | kept h => exact ⟨(h.cfgd p).trans hp, h.baud p⟩
  | configured q baud hc hb h =>
    have hq : (Machine.configured q baud s).port p = s.port p := by
      cases q <;> cases p
      case a.a | b.b => exact absurd (hc.symm.trans hp) Bool.false_ne_true
      case a.b | b.a => rfl
    rw [h.cfgd, h.baud, hq]
    exact ⟨hp, rfl⟩

/-- The two enables of the interrupt are set by `CFG A` and cleared by nothing. -/
theorem ConfigChange.enables (h : ConfigChange s t) :
    (s.rxneieA = true → t.rxneieA = true) ∧ (s.hregA = true → t.hregA = true) := by
  cases h with
  | kept h => exact ⟨h.rxneie.trans, h.hreg.trans⟩
  | configured q baud hc hb h =>
    rw [h.rxneie, h.hreg]
    cases q with
    | a => exact ⟨fun _ => rfl, fun _ => rfl⟩
    | b => exact ⟨id, id⟩

theorem step_config (h : step s = .next t) : ConfigChange s t :=
  (turnEffect_config (step_cases h)).of_arguments s.program s.sched.tail

theorem step_keeps_configured {p : Port} (h : step s = .next t) (hp : (s.port p).cfgd = true) : (t.port p).cfgd = true :=
  ((step_config h).port (p := p) hp).1

end

/-- Settles O58: a step leaves the configuration or runs the `CFG` of an unconfigured port, which sets what it writes. -/
theorem configurationIsNeverUndone : Obligations.ConfigurationIsNeverUndone := by
  intro s t h
  obtain ⟨hi, hr⟩ := (step_config h).enables
  exact ⟨fun p => (step_config h).port (p := p), hi, hr, step_keeps_par h, rfl⟩

end Sys2Proof.Machine

/-! PROOFS. The queue under a step: each step leaves the queue, pushes one byte, pops one byte, or is the `CFG A` that
creates the queue, and `pushedBy` and `poppedBy` name the byte. The queue's invariant (10_state.md R24 to R27) and the
order of its bytes (20_memory.md R65) are read off these four cases. -/

namespace Sys2Proof.Safety

open Sys2Proof.Machine

/-! ### The queue's fields -/

/-- The two states agree on the queue. -/
structure SameQueue (s t : State) : Prop where
  par : t.par = s.par
  store : t.store = s.store
  head : t.head = s.head
  tail : t.tail = s.tail
  count : t.count = s.count

/-- A push that found room, as `pushByte` leaves the state (40_byte_queue.md R91). -/
def queuePushed (b : Byte) (s : State) : State :=
  { s with store := Mem.write s.store s.tail b, tail := nextIndex s.par.cap s.tail, count := s.count + 1 }

/-- A pop that found a byte, as `popByte` leaves the state (40_byte_queue.md R92). -/
def queuePopped (s : State) : State := { s with head := nextIndex s.par.cap s.head, count := s.count - 1 }

section

variable {s t : State}

theorem SameQueue.contents_eq (h : SameQueue s t) : contents t = contents s :=
  contents_congr h.par h.store h.head h.count

theorem SameQueue.queueInv (h : SameQueue s t) (hq : QueueInv s) : QueueInv t :=
  queueInv_congr hq h.par h.store h.head h.tail h.count

theorem SameQueue.wire (h : SameQueue s t) {p : Port} {b : Byte} : SameQueue s (wire p b t) :=
  ⟨(wire_par ..).trans h.par, (wire_store ..).trans h.store, (wire_head ..).trans h.head, (wire_tail ..).trans h.tail,
    (wire_count ..).trans h.count⟩

theorem SameQueue.fillSlot (h : SameQueue s t) {v : Byte} : SameQueue s (fillSlot v t) :=
  ⟨(fillSlot_par ..).trans h.par, (fillSlot_store ..).trans h.store, (fillSlot_head ..).trans h.head,
    (fillSlot_tail ..).trans h.tail, (fillSlot_count ..).trans h.count⟩

theorem SameQueue.setSeq (h : SameQueue s t) {q : Seq} : SameQueue s (t.setSeq q) :=
  ⟨h.par, h.store, h.head, h.tail, h.count⟩

theorem SameQueue.setPort (h : SameQueue s t) {p : Port} {r : PortRegs} : SameQueue s (t.setPort p r) :=
  ⟨(State.setPort_par ..).trans h.par, (State.setPort_store ..).trans h.store, (State.setPort_head ..).trans h.head,
    (State.setPort_tail ..).trans h.tail, (State.setPort_count ..).trans h.count⟩

/-- The queue of a state whose turn is taken off the schedule. -/
theorem sameQueue_dropTurn (s : State) : SameQueue s (dropTurn s) := ⟨rfl, rfl, rfl, rfl, rfl⟩

/-- Every byte held has been written (10_state.md R27). -/
theorem unspec_notMem_contents_iff :
    Datum.unspec ∉ contents s ↔ ∀ k < s.count, Mem.read s.store (heldSlot s k) ≠ .unspec := by
  simp [contents]

theorem contents_queuePushed (h : QueueInv s) (hf : s.full = false) (b : Byte) :
    contents (queuePushed b s) = contents s ++ [.byte b] :=
  contents_write_tail h b (full_false.1 hf) _

theorem contents_eq_cons_queuePopped (h : QueueInv s) (he : s.empty = false) :
    contents s = Mem.read s.store s.head :: contents (queuePopped s) :=
  contents_eq_cons h (empty_false.1 he)

theorem queueInv_queuePushed (h : QueueInv s) (hf : s.full = false) (b : Byte) : QueueInv (queuePushed b s) where
  toQueueBounds := queueBounds_pushed h.toQueueBounds hf rfl rfl rfl rfl
  tail_eq := by
    show (s.tail + 1) % s.par.cap = (s.head + (s.count + 1)) % s.par.cap
    rw [h.tail_eq, Nat.mod_add_mod, Nat.add_assoc]
  store_wf := Mem.wf_write _ _ h.store_wf
  store_inside := by
    intro c hc
    rcases Mem.mem_write hc with rfl | hc
    · exact h.tail_lt
    · exact h.store_inside c hc
  held_written := by
    refine unspec_notMem_contents_iff.1 ?_
    rw [contents_queuePushed h hf]
    simpa using unspec_notMem_contents_iff.2 h.held_written

theorem queueInv_queuePopped (h : QueueInv s) (he : s.empty = false) : QueueInv (queuePopped s) where
  toQueueBounds := queueBounds_popped h.toQueueBounds rfl rfl rfl rfl
  tail_eq := by
    have hc : s.count ≠ 0 := empty_false.1 he
    show s.tail = ((s.head + 1) % s.par.cap + (s.count - 1)) % s.par.cap
    rw [h.tail_eq, Nat.mod_add_mod, show s.head + 1 + (s.count - 1) = s.head + s.count by omega]
  store_wf := h.store_wf
  store_inside := h.store_inside
  held_written := by
    have hw := unspec_notMem_contents_iff.2 h.held_written
    rw [contents_eq_cons_queuePopped h he] at hw
    exact unspec_notMem_contents_iff.1 (List.not_mem_of_not_mem_cons hw)

/-- The empty queue at offset 0 that `CFG A` creates (43_configuration.md R137). -/
theorem queueInv_createQueue (h : QueueInv s) : QueueInv (createQueue s) where
  toQueueBounds := queueBounds_of_cleared h.cap_wf rfl rfl rfl
  tail_eq := (Nat.zero_mod _).symm
  store_wf := h.store_wf
  store_inside := h.store_inside
  held_written := nofun

end

/-! ### What the next step pushes and pops -/

section

variable {s : State}

theorem pushedBy_of_wire {p : Port} {b : Byte} (hn : nextTurn s = .wire p b) : pushedBy s = [] := by
  simp [pushedBy, hn]

theorem pushedBy_of_isr (hn : nextTurn s = .isr) :
    pushedBy s = if s.irqA && !s.full then [s.portA.rdr] else [] := by
  simp [pushedBy, hn]

theorem pushedBy_of_consumer (hn : nextTurn s = .consumer) (hi : ∀ b, issued s ≠ some (.push b)) :
    pushedBy s = [] := by
  have hc : pushCommand s = none := by
    unfold pushCommand
    split
    · rename_i b hb
      exact absurd hb (hi b)
    · rfl
  simp [pushedBy, hn, hc]

theorem pushedBy_of_push {b : Byte} (hn : nextTurn s = .consumer) (hi : issued s = some (.push b)) :
    pushedBy s = if s.portA.cfgd && !s.full then [.byte b] else [] := by
  cases hc : s.portA.cfgd <;> cases hf : s.full <;> simp [pushedBy, hn, pushCommand, hi, hc, hf]

theorem popsQueue_of_not_consumer (hn : nextTurn s ≠ .consumer) : popsQueue s = false := by
  unfold popsQueue
  split
  · rename_i h
    exact absurd h hn
  · rfl

theorem popsQueue_of_consumer (hn : nextTurn s = .consumer) :
    popsQueue s = true ↔
      s.shutOut = false ∧ (s.seq.op = .drain ∧ s.seq.ph = .pop ∨ issued s = some .pop ∧ s.portA.cfgd = true) := by
  simp [popsQueue, hn]

theorem poppedBy_of_not_popsQueue (h : popsQueue s = false) : poppedBy s = [] := by
  simp [poppedBy, h]

theorem poppedBy_of_empty (he : s.empty = true) : poppedBy s = [] := by
  simp [poppedBy, he]

theorem poppedBy_of_popsQueue (h : popsQueue s = true) (he : s.empty = false) :
    poppedBy s = [Mem.read s.store s.head] := by
  simp [poppedBy, h, he]

theorem issued_eq_none (h : nextTurn s = .consumer → s.mayIssue = true →
    ∀ w ws i, s.program = w :: ws → decode w ≠ .instr i) :
    issued s = none :=
  Option.eq_none_iff_forall_ne_some.2 fun i hi => by
    obtain ⟨hn, hm, w, ws, hp, hd⟩ := issued_eq_some_iff.1 hi
    exact h hn hm w ws i hp hd

theorem issued_of_not_mayIssue (hm : s.mayIssue = false) : issued s = none :=
  issued_eq_none fun _ hm' => absurd (hm.symm.trans hm') Bool.false_ne_true

theorem issued_of_nil (hp : s.program = []) : issued s = none :=
  issued_eq_none fun _ _ _ _ _ hp' => nomatch hp.symm.trans hp'

theorem issued_of_illegal {w : Word} {ws : List Word} {why : IllegalReason} (hp : s.program = w :: ws)
    (hd : decode w = .illegal why) : issued s = none :=
  issued_eq_none fun _ _ v vs i hp' hd' => by
    obtain ⟨rfl, _⟩ := List.cons.inj (hp.symm.trans hp')
    exact nomatch hd.symm.trans hd'

theorem not_mayIssue_of_op (ho : s.seq.op ≠ .idle) : s.mayIssue = false := by
  simp [State.mayIssue, ho]

theorem issued_of_op (ho : s.seq.op ≠ .idle) : issued s = none := issued_of_not_mayIssue (not_mayIssue_of_op ho)

/-- A held turn issues nothing. -/
theorem issued_of_not_enabled (h : Turn.enabled s .consumer = false) : issued s = none := by
  cases hs : s.shutOut with
  | true => exact issued_of_not_mayIssue (mayIssue_of_shutOut hs)
  | false =>
    cases ho : s.seq.op with
    | idle =>
      refine issued_of_nil ?_
      simpa [Turn.enabled, hs, ho] using h
    | drain | blk | fault => exact issued_of_op (by simp [ho])

/-- A held turn pushes nothing. -/
theorem pushedBy_of_not_enabled (h : (nextTurn s).enabled s = false) : pushedBy s = [] := by
  cases hn : nextTurn s with
  | wire p b => exact pushedBy_of_wire hn
  | isr =>
    have hq : s.irqA = false := by simpa [hn, Turn.enabled] using h
    simp [pushedBy_of_isr hn, hq]
  | consumer =>
    rw [hn] at h
    exact pushedBy_of_consumer hn (by simp [issued_of_not_enabled h])

/-- A held turn pops nothing. -/
theorem popsQueue_of_not_enabled (h : (nextTurn s).enabled s = false) : popsQueue s = false := by
  by_cases hn : nextTurn s = .consumer
  · rw [hn] at h
    refine Bool.eq_false_iff.2 fun hp => ?_
    obtain ⟨hs, ⟨ho, _⟩ | ⟨hi, _⟩⟩ := (popsQueue_of_consumer hn).1 hp
    · simp [Turn.enabled, hs, ho] at h
    · simp [issued_of_not_enabled h] at hi
  · exact popsQueue_of_not_consumer hn

end

/-! ### The four cases -/

/-- What a step does to the queue, with the bytes it pushes and the bytes it pops. -/
inductive QueueChange (s t : State) : List Datum → List Datum → Prop where
  | kept (h : SameQueue s t) : QueueChange s t [] []
  | pushed (b : Byte) (hc : s.portA.cfgd = true) (hf : s.full = false) (h : SameQueue (queuePushed b s) t) :
      QueueChange s t [.byte b] []
  | popped (hp : popsQueue s = true) (he : s.empty = false) (h : SameQueue (queuePopped s) t) :
      QueueChange s t [] [Mem.read s.store s.head]
  | created (baud : Len) (hi : issued s = some (.cfg .a baud)) (hc : s.portA.cfgd = false)
      (h : SameQueue (createQueue s) t) : QueueChange s t [] []

section

variable {s t : State}

/-- A step that leaves the queue, pushes nothing and pops nothing. -/
theorem queueChange_kept (hpush : pushedBy s = []) (hpop : poppedBy s = []) (h : SameQueue s t) :
    QueueChange s t (pushedBy s) (poppedBy s) := by
  rw [hpush, hpop]
  exact .kept h

/-- An issue step that finds no room for its push and no byte for its pop, or does neither, leaves the queue. -/
theorem queueChange_of_issued {i : Instr} (hn : nextTurn s = .consumer) (hm : s.mayIssue = true) (hi : issued s = some i)
    (hpush : ∀ b, i = .push b → s.portA.cfgd = false ∨ s.full = true)
    (hpop : i = .pop → s.portA.cfgd = false ∨ s.empty = true) (h : SameQueue s t) :
    QueueChange s t (pushedBy s) (poppedBy s) := by
  refine queueChange_kept ?_ ?_ h
  · by_cases hb : ∃ b, i = .push b
    · obtain ⟨b, rfl⟩ := hb
      rw [pushedBy_of_push hn hi]
      rcases hpush b rfl with hc | hf
      · simp [hc]
      · simp [hf]
    · exact pushedBy_of_consumer hn fun b hb' => hb ⟨b, Option.some.inj (hi.symm.trans hb')⟩
  · cases hq : popsQueue s with
    | false => exact poppedBy_of_not_popsQueue hq
    | true =>
      obtain ⟨_, ⟨hdrain, _⟩ | ⟨hpop', hc⟩⟩ := (popsQueue_of_consumer hn).1 hq
      · simp [(mayIssue_iff.1 hm).1] at hdrain
      · rcases hpop (Option.some.inj (hi.symm.trans hpop')) with hc' | he
        · simp [hc] at hc'
        · exact poppedBy_of_empty he

/-- The queue under an issue step. -/
theorem issueEffect_queueChange {i : Instr} {ws : List Word} (hn : nextTurn s = .consumer) (hm : s.mayIssue = true)
    (hi : issued s = some i) (he : IssueEffect { dropTurn s with program := ws } i t) :
    QueueChange s t (pushedBy s) (poppedBy s) := by
  cases he with
  | unconfigured _ h =>
    rcases h with ⟨_, _, hc⟩ | ⟨⟨n, rfl⟩, _⟩
    · exact queueChange_of_issued hn hm hi (fun _ _ => .inl hc) (fun _ => .inl hc) ⟨rfl, rfl, rfl, rfl, rfl⟩
    · exact queueChange_of_issued hn hm hi nofun nofun ⟨rfl, rfl, rfl, rfl, rfl⟩
  | cfg p baud hc =>
    cases p with
    | a =>
      rw [pushedBy_of_consumer hn (by simp [hi]), poppedBy_of_not_popsQueue ?notPop]
      case notPop => simp [popsQueue, hn, hi, (mayIssue_iff.1 hm).1]
      exact .created baud hi hc ⟨rfl, rfl, rfl, rfl, rfl⟩
    | b => exact queueChange_of_issued hn hm hi nofun nofun ⟨rfl, rfl, rfl, rfl, rfl⟩
  | pushFull b hc hf => exact queueChange_of_issued hn hm hi (fun _ _ => .inr hf) nofun ⟨rfl, rfl, rfl, rfl, rfl⟩
  | popEmpty hc he => exact queueChange_of_issued hn hm hi nofun (fun _ => .inr he) ⟨rfl, rfl, rfl, rfl, rfl⟩
  | pushRoom b hc hf =>
    have hc : s.portA.cfgd = true := hc
    have hf : s.full = false := hf
    rw [pushedBy_of_push hn hi, poppedBy_of_not_popsQueue ?notPop, hc, hf]
    case notPop => simp [popsQueue, hn, hi, (mayIssue_iff.1 hm).1]
    exact .pushed b hc hf ⟨rfl, rfl, rfl, rfl, rfl⟩
  | popByte v hc he =>
    have hq : popsQueue s = true := (popsQueue_of_consumer hn).2 ⟨(mayIssue_iff.1 hm).2, .inr ⟨hi, hc⟩⟩
    rw [pushedBy_of_consumer hn (by simp [hi]), poppedBy_of_popsQueue hq he]
    exact .popped hq he ⟨rfl, rfl, rfl, rfl, rfl⟩
  | reconfig | badBaud | depth | drainZero | drain | rdblkZero | rdblk =>
    exact queueChange_of_issued hn hm hi nofun nofun ⟨rfl, rfl, rfl, rfl, rfl⟩

/-- The queue under a consumer's turn that issues no command: only a drain's slot step in phase POP can take a byte. -/
theorem queueChange_of_not_issued (hn : nextTurn s = .consumer) (hi : issued s = none)
    (hpop : s.shutOut = true ∨ ¬(s.seq.op = .drain ∧ s.seq.ph = .pop) ∨ s.empty = true) (h : SameQueue s t) :
    QueueChange s t (pushedBy s) (poppedBy s) := by
  refine queueChange_kept (pushedBy_of_consumer hn (by simp [hi])) ?_ h
  rcases hpop with hs | hd | he
  · exact poppedBy_of_not_popsQueue (by simp [popsQueue, hn, hs])
  · exact poppedBy_of_not_popsQueue (by simp [popsQueue, hn, hi, hd])
  · exact poppedBy_of_empty he

/-- The queue under a turn that is not the consumer's and pushes nothing. -/
theorem queueChange_of_not_consumer (hn : nextTurn s ≠ .consumer) (hpush : pushedBy s = []) (h : SameQueue s t) :
    QueueChange s t (pushedBy s) (poppedBy s) :=
  queueChange_kept hpush (poppedBy_of_not_popsQueue (popsQueue_of_not_consumer hn)) h

/-- Everything a step can do to the queue. -/
theorem step_queueChange (h : step s = .next t) : QueueChange s t (pushedBy s) (poppedBy s) := by
  have he := step_cases h
  generalize hn : nextTurn s = tn at he
  cases he with
  | held _ hen =>
    rw [← hn] at hen
    exact queueChange_kept (pushedBy_of_not_enabled hen) (poppedBy_of_not_popsQueue (popsQueue_of_not_enabled hen))
      (sameQueue_dropTurn s)
  | wire p b => exact queueChange_of_not_consumer (by simp [hn]) (pushedBy_of_wire hn) (sameQueue_dropTurn s).wire
  | isrFull v hq hv hf =>
    have hf : s.full = true := hf
    exact queueChange_of_not_consumer (by simp [hn]) (by simp [pushedBy_of_isr hn, hf]) ⟨rfl, rfl, rfl, rfl, rfl⟩
  | isrPush v hq hv hf =>
    have hq : s.irqA = true := hq
    have hv : s.portA.rdr = .byte v := hv
    have hf : s.full = false := hf
    rw [pushedBy_of_isr hn, hq, hf, hv, poppedBy_of_not_popsQueue (popsQueue_of_not_consumer (by simp [hn]))]
    exact .pushed v (irqA_iff.1 hq).1 hf ⟨rfl, rfl, rfl, rfl, rfl⟩
  | illegal w ws why hi hp hd =>
    have ho : s.seq.op = .idle := (mayIssue_iff.1 hi).1
    exact queueChange_of_not_issued hn (issued_of_illegal hp hd) (.inr (.inl (by simp [ho]))) ⟨rfl, rfl, rfl, rfl, rfl⟩
  | issue w ws i u hi hp hd hu => exact issueEffect_queueChange hn hi (issued_eq_some_iff.2 ⟨hn, hi, w, ws, hp, hd⟩) hu
  | drainEmpty hs ho hph he =>
    have ho : s.seq.op = .drain := ho
    exact queueChange_of_not_issued hn (issued_of_op (by simp [ho])) (.inr (.inr he))
      (sameQueue_dropTurn s).setSeq.fillSlot
  | drainByte v hs ho hph he =>
    have ho : s.seq.op = .drain := ho
    have hq : popsQueue s = true := (popsQueue_of_consumer hn).2 ⟨hs, .inl ⟨ho, hph⟩⟩
    rw [pushedBy_of_consumer hn (by simp [issued_of_op (s := s) (by simp [ho])]),
      poppedBy_of_popsQueue hq he]
    have hsame : SameQueue (queuePopped s) (queuePopped (dropTurn s)) := ⟨rfl, rfl, rfl, rfl, rfl⟩
    exact .popped hq he hsame.fillSlot
  | drainFill hs ho hph =>
    have ho : s.seq.op = .drain := ho
    have hph : s.seq.ph = .fill := hph
    exact queueChange_of_not_issued hn (issued_of_op (by simp [ho]))
      (.inr (.inl (by simp [hph])))
      (sameQueue_dropTurn s).fillSlot
  | blkByte v hs ho =>
    have ho : s.seq.op = .blk := ho
    exact queueChange_of_not_issued hn (issued_of_op (by simp [ho]))
      (.inr (.inl (by simp [ho])))
      (sameQueue_dropTurn s).setPort.fillSlot

/-! ### What follows from the four cases -/

/-- A step keeps the queue's invariant. -/
theorem QueueChange.queueInv {l m : List Datum} (h : QueueChange s t l m) (hq : QueueInv s) : QueueInv t := by
  cases h with
  | kept h => exact h.queueInv hq
  | pushed b _ hf h => exact h.queueInv (queueInv_queuePushed hq hf b)
  | popped _ he h => exact h.queueInv (queueInv_queuePopped hq he)
  | created _ _ _ h => exact h.queueInv (queueInv_createQueue hq)

/-- A step appends what it pushes and takes what it pops from the front (40_byte_queue.md R103). -/
theorem QueueChange.contents_eq {l m : List Datum} (h : QueueChange s t l m) (hq : QueueInv s)
    (hc : s.portA.cfgd = true) : contents s ++ l = m ++ contents t := by
  cases h with
  | kept h => rw [h.contents_eq, List.append_nil, List.nil_append]
  | pushed b _ hf h => rw [h.contents_eq, contents_queuePushed hq hf, List.nil_append]
  | popped _ he h => rw [h.contents_eq, contents_eq_cons_queuePopped hq he, List.append_nil, List.singleton_append]
  | created _ _ hn _ => exact absurd (hn.symm.trans hc) Bool.false_ne_true

/-- The store is written at `tail` only, and only by a push (20_memory.md section 1). -/
theorem QueueChange.read_store {l m : List Datum} (h : QueueChange s t l m) {a : Nat} (ha : a ≠ s.tail ∨ l = []) :
    Mem.read t.store a = Mem.read s.store a := by
  cases h with
  | kept h | popped _ _ h | created _ _ _ h => exact congrArg (Mem.read · a) h.store
  | pushed b _ _ h =>
    rw [h.store]
    exact Mem.read_write_ne _ _ (ha.resolve_right (by simp))

theorem QueueChange.head_eq {l m : List Datum} (h : QueueChange s t l m) (ht : t.head ≠ s.head) :
    popsQueue s = true ∨ ∃ baud, issued s = some (.cfg .a baud) := by
  cases h with
  | kept h | pushed _ _ _ h => exact absurd h.head ht
  | popped hp => exact .inl hp
  | created baud hi => exact .inr ⟨baud, hi⟩

theorem QueueChange.tail_eq {l m : List Datum} (h : QueueChange s t l m) (ht : t.tail ≠ s.tail) :
    l ≠ [] ∨ ∃ baud, issued s = some (.cfg .a baud) := by
  cases h with
  | kept h | popped _ _ h => exact absurd h.tail ht
  | pushed => exact .inl (by simp)
  | created baud hi => exact .inr ⟨baud, hi⟩

end

/-- Settles O57: of the four things a step can do to the queue, only a pop moves `head` and only a push moves `tail`,
besides the `CFG A` that creates the queue. -/
theorem eachSideWritesItsOwnIndex : Obligations.EachSideWritesItsOwnIndex := fun _ _ h =>
  ⟨(step_queueChange h).head_eq, (step_queueChange h).tail_eq⟩

end Sys2Proof.Safety

/-! PROOFS. The machine's invariant (10_state.md sections 2 to 5), part by part: the registers of the ports, the control
state, the sequencer and the buffer, each kept by every turn. The queue's part stands with the queue. Progress: under
the invariant every turn answers a next state, so no run stops. -/

namespace Sys2Proof.Safety

open Sys2Proof.Machine

/-! ### The ports' registers -/

theorem portInv_reset : PortInv PortRegs.reset where
  ready_configured := nofun
  ready_written := nofun
  configured_rate := nofun
  unconfigured_rate _ := rfl

/-- A port whose ready bit is cleared. -/
theorem PortInv.cleared {r : PortRegs} (h : PortInv r) : PortInv { r with rxne := false } where
  ready_configured := nofun
  ready_written := nofun
  configured_rate := h.configured_rate
  unconfigured_rate := h.unconfigured_rate

/-- A port right after its `CFG` (43_configuration.md R135). -/
theorem portInv_configured {baud : Len} (hb : Config.baudSupported baud = true) :
    PortInv { rdr := .unspec, rxne := false, cfgd := true, baud := baud } where
  ready_configured := nofun
  ready_written := nofun
  configured_rate _ := hb
  unconfigured_rate := nofun

/-- A port at which a byte arrives (41_receive_pipeline.md R111). -/
theorem PortInv.receive {r : PortRegs} (h : PortInv r) (policy : OverrunPolicy) (b : Byte) :
    PortInv (receive policy b r) := by
  cases hc : r.cfgd with
  | false => rwa [receive_of_unconfigured hc]
  | true =>
    have hloaded (f : Bool) : PortInv { r with rdr := .byte b, rxne := f } :=
      ⟨fun _ => hc, fun _ => nofun, h.configured_rate, h.unconfigured_rate⟩
    cases hr : r.rxne with
    | false =>
      rw [receive_of_free hc hr]
      exact hloaded true
    | true =>
      cases policy with
      | keepOld => rwa [receive_keepOld_of_ready hr]
      | takeNew =>
        rw [receive_takeNew_of_ready hc hr]
        exact hloaded r.rxne

/-- The registers of both ports. -/
def PortsInv (s : State) : Prop := ∀ p, PortInv (s.port p)

section

variable {s t : State}

theorem PortsInv.setPort (h : PortsInv s) (p : Port) {r : PortRegs} (hr : PortInv r) : PortsInv (s.setPort p r) := by
  intro q
  cases p <;> cases q
  case a.a | b.b => exact hr
  case a.b => exact h .b
  case b.a => exact h .a

theorem PortsInv.of_eq (h : PortsInv s) (ha : t.portA = s.portA) (hb : t.portB = s.portB) : PortsInv t
  | .a => (congrArg PortInv ha).mpr (h .a)
  | .b => (congrArg PortInv hb).mpr (h .b)

theorem issueEffect_keeps_portsInv {i : Instr} (h : PortsInv s) (he : IssueEffect s i t) : PortsInv t := by
  cases he with
  | cfg p baud hc hb =>
    have hset := h.setPort p (portInv_configured hb)
    cases p <;> exact hset.of_eq rfl rfl
  | unconfigured | reconfig | badBaud | pushFull | pushRoom | popEmpty | popByte | depth | drainZero | drain | rdblkZero
  | rdblk => exact h.of_eq rfl rfl

theorem turnEffect_keeps_portsInv {tn : Turn} (h : PortsInv s) (he : TurnEffect s tn t) : PortsInv t := by
  cases he with
  | wire p b => exact h.setPort p ((h p).receive ..)
  | issue w ws i u hi hp hd hu => exact issueEffect_keeps_portsInv (s := { s with program := ws }) (h.of_eq rfl rfl) hu
  | isrFull | isrPush => exact (h.setPort .a (h .a).cleared).of_eq rfl rfl
  | blkByte => exact (h.setPort .b (h .b).cleared).of_eq (fillSlot_portA ..) (fillSlot_portB ..)
  | drainEmpty | drainByte | drainFill => exact h.of_eq (fillSlot_portA ..) (fillSlot_portB ..)
  | held | illegal => exact h.of_eq rfl rfl

/-! ### The control state -/

/-- The control invariant under a step: `CFG A` sets the three bits together, and the queue moves only on a configured
port (10_state.md R33, R45). -/
theorem ControlInv.of_changes (h : ControlInv s) {l m : List Datum} (hcfg : ConfigChange s t)
    (hq : QueueChange s t l m) : ControlInv t where
  rxneie_eq := by
    cases hcfg with
    | kept k => rw [k.rxneie, h.rxneie_eq]; exact (k.cfgd .a).symm
    | configured p baud hc hb k =>
      refine k.rxneie.trans (Eq.trans ?_ (k.cfgd .a).symm)
      cases p with
      | a => rfl
      | b => exact h.rxneie_eq
  hreg_eq := by
    cases hcfg with
    | kept k => rw [k.hreg, h.hreg_eq]; exact (k.cfgd .a).symm
    | configured p baud hc hb k =>
      refine k.hreg.trans (Eq.trans ?_ (k.cfgd .a).symm)
      cases p with
      | a => rfl
      | b => exact h.hreg_eq
  no_queue ht := by
    have hs : s.portA.cfgd = false := by
      refine Bool.eq_false_iff.2 fun hc => ?_
      exact Bool.false_ne_true (ht.symm.trans (hcfg.port (p := .a) hc).1)
    obtain ⟨hhead, htail, hcount⟩ := h.no_queue hs
    cases hq with
    | kept k => exact ⟨k.head.trans hhead, k.tail.trans htail, k.count.trans hcount⟩
    | pushed b hc => exact absurd (hs.symm.trans hc) Bool.false_ne_true
    | popped _ he => exact absurd hcount (empty_false.1 he)
    | created _ _ _ k => exact ⟨k.head, k.tail, k.count⟩

/-! ### The sequencer -/

/-- The sequencer's invariant reads `SEQ` and `CFGD`. -/
theorem SeqInv.of_eq (h : SeqInv s) (hq : t.seq = s.seq) (ha : s.portA.cfgd = true → t.portA.cfgd = true)
    (hb : s.portB.cfgd = true → t.portB.cfgd = true) : SeqInv t where
  drain_slot ho := (h.drain_slot (hq ▸ ho)).imp (by rw [hq]; exact id) ha
  blk_slot ho := (h.blk_slot (hq ▸ ho)).imp (by rw [hq]; exact id) hb
  code_none := by rw [hq]; exact h.code_none

theorem seqInv_raiseFault {code : FaultCode} (hcode : code ≠ .none) : SeqInv (raiseFault code s) where
  drain_slot := nofun
  blk_slot := nofun
  code_none := iff_of_false hcode (absurd rfl)

/-- The issue step of a read of n bytes starts at slot 0 (40_byte_queue.md R96, 42_receive_wait.md R125). -/
theorem slot_zero_lt {n : Len} (hn : n ≠ 0#24) : (0#24).toNat < n.toNat :=
  Nat.pos_of_ne_zero fun h0 => hn (BitVec.eq_of_toNat_eq h0)

/-- Between two slots of a read, the next slot's number is one more (40_byte_queue.md R100). -/
theorem toNat_next_slot {i n : Len} (hlt : i.toNat < n.toNat) : (i + 1#24).toNat = i.toNat + 1 := by
  have := n.isLt
  rw [BitVec.toNat_add]
  exact Nat.mod_eq_of_lt (by simp; omega)

/-- A slot step ends the read after its last slot and goes on to the next slot before. -/
theorem SeqInv.fillSlot (h : SeqInv s) (ho : s.seq.op ≠ .fault) (hlt : s.seq.i.toNat < s.seq.n.toNat) {v : Byte} :
    SeqInv (fillSlot v s) := by
  have hcode : s.seq.code = .none := h.code_none.2 ho
  by_cases hlast : s.seq.i.toNat + 1 = s.seq.n.toNat
  · have hseq : (Machine.fillSlot v s).seq = { s.seq with op := .idle } := by rw [fillSlot_seq, if_pos hlast]
    exact ⟨by simp [hseq], by simp [hseq], by simp [hseq, hcode]⟩
  · have hseq : (Machine.fillSlot v s).seq = { s.seq with i := s.seq.i + 1#24 } := by rw [fillSlot_seq, if_neg hlast]
    have hnext : (s.seq.i + 1#24).toNat < s.seq.n.toNat := by rw [toNat_next_slot hlt]; omega
    refine ⟨fun hd => ?_, fun hb => ?_, by rw [hseq]; exact h.code_none⟩
    · rw [hseq] at hd ⊢
      rw [fillSlot_portA]
      exact ⟨hnext, (h.drain_slot hd).2⟩
    · rw [hseq] at hb ⊢
      rw [fillSlot_portB]
      exact ⟨hnext, (h.blk_slot hb).2⟩

theorem issueEffect_keeps_seqInv {i : Instr} (h : SeqInv s) (hm : s.mayIssue = true) (he : IssueEffect s i t) :
    SeqInv t := by
  have hcode : s.seq.code = .none := h.code_none.2 (by simp [(mayIssue_iff.1 hm).1])
  cases he with
  | unconfigured | reconfig | badBaud => exact seqInv_raiseFault nofun
  | cfg p baud =>
    cases p with
    | a => exact h.of_eq rfl (fun _ => rfl) id
    | b => exact h.of_eq rfl id (fun _ => rfl)
  | drain n hc hn => exact ⟨fun _ => ⟨slot_zero_lt hn, hc⟩, nofun, iff_of_true hcode nofun⟩
  | rdblk n hc hn => exact ⟨nofun, fun _ => ⟨slot_zero_lt hn, hc⟩, iff_of_true hcode nofun⟩
  | pushFull | pushRoom | popEmpty | popByte | depth | drainZero | rdblkZero => exact h.of_eq rfl id id

theorem turnEffect_keeps_seqInv {tn : Turn} (h : SeqInv s) (he : TurnEffect s tn t) : SeqInv t := by
  have hcfg := turnEffect_config he
  have same (hq : t.seq = s.seq) : SeqInv t :=
    h.of_eq hq (fun hc => (hcfg.port (p := .a) hc).1) fun hc => (hcfg.port (p := .b) hc).1
  cases he with
  | wire p b => exact same (wire_seq ..)
  | illegal => exact seqInv_raiseFault nofun
  | issue w ws i u hi hp hd hu =>
    exact issueEffect_keeps_seqInv (s := { s with program := ws }) (h.of_eq rfl id id) hi hu
  | drainEmpty _ ho =>
    have h' : SeqInv (s.setSeq { s.seq with ph := .fill }) := ⟨h.drain_slot, h.blk_slot, h.code_none⟩
    exact h'.fillSlot (by simp [ho]) (h.drain_slot ho).1
  | drainByte _ _ ho | drainFill _ ho =>
    refine SeqInv.fillSlot ?_ ?_ ?_
    exacts [h.of_eq rfl id id, by simp [ho], (h.drain_slot ho).1]
  | blkByte _ _ ho =>
    refine SeqInv.fillSlot ?_ ?_ ?_
    exacts [h.of_eq rfl id id, by simp [ho], (h.blk_slot ho).1]
  | held | isrFull | isrPush => exact same rfl

/-! ### The buffer -/

theorem BufInv.of_eq (h : BufInv s) (hb : t.buf = s.buf) : BufInv t := ⟨hb ▸ h.buf_wf, hb ▸ h.buf_inside⟩

/-- A slot step writes a slot that a requested count can name. -/
theorem BufInv.fillSlot (h : BufInv s) (hlt : s.seq.i.toNat < s.seq.n.toNat) {v : Byte} : BufInv (fillSlot v s) where
  buf_wf := by
    rw [fillSlot_buf]
    exact Mem.wf_write _ _ h.buf_wf
  buf_inside := by
    intro c hc
    rw [fillSlot_buf] at hc
    rcases Mem.mem_write hc with rfl | hc
    · have := s.seq.n.isLt
      show s.seq.i.toNat < 2 ^ 24 - 1
      omega
    · exact h.buf_inside c hc

theorem turnEffect_keeps_bufInv {tn : Turn} (h : BufInv s) (hs : SeqInv s) (he : TurnEffect s tn t) : BufInv t := by
  cases he with
  | wire p b => exact h.of_eq (wire_buf ..)
  | issue w ws i u hi hp hd hu => exact h.of_eq (issueEffect_frame hu).buf
  | drainEmpty _ ho | drainByte _ _ ho | drainFill _ ho =>
    refine BufInv.fillSlot ?_ ?_
    exacts [h.of_eq rfl, (hs.drain_slot ho).1]
  | blkByte _ _ ho =>
    refine BufInv.fillSlot ?_ ?_
    exacts [h.of_eq rfl, (hs.blk_slot ho).1]
  | held | isrFull | isrPush | illegal => exact h.of_eq rfl

/-! ### The invariant as a whole -/

/-- The invariant does not read the arguments of a run. -/
theorem MachineInv.with_arguments (h : MachineInv s) (ws : List Word) (ts : List Turn) :
    MachineInv { s with program := ws, sched := ts } where
  queue := queueInv_congr h.queue rfl rfl rfl rfl rfl
  portA := h.portA
  portB := h.portB
  control := ⟨h.control.rxneie_eq, h.control.hreg_eq, h.control.no_queue⟩
  seq := h.seq.of_eq rfl id id
  buf := h.buf.of_eq rfl

theorem machineInv_dropTurn (h : MachineInv s) : MachineInv (dropTurn s) := h.with_arguments s.program s.sched.tail

theorem step_keeps_machineInv (h : MachineInv s) (hs : step s = .next t) : MachineInv t := by
  have hd := machineInv_dropTurn h
  have he := step_cases hs
  have hports : PortsInv t := turnEffect_keeps_portsInv (fun | .a => hd.portA | .b => hd.portB) he
  exact
    { queue := (step_queueChange hs).queueInv h.queue
      portA := hports .a
      portB := hports .b
      control := h.control.of_changes (step_config hs) (step_queueChange hs)
      seq := turnEffect_keeps_seqInv hd.seq he
      buf := turnEffect_keeps_bufInv hd.buf hd.seq he }

end

/-- Settles O48: the queue under the four things a step does to it, the control state under a configuration, and the
other parts turn by turn. -/
theorem stepKeepsTheInvariant : Obligations.StepKeepsTheInvariant := fun _ _ => step_keeps_machineInv

/-- Settles O47: everything is off and nothing is held (10_state.md R44). -/
theorem resetMeetsTheInvariant : Obligations.ResetMeetsTheInvariant where
  queue :=
    { toQueueBounds := queueBounds_reset
      tail_eq := (Nat.zero_mod _).symm
      store_wf := Mem.wf_reset.1
      store_inside := nofun
      held_written := nofun }
  portA := portInv_reset
  portB := portInv_reset
  control := ⟨rfl, rfl, fun _ => ⟨rfl, rfl, rfl⟩⟩
  seq := ⟨nofun, nofun, iff_of_true rfl nofun⟩
  buf := ⟨Mem.wf_reset.2, nofun⟩

end Sys2Proof.Safety

/-! PROOFS. Progress: under the invariant the queue's primitives find their offsets in range and their bytes written, so
every turn answers a next state and no run stops (00_scope.md R11, 20_memory.md R51). -/

namespace Sys2Proof.Safety

open Sys2Proof.Machine

section

variable {s t : State}

theorem pushByte_next (h : QueueInv s) (b : Byte) : ∃ r, pushByte b s = .next r :=
  (pushByte_refines_boundedPush h b).imp fun _ hr => hr.1

theorem popByte_next (h : QueueInv s) : ∃ r, popByte s = .next r :=
  (popByte_refines_tail h).imp fun _ hr => hr.1

/-- An operation that goes on with a value answers if both parts do. -/
theorem andThen_next_of {α β : Type} {r : Res α} {f : α → Res β} (hr : ∃ a, r = .next a)
    (hf : ∀ a, ∃ b, f a = .next b) : ∃ b, andThen r f = .next b := by
  obtain ⟨a, ha⟩ := hr
  obtain ⟨b, hb⟩ := hf a
  exact ⟨b, andThen_eq_next.2 ⟨a, ha, hb⟩⟩

theorem whenMayIssue_next {k : Res State} (hk : ∃ t, k = .next t) : ∃ t, whenMayIssue s k = .next t := by
  cases hm : s.mayIssue with
  | false => exact ⟨s, whenMayIssue_eq_next.2 (.inl ⟨hm, rfl⟩)⟩
  | true => exact hk.imp fun _ hk => whenMayIssue_eq_next.2 (.inr ⟨hm, hk⟩)

theorem whenConfigured_next {q : Port} {k : Res State} (hk : ∃ t, k = .next t) : ∃ t, whenConfigured q s k = .next t := by
  refine whenMayIssue_next ?_
  split
  · exact hk
  · exact ⟨_, rfl⟩

theorem exec_next (h : QueueInv s) (i : Instr) : ∃ t, exec i s = .next t := by
  cases i with
  | cfg p baud => exact whenMayIssue_next ⟨_, rfl⟩
  | push b => exact whenConfigured_next (andThen_next_of (pushByte_next h b) fun _ => ⟨_, rfl⟩)
  | pop => exact whenConfigured_next (andThen_next_of (popByte_next h) fun _ => ⟨_, rfl⟩)
  | drain | rdblk | depth => exact whenConfigured_next ⟨_, rfl⟩

theorem issue_next (h : QueueInv s) (w : Word) : ∃ t, issue w s = .next t := by
  cases hd : decode w with
  | instr i => rw [issue_of_instr hd]; exact exec_next h i
  | illegal why => exact ⟨_, issue_of_illegal hd⟩

theorem issueNext_next (h : QueueInv s) : ∃ t, issueNext s = .next t := by
  unfold issueNext
  split
  · exact ⟨s, rfl⟩
  · rename_i w ws _
    exact issue_next (s := { s with program := ws }) (queueInv_congr h rfl rfl rfl rfl rfl) w

theorem drainSlot_next (h : QueueInv s) : ∃ t, drainSlot s = .next t := by
  unfold drainSlot
  split
  · refine andThen_next_of (popByte_next h) fun r => ?_
    split <;> exact ⟨_, rfl⟩
  · exact ⟨_, rfl⟩

/-- A ready byte has been written. -/
theorem PortInv.ready_byte {r : PortRegs} (h : PortInv r) (hr : r.rxne = true) : ∃ v, r.rdr = .byte v := by
  cases hd : r.rdr with
  | unspec => exact absurd hd (h.ready_written hr)
  | byte v => exact ⟨v, rfl⟩

theorem blkSlot_next (h : PortInv s.portB) : ∃ t, blkSlot s = .next t := by
  cases hr : s.portB.rxne with
  | false => exact ⟨s, blkSlot_of_notReady hr⟩
  | true =>
    obtain ⟨v, hv⟩ := h.ready_byte hr
    exact ⟨_, blkSlot_of_byte hr hv⟩

theorem isrA_next (hp : PortInv s.portA) (hq : QueueInv s) : ∃ t, isrA s = .next t := by
  cases hi : s.irqA with
  | false => exact ⟨s, isrA_eq_next.2 (.inl ⟨hi, rfl⟩)⟩
  | true =>
    obtain ⟨_, _, _, hr⟩ := irqA_iff.1 hi
    obtain ⟨v, hv⟩ := hp.ready_byte hr
    by_cases hf : s.count = s.par.cap
    · exact ⟨_, isrA_of_full hi hv hf⟩
    · exact ⟨_, isrA_of_room hi hv hf hq.tail_lt⟩

theorem consumerTurn_next (h : MachineInv s) : ∃ t, consumerTurn s = .next t := by
  cases hs : s.shutOut with
  | true => exact ⟨s, by simp [consumerTurn, hs]⟩
  | false =>
    rw [consumerTurn_of_not_shutOut hs]
    unfold consumerAct
    split
    · exact issueNext_next h.queue
    · exact drainSlot_next h.queue
    · exact blkSlot_next h.portB
    · exact ⟨s, rfl⟩

theorem takeTurn_next (h : MachineInv s) (tn : Turn) : ∃ t, takeTurn tn s = .next t := by
  cases tn with
  | wire p b => exact ⟨_, rfl⟩
  | isr => exact isrA_next h.portA h.queue
  | consumer => exact consumerTurn_next h

theorem step_next (h : MachineInv s) : ∃ t, step s = .next t := takeTurn_next (machineInv_dropTurn h) (nextTurn s)

end

/-! ### Runs -/

/-- A run goes on as long as something holds that every step keeps and that lets the next step answer. -/
theorem runFor_next_of {P : State → Prop} (hP : ∀ {s}, P s → ∃ t, step s = .next t ∧ P t) {s : State} (h : P s) (k : Nat) :
    ∃ t, runFor k s = .next t ∧ P t := by
  induction k generalizing s with
  | zero => exact ⟨s, rfl, h⟩
  | succ k ih =>
    obtain ⟨u, hstep, hu⟩ := hP h
    obtain ⟨t, hrun, ht⟩ := ih hu
    exact ⟨t, runFor_succ_eq_next.2 ⟨u, hstep, hrun⟩, ht⟩

theorem step_machineInv {s : State} (h : MachineInv s) : ∃ t, step s = .next t ∧ MachineInv t :=
  (step_next h).imp fun _ hs => ⟨hs, step_keeps_machineInv h hs⟩

/-- Settles O50: the invariant lets the next step answer, and the step keeps it. -/
theorem runsNeverStop : Obligations.RunsNeverStop := fun _ h k =>
  (runFor_next_of step_machineInv h k).imp fun _ ht => ht.1

/-- Settles O51: each step appends what it pushes and takes what it pops from the front, and the sums of a run follow. -/
theorem queueIsFirstInFirstOut : Obligations.QueueIsFirstInFirstOut := by
  intro k
  induction k with
  | zero =>
    intro s t _ _ hrun
    cases hrun
    simp [history]
  | succ k ih =>
    intro s t hinv hc hrun
    obtain ⟨u, hstep, hrun⟩ := runFor_succ_eq_next.1 hrun
    have hnow : contents s ++ pushedBy s = poppedBy s ++ contents u :=
      (step_queueChange hstep).contents_eq hinv.queue hc
    have hthen := ih u t (step_keeps_machineInv hinv hstep) (step_keeps_configured (p := .a) hstep hc) hrun
    rw [history_succ _ _ hstep, history_succ _ _ hstep, ← List.append_assoc, hnow, List.append_assoc, hthen,
      List.append_assoc]

end Sys2Proof.Safety

/-! PROOFS. The bytes of Port A in wire order (41_receive_pipeline.md R117): at each step the byte that waits in the
receive register and the byte that arrives account for what is pushed and for the byte that waits afterwards, some of
them dropped, none of them where no byte is lost. The hazards of 70_reset_and_hazards.md R187 to R189 as they bear on
this. -/

namespace Sys2Proof.Safety

open Sys2Proof.Machine

section

variable {s t : State}

/-! ### The receive register under a turn -/

/-- No issue step but a `CFG A` writes Port A's registers; it does not run twice, and it leaves no byte. -/
theorem issueEffect_portA {i : Instr} (he : IssueEffect s i t) :
    t.portA = s.portA ∨ s.portA.cfgd = false ∧ t.portA.rxne = false := by
  cases he with
  | cfg p baud hu =>
    cases p with
    | a => exact .inr ⟨hu, rfl⟩
    | b => exact .inl rfl
  | unconfigured | reconfig | badBaud | pushFull | pushRoom | popEmpty | popByte | depth | drainZero | drain | rdblkZero
  | rdblk => exact .inl rfl

/-- The consumer leaves a configured Port A alone. -/
theorem turnEffect_consumer_keeps_portA (hc : s.portA.cfgd = true) (he : TurnEffect s .consumer t) :
    t.portA = s.portA := by
  cases he with
  | issue w ws i u hi hp hd hu =>
    exact (issueEffect_portA hu).resolve_right fun hu' => Bool.false_ne_true (hu'.1.symm.trans hc)
  | drainEmpty | drainByte | drainFill | blkByte => exact fillSlot_portA ..
  | held | illegal => rfl

/-- The byte that waits in the registers of a port. -/
theorem pendingByte_congr (h : t.portA = s.portA) : pendingByte t = pendingByte s := by
  simp [pendingByte, h]

theorem pendingByte_of_not_ready (h : s.portA.rxne = false) : pendingByte s = [] := by
  simp [pendingByte, h]

theorem pendingByte_of_ready (h : s.portA.rxne = true) : pendingByte s = [s.portA.rdr] := by
  simp [pendingByte, h]

theorem arrivedBy_of_ne (h : ∀ b, nextTurn s ≠ .wire .a b) : arrivedBy s = [] := by
  unfold arrivedBy
  split
  · rename_i b hb
    exact absurd hb (h b)
  · rfl

theorem arrivedBy_of_wire {b : Byte} (hn : nextTurn s = .wire .a b) (hc : s.portA.cfgd = true) :
    arrivedBy s = [.byte b] := by
  simp [arrivedBy, hn, hc]

/-! ### One step -/

/-- What a step does with the bytes of Port A before the queue: what is pushed and what waits afterwards is some of what
waited and what arrived, and all of it where the step loses nothing. -/
structure KeepsWireOrder (s t : State) : Prop where
  sublist : (pushedBy s ++ pendingByte t).Sublist (pendingByte s ++ arrivedBy s)
  eq_of_lossless : losesByte s = false → pushedBy s ++ pendingByte t = pendingByte s ++ arrivedBy s

theorem keepsWireOrder_of_eq (h : pushedBy s ++ pendingByte t = pendingByte s ++ arrivedBy s) : KeepsWireOrder s t :=
  ⟨h ▸ List.Sublist.refl _, fun _ => h⟩

/-- A step that neither pushes nor receives, and leaves Port A. -/
theorem keepsWireOrder_of_idle (hpush : pushedBy s = []) (hw : ∀ b, nextTurn s ≠ .wire .a b) (hp : t.portA = s.portA) :
    KeepsWireOrder s t :=
  keepsWireOrder_of_eq (by simp [hpush, arrivedBy_of_ne hw, pendingByte_congr hp])

/-- A byte arriving on Port A's wire (41_receive_pipeline.md R111). -/
theorem keepsWireOrder_of_wire {b : Byte} (hn : nextTurn s = .wire .a b) (hc : s.portA.cfgd = true)
    (ht : t.portA = receive s.par.overrun b s.portA) : KeepsWireOrder s t := by
  have hpush := pushedBy_of_wire hn
  have harr := arrivedBy_of_wire hn hc
  cases hr : s.portA.rxne with
  | false =>
    rw [receive_of_free hc hr] at ht
    refine keepsWireOrder_of_eq ?_
    rw [hpush, harr, pendingByte_of_not_ready hr, pendingByte_of_ready (by rw [ht]), ht]
  | true =>
    have hloses : losesByte s = true := by simp [losesByte, overrunsA, hn, hc, hr]
    refine ⟨?_, fun h => absurd (h.symm.trans hloses) Bool.false_ne_true⟩
    rw [hpush, harr, pendingByte_of_ready hr]
    cases hpol : s.par.overrun with
    | keepOld =>
      rw [hpol, receive_keepOld_of_ready hr] at ht
      simp [pendingByte, ht, hr]
    | takeNew =>
      rw [hpol, receive_takeNew_of_ready hc hr] at ht
      simp [pendingByte, ht, hr]

/-- A run of the handler (41_receive_pipeline.md R112, R113). -/
theorem keepsWireOrder_of_isr (hn : nextTurn s = .isr) (hq : s.irqA = true) (ht : t.portA.rxne = false) :
    KeepsWireOrder s t := by
  obtain ⟨_, _, _, hr⟩ := irqA_iff.1 hq
  have harr : arrivedBy s = [] := arrivedBy_of_ne (by simp [hn])
  cases hf : s.full with
  | false =>
    refine keepsWireOrder_of_eq ?_
    simp [pushedBy_of_isr hn, hq, hf, harr, pendingByte_of_ready hr, pendingByte_of_not_ready ht]
  | true =>
    have hloses : losesByte s = true := by simp [losesByte, dropsByte, hn, hq, hf]
    refine ⟨?_, fun h => absurd (h.symm.trans hloses) Bool.false_ne_true⟩
    simp [pushedBy_of_isr hn, hf, pendingByte_of_not_ready ht]

/-- Without `PUSH` in the program the consumer pushes nothing (70_reset_and_hazards.md R187). -/
theorem issued_ne_push (h : NoPush s) (b : Byte) : issued s ≠ some (.push b) := by
  intro hi
  obtain ⟨_, _, w, ws, hp, hd⟩ := issued_eq_some_iff.1 hi
  exact h w (hp ▸ List.mem_cons_self) b hd

theorem issued_ne_pop (h : NoPop s) : issued s ≠ some .pop := by
  intro hi
  obtain ⟨_, _, w, ws, hp, hd⟩ := issued_eq_some_iff.1 hi
  exact h w (hp ▸ List.mem_cons_self) hd

theorem step_keepsWireOrder (hc : s.portA.cfgd = true) (hp : NoPush s) (h : step s = .next t) : KeepsWireOrder s t := by
  have he := step_cases h
  cases hn : nextTurn s with
  | wire p b =>
    rw [hn] at he
    cases p with
    | a =>
      refine keepsWireOrder_of_wire hn hc ?_
      cases he with
      | held _ hen => cases hen
      | wire => rfl
    | b =>
      refine keepsWireOrder_of_idle (pushedBy_of_wire hn) (by simp [hn]) ?_
      cases he with
      | held => rfl
      | wire => rfl
  | isr =>
    rw [hn] at he
    cases he with
    | held _ hen => exact keepsWireOrder_of_idle (pushedBy_of_not_enabled (hn ▸ hen)) (by simp [hn]) rfl
    | isrFull v hq => exact keepsWireOrder_of_isr hn hq rfl
    | isrPush v hq => exact keepsWireOrder_of_isr hn hq rfl
  | consumer =>
    rw [hn] at he
    exact keepsWireOrder_of_idle (pushedBy_of_consumer hn (issued_ne_push hp)) (by simp [hn])
      (turnEffect_consumer_keeps_portA (s := dropTurn s) hc he)

theorem step_keeps_noPush (hp : NoPush s) (h : step s = .next t) : NoPush t :=
  fun w hw => hp w (mem_program_of_step h hw)

theorem step_keeps_noPop (hp : NoPop s) (h : step s = .next t) : NoPop t :=
  fun w hw => hp w (mem_program_of_step h hw)

end

/-! ### Runs -/

/-- The bytes pushed in a run, then the unread one, are some of the unread one and those that arrived, in the same
order. -/
theorem pushed_sublist_arrived (k : Nat) {s t : State} (hc : s.portA.cfgd = true) (hp : NoPush s)
    (hrun : runFor k s = .next t) :
    (history pushedBy k s ++ pendingByte t).Sublist (pendingByte s ++ history arrivedBy k s) := by
  induction k generalizing s with
  | zero =>
    cases hrun
    simp [history]
  | succ k ih =>
    obtain ⟨u, hstep, hrun⟩ := runFor_succ_eq_next.1 hrun
    have hthen := ih (step_keeps_configured (p := .a) hstep hc) (step_keeps_noPush hp hstep) hrun
    rw [history_succ _ _ hstep, history_succ _ _ hstep, List.append_assoc, ← List.append_assoc (pendingByte s)]
    refine (hthen.append_left (pushedBy s)).trans ?_
    rw [← List.append_assoc]
    exact (step_keepsWireOrder hc hp hstep).sublist.append_right _

/-- They are all of them where the run loses no byte. -/
theorem pushed_eq_arrived (k : Nat) {s t : State} (hc : s.portA.cfgd = true) (hp : NoPush s) (hrun : runFor k s = .next t)
    (hl : lossless k s = true) :
    history pushedBy k s ++ pendingByte t = pendingByte s ++ history arrivedBy k s := by
  induction k generalizing s with
  | zero =>
    cases hrun
    simp [history]
  | succ k ih =>
    obtain ⟨u, hstep, hrun⟩ := runFor_succ_eq_next.1 hrun
    rw [lossless, never_succ _ _ hstep, Bool.and_eq_true, Bool.not_eq_true'] at hl
    obtain ⟨hnow, hlater⟩ := hl
    have hthen := ih (step_keeps_configured (p := .a) hstep hc) (step_keeps_noPush hp hstep) hrun hlater
    rw [history_succ _ _ hstep, history_succ _ _ hstep, List.append_assoc, hthen, ← List.append_assoc,
      (step_keepsWireOrder hc hp hstep).eq_of_lossless hnow, List.append_assoc]

/-- The sums of two observations of a run agree if the observations do, along every run from such a state. -/
theorem history_congr {P : State → Prop} {f g : State → List Datum} (hP : ∀ {s t}, P s → step s = .next t → P t)
    (hfg : ∀ {s}, P s → f s = g s) (k : Nat) {s : State} (h : P s) : history f k s = history g k s := by
  induction k generalizing s with
  | zero => rfl
  | succ k ih =>
    unfold history
    rw [hfg h]
    cases hstep : step s with
    | next t => exact congrArg (g s ++ ·) (ih (hP h hstep))
    | fault e => rfl
    | refused e => rfl

/-- Without `PUSH` every byte pushed is the handler's. -/
theorem pushedBy_eq_handedBy {s : State} (h : NoPush s) : pushedBy s = handedBy s := by
  unfold handedBy
  split
  · rfl
  · rename_i hn
    cases ht : nextTurn s with
    | wire p b => exact pushedBy_of_wire ht
    | isr => exact absurd ht hn
    | consumer => exact pushedBy_of_consumer ht (issued_ne_push h)

/-- Without `POP` every byte popped is a drain's. -/
theorem poppedBy_eq_drainedBy {s : State} (h : NoPop s) : poppedBy s = drainedBy s := by
  unfold drainedBy
  split
  · rfl
  · rename_i ho
    refine poppedBy_of_not_popsQueue (Bool.eq_false_iff.2 fun hq => ?_)
    by_cases hn : nextTurn s = .consumer
    · obtain ⟨_, ⟨hd, _⟩ | ⟨hi, _⟩⟩ := (popsQueue_of_consumer hn).1 hq
      · exact ho hd
      · exact issued_ne_pop h hi
    · simp [popsQueue_of_not_consumer hn] at hq

/-- Settles O52: the queue keeps the order of what is pushed, and what is pushed keeps the order of the wire. -/
theorem bytesKeepTheirWireOrder : Obligations.BytesKeepTheirWireOrder := by
  refine ⟨fun k s t hinv hc hp hrun => ?order, fun k s h =>
    ⟨history_congr step_keeps_noPush pushedBy_eq_handedBy k h.no_push,
      history_congr step_keeps_noPop poppedBy_eq_drainedBy k h.no_pop⟩⟩
  case order =>
    rw [← queueIsFirstInFirstOut k s t hinv hc hrun, List.append_assoc, List.append_assoc]
    exact (pushed_sublist_arrived k hc hp hrun).append_left _

/-! ### The rate premise (70_reset_and_hazards.md R188) -/

/-- The steps to come keep the premise `P_RATE_A`, also after the byte that waits unread: the handler runs before the
next byte on Port A's wire. -/
structure RateHeld (s : State) (steps : List Turn) : Prop where
  rate : RateA steps
  unread : s.portA.rxne = true → ∀ between after c, steps = between ++ .wire .a c :: after → .isr ∈ between

section

variable {s t : State}

/-- Only Port A's wire makes a byte ready, and a run of the handler leaves none. -/
theorem turnEffect_ready {tn : Turn} (he : TurnEffect s tn t) (hw : ∀ b, tn ≠ .wire .a b) (hr : t.portA.rxne = true) :
    s.portA.rxne = true ∧ (tn = .isr → tn.enabled s = false) := by
  cases he with
  | held _ hen => exact ⟨hr, fun _ => hen⟩
  | wire p b =>
    cases p with
    | a => exact absurd rfl (hw b)
    | b => exact ⟨hr, nofun⟩
  | isrFull | isrPush => cases hr
  | illegal => exact ⟨hr, nofun⟩
  | issue w ws i u hi hp hd hu =>
    rcases issueEffect_portA hu with hp | ⟨_, hnone⟩
    · exact ⟨hp ▸ hr, nofun⟩
    · exact absurd (hnone.symm.trans hr) Bool.false_ne_true
  | drainEmpty | drainByte | drainFill | blkByte => exact ⟨by rwa [fillSlot_portA] at hr, nofun⟩

/-- The steps of a run, the first of them apart. -/
theorem stepsTaken_succ_eq (k : Nat) (s : State) :
    ∃ rest, stepsTaken (k + 1) s = (if (nextTurn s).enabled s then [nextTurn s] else []) ++ rest := ⟨_, rfl⟩

/-- Under the premise the next step is no overrun: a byte that waits unread keeps the next one off the wire. -/
theorem overrunsA_of_rateHeld {k : Nat} (h : RateHeld s (stepsTaken (k + 1) s)) : overrunsA s = false := by
  refine Bool.eq_false_iff.2 fun ho => ?_
  obtain ⟨rest, hrest⟩ := stepsTaken_succ_eq k s
  unfold overrunsA at ho
  split at ho
  · rename_i b hn
    rw [hn] at hrest
    have hmem : Turn.isr ∈ [] := h.unread (Bool.and_eq_true_iff.1 ho).2 [] rest b hrest
    cases hmem
  · cases ho

/-- The premise, one step later. -/
theorem rateHeld_step {steps : List Turn} (hstep : step s = .next t)
    (h : RateHeld s ((if (nextTurn s).enabled s then [nextTurn s] else []) ++ steps)) : RateHeld t steps := by
  have he := step_cases hstep
  cases hen : (nextTurn s).enabled s with
  | false =>
    rw [if_neg (by simp [hen]), List.nil_append] at h
    refine ⟨h.rate, fun hr => h.unread ?_⟩
    have hw : ∀ b, nextTurn s ≠ .wire .a b := fun b hb => by simp [hb, Turn.enabled] at hen
    exact (turnEffect_ready he hw hr).1
  | true =>
    rw [if_pos (by simp [hen]), List.singleton_append] at h
    obtain ⟨hrate, hunread⟩ := h
    by_cases hw : ∃ b, nextTurn s = .wire .a b
    · obtain ⟨b, hn⟩ := hw
      rw [hn, rateA_cons_wire] at hrate
      exact ⟨hrate.1, fun _ => hrate.2⟩
    · have hw' : ∀ b, nextTurn s ≠ .wire .a b := fun b hb => hw ⟨b, hb⟩
      refine ⟨(rateA_cons_other hw').1 hrate, fun hr between after c hsteps => ?_⟩
      obtain ⟨hready, hisr⟩ := turnEffect_ready he hw' hr
      have hmem := hunread hready (nextTurn s :: between) after c (by rw [hsteps]; rfl)
      refine (List.mem_cons.1 hmem).resolve_left fun hn => ?_
      exact Bool.false_ne_true ((hisr hn.symm).symm.trans hen)

theorem never_overrunsA_of_rateHeld (k : Nat) (h : RateHeld s (stepsTaken k s)) : never overrunsA k s = true := by
  induction k generalizing s with
  | zero => rfl
  | succ k ih =>
    have hnow := overrunsA_of_rateHeld h
    unfold never
    rw [hnow]
    cases hstep : step s with
    | next t =>
      rw [stepsTaken_succ k hstep] at h
      exact ih (rateHeld_step hstep h)
    | fault e => rfl
    | refused e => rfl

/-- A byte is lost in the receive register or at the queue. -/
theorem lossless_of_never (k : Nat) (ho : never overrunsA k s = true) (hd : depthKept k s = true) : lossless k s = true := by
  induction k generalizing s with
  | zero => rfl
  | succ k ih =>
    unfold depthKept at hd
    unfold lossless
    unfold never at ho hd ⊢
    obtain ⟨ho, ho'⟩ := Bool.and_eq_true_iff.1 ho
    obtain ⟨hd, hd'⟩ := Bool.and_eq_true_iff.1 hd
    rw [Bool.not_eq_true'] at ho hd
    have hnow : losesByte s = false := by rw [losesByte, ho, hd]; rfl
    rw [hnow]
    cases hstep : step s with
    | next t =>
      rw [hstep] at ho' hd'
      exact ih ho' hd'
    | fault e => rfl
    | refused e => rfl

end

/-- Settles O53: with no byte lost each step's sublist is the whole, and the rate premise keeps the register free
whenever a byte arrives. -/
theorem nothingIsMissingWithoutALoss : Obligations.NothingIsMissingWithoutALoss := by
  refine ⟨fun k s t hinv hc hp hrun hl => ?whole, fun k s hr hrate => ?hazards⟩
  case whole =>
    rw [← queueIsFirstInFirstOut k s t hinv hc hrun, List.append_assoc, List.append_assoc,
      pushed_eq_arrived k hc hp hrun hl]
  case hazards =>
    have hover := never_overrunsA_of_rateHeld k ⟨hrate, fun h => absurd (hr.symm.trans h) Bool.false_ne_true⟩
    exact ⟨hover, lossless_of_never k hover⟩

end Sys2Proof.Safety

/-! PROOFS. Steps run forward: whose turn a step takes, what a held turn does, which command a consumer's turn runs, and
that each effect an issue step or a turn can have is the answer of that step (the converse of `exec_cases` and
`takeTurn_cases`). -/

namespace Sys2Proof.Machine

open Sys2Proof.Safety

section

variable {s t : State}

/-! ### Turns -/

theorem nextTurn_of_cons {tn : Turn} {rest : List Turn} (h : s.sched = tn :: rest) : nextTurn s = tn := by
  simp [nextTurn, h]

theorem nextTurn_of_nil (h : s.sched = []) : nextTurn s = if s.irqA then .isr else .consumer := by
  simp [nextTurn, h]

theorem step_of_nextTurn {tn : Turn} (h : nextTurn s = tn) : step s = takeTurn tn (dropTurn s) := by
  rw [step, h]

/-- Without a schedule no turn is taken off it. -/
theorem dropTurn_of_nil (h : s.sched = []) : dropTurn s = s := by
  rw [dropTurn, h, List.tail_nil, ← h]

/-- The turn of an agent with no enabled step changes nothing (00_scope.md R12). -/
theorem takeTurn_of_not_enabled {tn : Turn} (h : tn.enabled s = false) : takeTurn tn s = .next s := by
  cases tn with
  | wire p b => cases h
  | isr => exact isrA_eq_next.2 (.inl ⟨h, rfl⟩)
  | consumer =>
    cases hs : s.shutOut with
    | true => simp [takeTurn, consumerTurn, hs]
    | false =>
      refine (consumerTurn_of_not_shutOut hs).trans ?_
      cases ho : s.seq.op with
      | idle =>
        have hp : s.program = [] := by simpa [Turn.enabled, hs, ho] using h
        simp [consumerAct, ho, issueNext, hp]
      | drain => simp [Turn.enabled, hs, ho] at h
      | blk =>
        have hr : s.portB.rxne = false := by simpa [Turn.enabled, hs, ho] using h
        simp [consumerAct, ho, blkSlot_of_notReady hr]
      | fault => simp [consumerAct, ho]

theorem exec_of_not_mayIssue {i : Instr} (hm : s.mayIssue = false) : exec i s = .next s := by
  cases i <;> exact if_neg (by simp [hm])

/-! ### The consumer's turn -/

theorem consumerTurn_of_word {w : Word} {ws : List Word} (hm : s.mayIssue = true) (hp : s.program = w :: ws) :
    consumerTurn s = issue w { s with program := ws } := by
  obtain ⟨ho, hs⟩ := mayIssue_iff.1 hm
  simp [consumerTurn, hs, consumerAct, ho, issueNext, hp]

theorem consumerTurn_of_drain_op (hs : s.shutOut = false) (ho : s.seq.op = .drain) : consumerTurn s = drainSlot s :=
  consumerTurn_of_drain ho ((drain_enabled_iff_shutOut ho).2 hs)

theorem consumerTurn_of_blk_op (hs : s.shutOut = false) (ho : s.seq.op = .blk) : consumerTurn s = blkSlot s := by
  rw [consumerTurn_of_blk ho, hs, if_neg Bool.false_ne_true]

/-! ### Every effect is an answer -/

theorem exec_of_effect {i : Instr} (hm : s.mayIssue = true) (he : IssueEffect s i t) : exec i s = .next t := by
  cases he with
  | unconfigured _ h =>
    rcases h with ⟨hr, hcfg, hc⟩ | ⟨⟨n, rfl⟩, hc⟩
    · refine exec_of_unconfigured hm hcfg ?_
      cases i with
      | rdblk n => exact absurd rfl (hr n)
      | cfg | push | pop | drain | depth => exact hc
    · exact exec_of_unconfigured (i := .rdblk n) hm nofun hc
  | reconfig p baud hc => exact exec_cfg_of_configured hm hc
  | badBaud p baud hc hb => exact exec_cfg_of_unsupported hm hc hb
  | cfg p baud hc hb => exact exec_cfg_of_supported hm hc hb
  | pushFull b hc hf => rw [exec_push_of_configured hm hc, pushByte_of_full (full_iff.1 hf), andThen_next]
  | pushRoom b hc hf hlt =>
    rw [exec_push_of_configured hm hc, pushByte_of_room (full_false.1 hf) hlt, andThen_next]
    rfl
  | popEmpty hc he => rw [exec_pop_of_configured hm hc, popByte_of_empty (empty_iff.1 he), andThen_next, popResp]
  | popByte v hc he hlt hv =>
    rw [exec_pop_of_configured hm hc, popByte_of_byte (empty_false.1 he) hlt hv, andThen_next]
    rfl
  | depth hc => exact exec_depth_of_configured hm hc
  | drainZero hc => rw [exec_drain_of_configured hm hc, if_pos rfl]
  | drain n hc hn => rw [exec_drain_of_configured hm hc, if_neg hn]
  | rdblkZero hc => rw [exec_rdblk_of_configured hm hc, if_pos rfl]
  | rdblk n hc hn => rw [exec_rdblk_of_configured hm hc, if_neg hn]

theorem takeTurn_of_effect {tn : Turn} (he : TurnEffect s tn t) : takeTurn tn s = .next t := by
  cases he with
  | held _ h => exact takeTurn_of_not_enabled h
  | wire p b => rfl
  | isrFull v hq hv hf => exact isrA_of_full hq hv (full_iff.1 hf)
  | isrPush v hq hv hf hlt => exact isrA_of_room hq hv (full_false.1 hf) hlt
  | illegal w ws why hi hp hd => exact (consumerTurn_of_word hi hp).trans (issue_of_illegal hd)
  | issue w ws i u hi hp hd hu =>
    have hexec : exec i { s with program := ws } = .next t := exec_of_effect (s := { s with program := ws }) hi hu
    exact (consumerTurn_of_word hi hp).trans ((issue_of_instr hd).trans hexec)
  | drainEmpty hs ho hph he =>
    have hen := (drain_enabled_iff_shutOut ho).2 hs
    exact (consumerTurn_of_drain_pop ho hph hen).trans (drainPopSlot_eq_next.2 (.inl ⟨he, rfl⟩))
  | drainByte v hs ho hph he hlt hv =>
    have hen := (drain_enabled_iff_shutOut ho).2 hs
    exact (consumerTurn_of_drain_pop ho hph hen).trans (drainPopSlot_eq_next.2 (.inr ⟨he, hlt, v, hv, rfl⟩))
  | drainFill hs ho hph => exact consumerTurn_of_drain_fill ho hph ((drain_enabled_iff_shutOut ho).2 hs)
  | blkByte v hs ho hr hv => exact consumerTurn_of_blk_byte ho ((blk_enabled_iff_shutOut ho).2 ⟨hr, hs⟩) hv

end

/-- Settles O7: the turn picks the agent, and an enabled issue step takes the first word and decodes it. -/
theorem stepRunsTheDecodedCommand : Obligations.StepRunsTheDecodedCommand := by
  refine fun s => ⟨fun w ws hn hm hp => ?issue, fun _ _ => step_of_nextTurn, step_of_nextTurn, fun hn hs =>
    ⟨fun ho => ?drain, fun ho => ?blk⟩⟩
  case issue =>
    have hstep : step s = issue w { dropTurn s with program := ws } :=
      (step_of_nextTurn hn).trans (consumerTurn_of_word (s := dropTurn s) hm hp)
    exact ⟨fun i hd => hstep.trans (issue_of_instr hd), fun why hd => hstep.trans (issue_of_illegal hd)⟩
  case drain => exact (step_of_nextTurn hn).trans (consumerTurn_of_drain_op (s := dropTurn s) hs ho)
  case blk => exact (step_of_nextTurn hn).trans (consumerTurn_of_blk_op (s := dropTurn s) hs ho)

/-- Settles O8: the first turn of the schedule, or with none the handler's if it is requested. -/
theorem turnsFollowTheSchedule : Obligations.TurnsFollowTheSchedule := by
  refine ⟨fun s tn rest h => ?scheduled, fun s h hq => ?handler, fun s h hq => ?consumer⟩
  case scheduled => rw [step_of_nextTurn (nextTurn_of_cons h), dropTurn, h, List.tail_cons]
  case handler =>
    rw [step_of_nextTurn (nextTurn_of_nil h), dropTurn_of_nil h, hq]
    rfl
  case consumer =>
    rw [step_of_nextTurn (nextTurn_of_nil h), dropTurn_of_nil h, hq]
    rfl

/-- Settles O9: the placed word is the first of the program, and the turn placed with it is the consumer's. -/
theorem placedWordIsIssuedNext : Obligations.PlacedWordIsIssuedNext := by
  intro s nbits w hm
  have hstep : step (s.withFetchWord nbits w) = issue (tableWord nbits w) s :=
    consumerTurn_of_word (s := dropTurn (placeWord (tableWord nbits w) s)) hm rfl
  refine ⟨hstep, fun i hi => hstep.trans (issue_of_instr ?_)⟩
  unfold decodeTableWord at hi
  split at hi
  · rename_i j hj
    rw [hj, Option.some.inj hi]
  · cases hi

/-- Settles O11: for each agent the condition of `Turn.enabled` is the guard of its step. -/
theorem disabledAgentIsHeld : Obligations.DisabledAgentIsHeld := by
  refine ⟨fun tn s h => ⟨takeTurn_of_not_enabled h, fun t hn hstep => ?step⟩, fun _ => takeTurn_of_not_enabled (tn := .isr),
    fun s hs => takeTurn_of_not_enabled (tn := .consumer) (consumer_not_enabled_of_shutOut hs),
    fun _ _ => exec_of_not_mayIssue⟩
  case step =>
    have hheld : step s = .next (dropTurn s) :=
      (step_of_nextTurn hn).trans (takeTurn_of_not_enabled (s := dropTurn s) h)
    exact (Host.Outcome.next.inj (hheld.symm.trans hstep)).symm

end Sys2Proof.Machine

/-! PROOFS. Frames (10_state.md section 6): what each command's issue step leaves unchanged whatever its outcome, what
the turns of the other agents leave to the consumer, where a step writes memory, and what it leaves in `RESP`. -/

namespace Sys2Proof.Machine

open Sys2Proof.Safety

/-! ### Issue steps -/

/-- Settles O13: a `CFG` is held, raises a fault, or writes what `configured` writes. -/
theorem cfgFrame : Obligations.CfgFrame := by
  intro s t p baud h
  rcases exec_cases h with ⟨_, rfl⟩ | ⟨_, he⟩
  · exact ⟨fun _ => rfl, fun _ => rfl, rfl, rfl, rfl, rfl, rfl, rfl, rfl, .inl rfl, fun _ => rfl,
      fun _ => ⟨rfl, rfl, rfl, rfl, rfl, rfl⟩⟩
  · cases he with
    | unconfigured _ hu => simp at hu
    | reconfig =>
      exact ⟨fun _ => rfl, fun _ => rfl, rfl, rfl, rfl, rfl, rfl, rfl, rfl, .inr ⟨rfl, .inl rfl⟩, fun _ => rfl,
        fun _ => ⟨rfl, rfl, rfl, rfl, rfl, rfl⟩⟩
    | badBaud =>
      exact ⟨fun _ => rfl, fun _ => rfl, rfl, rfl, rfl, rfl, rfl, rfl, rfl, .inr ⟨rfl, .inr rfl⟩, fun _ => rfl,
        fun _ => ⟨rfl, rfl, rfl, rfl, rfl, rfl⟩⟩
    | cfg =>
      cases p with
      | a => exact ⟨fun _ => rfl, fun _ => rfl, rfl, rfl, rfl, rfl, rfl, rfl, rfl, .inl rfl, fun _ => rfl, nofun⟩
      | b =>
        exact ⟨fun _ => rfl, fun _ => rfl, rfl, rfl, rfl, rfl, rfl, rfl, rfl, .inl rfl, nofun,
          fun _ => ⟨rfl, rfl, rfl, rfl, rfl, rfl⟩⟩

/-- Settles O24: a `PUSH` is held, raises a fault, finds a full queue, or stores at `tail`. -/
theorem pushFrame : Obligations.PushFrame := by
  intro s t b h
  rcases exec_cases h with ⟨_, rfl⟩ | ⟨hm, he⟩
  · exact ⟨fun _ _ => rfl, fun _ _ => rfl, fun _ => rfl, rfl, rfl, rfl, rfl, rfl, rfl, rfl, rfl, .inl rfl⟩
  · cases he with
    | unconfigured =>
      exact ⟨fun _ _ => rfl, fun _ _ => rfl, fun _ => rfl, rfl, rfl, rfl, rfl, rfl, rfl, rfl, rfl, .inr rfl⟩
    | pushFull =>
      exact ⟨fun _ _ => rfl, fun _ _ => rfl, fun _ => rfl, rfl, rfl, rfl, rfl, rfl, rfl, rfl, rfl, .inl rfl⟩
    | pushRoom _ hc hf =>
      exact ⟨fun a => read_write_of_ne_pushSlot (full_false.1 hf), by simp [hm, hc], fun _ => rfl, rfl, rfl, rfl, rfl, rfl,
        rfl, rfl, rfl, .inl rfl⟩

section

variable {s t : State} {i : Instr} (hcfg : ∀ p baud, i ≠ .cfg p baud) (he : IssueEffect s i t)
include hcfg he

/-- Every command but `CFG` leaves the ports and the enables, and every one but `PUSH` as well leaves the storage and
`tail`. -/
theorem issueEffect_registers (hpush : ∀ b, i ≠ .push b) :
    t.store = s.store ∧ t.tail = s.tail ∧ t.portA = s.portA ∧ t.portB = s.portB ∧ t.rxneieA = s.rxneieA ∧
      t.hregA = s.hregA := by
  cases he with
  | reconfig p baud | badBaud p baud | cfg p baud => exact absurd rfl (hcfg p baud)
  | pushFull b | pushRoom b => exact absurd rfl (hpush b)
  | unconfigured | popEmpty | popByte | depth | drainZero | drain | rdblkZero | rdblk =>
    exact ⟨rfl, rfl, rfl, rfl, rfl, rfl⟩

/-- Besides `CFG` and `PUSH`, only `POP` moves the queue. -/
theorem issueEffect_head_count (hpush : ∀ b, i ≠ .push b) (hpop : i ≠ .pop) : t.head = s.head ∧ t.count = s.count := by
  cases he with
  | reconfig p baud | badBaud p baud | cfg p baud => exact absurd rfl (hcfg p baud)
  | pushFull b | pushRoom b => exact absurd rfl (hpush b)
  | popEmpty | popByte => exact absurd rfl hpop
  | unconfigured | depth | drainZero | drain | rdblkZero | rdblk => exact ⟨rfl, rfl⟩

/-- Besides `CFG`, only the two reads write `SEQ`, but for `F_UNCONFIGURED`. -/
theorem issueEffect_seq (hdrain : ∀ n, i ≠ .drain n) (hrdblk : ∀ n, i ≠ .rdblk n) :
    t.seq = s.seq ∨ t.seq = { s.seq with op := .fault, code := .unconfigured } := by
  cases he with
  | reconfig p baud | badBaud p baud | cfg p baud => exact absurd rfl (hcfg p baud)
  | drainZero | drain => exact absurd rfl (hdrain _)
  | rdblkZero | rdblk => exact absurd rfl (hrdblk _)
  | unconfigured => exact .inr rfl
  | pushFull | pushRoom | popEmpty | popByte | depth => exact .inl rfl

/-- Besides `CFG`, a command changes the fault code to `F_UNCONFIGURED` only. -/
theorem issueEffect_code : t.seq.code = s.seq.code ∨ t.seq.code = .unconfigured := by
  cases he with
  | reconfig p baud | badBaud p baud | cfg p baud => exact absurd rfl (hcfg p baud)
  | unconfigured => exact .inr rfl
  | pushFull | pushRoom | popEmpty | popByte | depth | drainZero | drain | rdblkZero | rdblk => exact .inl rfl

end

/-- Settles O25: the four commands are held, or their effects leave memory and everything but their own registers. -/
theorem registerCommandsFrame : Obligations.RegisterCommandsFrame := by
  intro s t i hi h
  have hcfg : ∀ p baud, i ≠ .cfg p baud := by rintro p baud rfl; simp at hi
  have hpush : ∀ b, i ≠ .push b := by rintro b rfl; simp at hi
  have hresp : i ≠ .pop → i ≠ .depth → t.resp = s.resp := fun hpop hdepth => exec_keeps_resp hpush hpop hdepth h
  rcases exec_cases h with ⟨_, rfl⟩ | ⟨_, he⟩
  · exact ⟨fun _ => rfl, fun _ => rfl, rfl, rfl, rfl, rfl, rfl, rfl, rfl, rfl, fun _ => ⟨rfl, rfl⟩, hresp,
      fun _ => .inl rfl, .inl rfl⟩
  · obtain ⟨hstore, htail, ha, hb, hie, hreg⟩ := issueEffect_registers hcfg he hpush
    obtain ⟨hpar, hbuf, hprogram, hsched⟩ := issueEffect_frame he
    refine ⟨fun _ => by rw [hstore], fun _ => by rw [hbuf], htail, ha, hb, hie, hreg, hpar, hprogram, hsched,
      issueEffect_head_count hcfg he hpush, hresp, ?_, issueEffect_code hcfg he⟩
    rintro (rfl | rfl)
    · exact issueEffect_seq hcfg he nofun nofun
    · exact issueEffect_seq hcfg he nofun nofun

/-! ### The other agents -/

/-- Settles O38: a wire writes its own port's data registers, the handler the producer's side of the queue and
`RXNE[A]`. -/
theorem otherAgentsLeaveTheConsumerAlone : Obligations.OtherAgentsLeaveTheConsumerAlone := by
  intro s t tn h hn
  cases takeTurn_cases h with
  | held =>
    exact ⟨rfl, rfl, rfl, rfl, rfl, rfl, rfl, rfl, rfl, rfl, rfl, rfl, rfl, fun _ => rfl, fun _ _ => rfl, fun _ _ => rfl⟩
  | wire p b =>
    have hcfg := sameConfig_wire p b s
    refine ⟨wire_seq .., wire_resp .., wire_buf .., wire_head .., wire_program .., wire_sched .., wire_par .., wire_rxneieA ..,
      wire_hregA .., hcfg.cfgd .a, hcfg.cfgd .b, hcfg.baud .a, hcfg.baud .b, nofun, ?_, ?_⟩
    · rintro c ⟨⟩
      rfl
    · rintro c ⟨⟩
      rfl
  | isrFull | isrPush =>
    exact ⟨rfl, rfl, rfl, rfl, rfl, rfl, rfl, rfl, rfl, rfl, rfl, rfl, rfl, fun _ => rfl, nofun, nofun⟩
  | illegal | issue | drainEmpty | drainByte | drainFill | blkByte => exact absurd rfl hn

/-! ### Memory -/

section

variable {s t : State}

/-- A turn leaves the buffer, or is a slot step of the consumer, which writes slot `SEQ.i`. -/
theorem turnEffect_buf {tn : Turn} (he : TurnEffect s tn t) :
    t.buf = s.buf ∨
      tn = .consumer ∧ (s.seq.op = .drain ∨ s.seq.op = .blk) ∧ ∃ v, t.buf = Mem.write s.buf s.seq.i.toNat v := by
  cases he with
  | wire p b => exact .inl (wire_buf ..)
  | issue w ws i u hi hp hd hu => exact .inl (issueEffect_frame hu).buf
  | drainEmpty _ ho | drainByte _ _ ho | drainFill _ ho => exact .inr ⟨rfl, .inl ho, _, fillSlot_buf ..⟩
  | blkByte _ _ ho => exact .inr ⟨rfl, .inr ho, _, fillSlot_buf ..⟩
  | held | isrFull | isrPush | illegal => exact .inl rfl

end

/-- Settles O56: the storage is written by a push only, at `tail`, and the buffer by a slot step only, at `SEQ.i`. -/
theorem memoryIsWrittenOnlyInPlace : Obligations.MemoryIsWrittenOnlyInPlace := by
  intro s t h
  have hq := step_queueChange h
  refine ⟨fun a ha => hq.read_store (.inl ha), fun hp a => hq.read_store (.inr hp), ?_⟩
  rcases turnEffect_buf (step_cases h) with hbuf | ⟨hn, ho, v, hbuf⟩
  · have hsame (a : Nat) : Mem.read t.buf a = Mem.read s.buf a := congrArg (Mem.read · a) hbuf
    exact ⟨fun a _ => hsame a, fun _ => hsame⟩
  · refine ⟨fun a ha => ?_, fun hno => ?_⟩
    · rw [hbuf]
      exact Mem.read_write_ne _ _ ha
    · have ho : s.seq.op = .drain ∨ s.seq.op = .blk := ho
      rcases hno with hno | hno | hno
      · exact absurd hn hno
      · simp [hno] at ho
      · simp [hno] at ho

/-! ### The response word (30_encoding.md R77) -/

theorem respWord_fields (st : Bool) (val : Len) :
    (respWord st val).getLsbD 31 = st ∧ (respWord st val).extractLsb' 24 7 = 0#7 ∧
      (respWord st val).extractLsb' 0 24 = val := by
  unfold respWord
  refine ⟨?_, (BitVec.extractLsb'_append_eq_of_le (Nat.le_refl 24)).trans BitVec.extractLsb'_append_eq_right,
    BitVec.extractLsb'_append_eq_right⟩
  simp only [BitVec.getLsbD_append]
  simp

section

variable {s t : State}

/-- An issue step leaves `RESP` or writes a packed response. -/
theorem issueEffect_resp_packed {i : Instr} (he : IssueEffect s i t) :
    t.resp = s.resp ∨ ∃ st val, t.resp = respWord st val := by
  cases he with
  | cfg p baud => exact .inl (configured_resp p baud s)
  | pushFull | pushRoom | popEmpty | popByte | depth => exact .inr ⟨_, _, rfl⟩
  | unconfigured | reconfig | badBaud | drainZero | drain | rdblkZero | rdblk => exact .inl rfl

/-- Only an issue step of a command writes `RESP`. -/
theorem turnEffect_resp {tn : Turn} (he : TurnEffect s tn t) :
    t.resp = s.resp ∨ tn = .consumer ∧ s.mayIssue = true ∧ ∃ w ws i, s.program = w :: ws ∧ decode w = .instr i ∧
      IssueEffect { s with program := ws } i t := by
  cases he with
  | wire p b => exact .inl (wire_resp ..)
  | issue w ws i u hi hp hd hu => exact .inr ⟨rfl, hi, w, ws, i, hp, hd, hu⟩
  | drainEmpty | drainByte | drainFill | blkByte => exact .inl (fillSlot_resp ..)
  | held | isrFull | isrPush | illegal => exact .inl rfl

/-- Only the issue step of a command writes `RESP`. -/
theorem step_resp (h : step s = .next t) :
    t.resp = s.resp ∨ ∃ ws i, issued s = some i ∧ IssueEffect { dropTurn s with program := ws } i t := by
  rcases turnEffect_resp (step_cases h) with hr | ⟨hn, hm, w, ws, i, hp, hd, hu⟩
  · exact .inl hr
  · exact .inr ⟨ws, i, issued_eq_some_iff.2 ⟨hn, hm, w, ws, hp, hd⟩, hu⟩

end

/-- Settles O6: the fields of a packed word, and every word written to `RESP` is a packed one. -/
theorem responseWordHasItsFields : Obligations.ResponseWordHasItsFields := by
  refine ⟨respWord_fields, rfl, fun s t hs h => ?_⟩
  rcases step_resp h with hr | ⟨ws, i, _, hu⟩
  · rw [hr, hs]
  · rcases issueEffect_resp_packed hu with hr | ⟨st, val, hr⟩
    · exact (congrArg _ hr).trans hs
    · rw [hr, (respWord_fields st val).2.1]

/-! ### Faults (60_exceptions.md R161) -/

section

variable {s t : State}

/-- An issue step that records a fault, and its cause. -/
theorem issueEffect_fault {i : Instr} (he : IssueEffect s i t) (hs : s.seq.op ≠ .fault) (ht : t.seq.op = .fault) :
    (t.seq.code = .unconfigured ∧ (∀ p baud, i ≠ .cfg p baud) ∧ (s.port (checkedPort i)).cfgd = false) ∨
      (t.seq.code = .reconfig ∧ ∃ p baud, i = .cfg p baud ∧ (s.port p).cfgd = true) ∨
      (t.seq.code = .badBaud ∧ ∃ p baud, i = .cfg p baud ∧ (s.port p).cfgd = false ∧ Config.baudSupported baud = false) := by
  cases he with
  | unconfigured _ h =>
    rcases h with ⟨hr, hcfg, hc⟩ | ⟨⟨n, rfl⟩, hc⟩
    · refine .inl ⟨rfl, hcfg, ?_⟩
      cases i with
      | rdblk n => exact absurd rfl (hr n)
      | cfg | push | pop | drain | depth => exact hc
    · exact .inl ⟨rfl, nofun, hc⟩
  | reconfig p baud hc => exact .inr (.inl ⟨rfl, p, baud, rfl, hc⟩)
  | badBaud p baud hc hb => exact .inr (.inr ⟨rfl, p, baud, rfl, hc, hb⟩)
  | cfg p baud => exact absurd ((configured_seq p baud s) ▸ ht) hs
  | drain | rdblk => cases ht
  | pushFull | pushRoom | popEmpty | popByte | depth | drainZero | rdblkZero => exact absurd ht hs

theorem fillSlot_op_ne_fault {v : Byte} (hs : s.seq.op ≠ .fault) : (fillSlot v s).seq.op ≠ .fault := by
  rw [fillSlot_seq]
  split
  · nofun
  · exact hs

/-- Only an issue step records a fault. -/
theorem turnEffect_fault {tn : Turn} (he : TurnEffect s tn t) (hs : s.seq.op ≠ .fault) (ht : t.seq.op = .fault) :
    tn = .consumer ∧ s.mayIssue = true ∧ ∃ w ws, s.program = w :: ws ∧
      ((t.seq.code = .illegal ∧ ∃ why, decode w = .illegal why) ∨
        ∃ i, decode w = .instr i ∧ IssueEffect { s with program := ws } i t) := by
  cases he with
  | illegal w ws why hi hp hd => exact ⟨rfl, hi, w, ws, hp, .inl ⟨rfl, why, hd⟩⟩
  | issue w ws i u hi hp hd hu => exact ⟨rfl, hi, w, ws, hp, .inr ⟨i, hd, hu⟩⟩
  | wire p b => exact absurd ((wire_seq p b s) ▸ ht) hs
  | drainEmpty | drainByte | drainFill | blkByte => exact absurd ht (fillSlot_op_ne_fault hs)
  | held | isrFull | isrPush => exact absurd ht hs

end

/-- Settles O43: a new fault is that of an illegal word or the effect of a command's issue step, which names its cause. -/
theorem faultsComeFromTheirCauses : Obligations.FaultsComeFromTheirCauses := by
  intro s t h hs ht
  obtain ⟨hn, hm, w, ws, hp, hcause⟩ := turnEffect_fault (step_cases h) hs ht
  refine ⟨hn, hm, w, ws, hp, ?_⟩
  rcases hcause with hill | ⟨i, hd, hu⟩
  · exact .inl hill
  · rcases issueEffect_fault hu hs ht with ⟨hcode, hcfg, hc⟩ | ⟨hcode, p, baud, rfl, hc⟩ | ⟨hcode, p, baud, rfl, hc, hb⟩
    · exact .inr (.inl ⟨hcode, i, hd, hcfg, hc⟩)
    · exact .inr (.inr (.inl ⟨hcode, p, baud, hd, hc⟩))
    · exact .inr (.inr (.inr ⟨hcode, p, baud, hd, hc, hb⟩))

end Sys2Proof.Machine

/-! PROOFS. The two ports (20_memory.md section 3): the handler reads and writes the producer's side of the queue and
Port A only, so it commutes with the steps of Port B; and no step but the slot step of an `RDBLK` looks at the byte in
`RDR[B]`. -/

namespace Sys2Proof.Machine

open Sys2Proof.Safety

/-! ### The handler and the other port -/

/-- The two states agree on what the handler reads. -/
structure SameProducer (s u : State) : Prop where
  par : u.par = s.par
  store : u.store = s.store
  tail : u.tail = s.tail
  count : u.count = s.count
  portA : u.portA = s.portA
  rxneie : u.rxneieA = s.rxneieA
  hreg : u.hregA = s.hregA

/-- A state with the producer's side and Port A's registers of another. -/
def withProducer (t u : State) : State :=
  { u with store := t.store, tail := t.tail, count := t.count, portA := t.portA }

section

variable {s t u : State}

/-- The handler's run depends on, and writes, the producer's side and Port A only. -/
theorem isrA_of_sameProducer (hs : SameProducer s u) (h : isrA s = .next t) : isrA u = .next (withProducer t u) := by
  obtain ⟨par, store, head, tail, count, portA, portB, rxneieA, hregA, resp, seq, buf, program, sched⟩ := u
  obtain ⟨rfl, rfl, rfl, rfl, rfl, rfl, rfl⟩ := hs
  refine isrA_eq_next.2 ?_
  rcases isrA_eq_next.1 h with ⟨hq, rfl⟩ | ⟨hq, v, hv, ⟨hf, rfl⟩ | ⟨hf, hlt, rfl⟩⟩
  · exact .inl ⟨hq, rfl⟩
  · exact .inr ⟨hq, v, hv, .inl ⟨hf, rfl⟩⟩
  · exact .inr ⟨hq, v, hv, .inr ⟨hf, hlt, rfl⟩⟩

theorem sameProducer_refl (s : State) : SameProducer s s := ⟨rfl, rfl, rfl, rfl, rfl, rfl, rfl⟩

theorem eq_withProducer_of_isrA (h : isrA s = .next t) : t = withProducer t s :=
  Host.Outcome.next.inj (h.symm.trans (isrA_of_sameProducer (sameProducer_refl s) h))

/-- A byte arriving at Port B commutes with the handler. -/
theorem isrA_wire_b (c : Byte) (h : isrA s = .next t) : isrA (wire .b c s) = .next (wire .b c t) := by
  have hsame : SameProducer s (wire .b c s) := ⟨rfl, rfl, rfl, rfl, rfl, rfl, rfl⟩
  rw [isrA_of_sameProducer hsame h, eq_withProducer_of_isrA h]
  rfl

/-- A slot step of `RDBLK` commutes with a byte arriving at Port A. -/
theorem blkSlot_wire_a (b : Byte) (h : blkSlot s = .next t) : blkSlot (wire .a b s) = .next (wire .a b t) := by
  refine blkSlot_eq_next.2 ?_
  rcases blkSlot_eq_next.1 h with ⟨hr, rfl⟩ | ⟨hr, v, hv, rfl⟩
  · exact .inl ⟨hr, rfl⟩
  · refine .inr ⟨hr, v, hv, ?_⟩
    simp only [fillSlot_eq]
    rfl

/-- A slot step of `RDBLK` commutes with the handler. -/
theorem isrA_blkSlot_comm (ht : isrA s = .next t) (hu : blkSlot s = .next u) :
    ∃ v, blkSlot t = .next v ∧ isrA u = .next v := by
  have hshape := eq_withProducer_of_isrA ht
  have hportB : t.portB = s.portB := by rw [hshape]; rfl
  rcases blkSlot_eq_next.1 hu with ⟨hr, rfl⟩ | ⟨hr, b, hb, rfl⟩
  · exact ⟨t, blkSlot_of_notReady (hportB ▸ hr), ht⟩
  · refine ⟨_, blkSlot_of_byte (hportB ▸ hr) (hportB ▸ hb), ?_⟩
    rw [isrA_of_sameProducer ?same ht, hshape]
    case same => rw [fillSlot_eq]; exact ⟨rfl, rfl, rfl, rfl, rfl, rfl, rfl⟩
    simp only [fillSlot_eq]
    rfl

end

/-- Settles O54: a wire writes its own port, and the handler and the slot step of `RDBLK` have no field in common. -/
theorem stepsOfTheTwoPortsCommute : Obligations.StepsOfTheTwoPortsCommute :=
  ⟨fun _ _ _ => rfl, fun _ _ c => isrA_wire_b c, fun _ _ b _ => blkSlot_wire_a b, fun _ _ _ _ => isrA_blkSlot_comm⟩

/-! ### The byte in `RDR[B]` -/

/-- The state with another content of `RDR[B]`. -/
def withRdrB (d : Datum) (s : State) : State := { s with portB := { s.portB with rdr := d } }

/-- What is left of a state without the content of `RDR[B]` and the caller's buffer. -/
def hidePortB (s : State) : State := { withRdrB .unspec s with buf := [] }

section

variable {s t u : State}

/-- Issued at a state with another byte in `RDR[B]`, a command has the same effect but for that byte. -/
theorem issueEffect_withRdrB (d : Datum) {i : Instr} (he : IssueEffect s i t) :
    ∃ u, IssueEffect (withRdrB d s) i u ∧ hidePortB t = hidePortB u ∧ t.buf = u.buf := by
  cases he with
  | unconfigured _ h => exact ⟨_, .unconfigured _ h, rfl, rfl⟩
  | reconfig p baud h => cases p <;> exact ⟨_, .reconfig _ baud h, rfl, rfl⟩
  | badBaud p baud h hb => cases p <;> exact ⟨_, .badBaud _ baud h hb, rfl, rfl⟩
  | cfg p baud h hb => cases p <;> exact ⟨_, .cfg _ baud h hb, rfl, rfl⟩
  | pushFull b hc hf => exact ⟨_, .pushFull b hc hf, rfl, rfl⟩
  | pushRoom b hc hf hlt => exact ⟨_, .pushRoom b hc hf hlt, rfl, rfl⟩
  | popEmpty hc he => exact ⟨_, .popEmpty hc he, rfl, rfl⟩
  | popByte v hc he hlt hv => exact ⟨_, .popByte v hc he hlt hv, rfl, rfl⟩
  | depth hc => exact ⟨_, .depth hc, rfl, rfl⟩
  | drainZero hc => exact ⟨_, .drainZero hc, rfl, rfl⟩
  | drain n hc hn => exact ⟨_, .drain n hc hn, rfl, rfl⟩
  | rdblkZero hc => exact ⟨_, .rdblkZero hc, rfl, rfl⟩
  | rdblk n hc hn => exact ⟨_, .rdblk n hc hn, rfl, rfl⟩

/-- Slots filled from the same position leave states that differ in the buffer at most as the bytes do. -/
theorem hidePortB_fillSlot (v w : Byte) (h : hidePortB s = hidePortB t) :
    hidePortB (fillSlot v s) = hidePortB (fillSlot w t) := by
  have hidden (v : Byte) (s : State) : hidePortB (fillSlot v s) = hidePortB (fillSlot 0x00#8 (hidePortB s)) := by
    simp only [fillSlot_eq]
    rfl
  rw [hidden v s, hidden w t, h]

/-- A byte that arrives finds the ready bit of the one before, not the byte. -/
theorem receive_withRdr (policy : OverrunPolicy) (b : Byte) (d : Datum) (r : PortRegs) :
    { receive policy b r with rdr := .unspec } = { receive policy b { r with rdr := d } with rdr := .unspec } := by
  obtain ⟨rdr, rxne, cfgd, baud⟩ := r
  cases cfgd with
  | false => rfl
  | true =>
    cases rxne with
    | false => rfl
    | true => cases policy <;> rfl

theorem hidePortB_wire_b (b : Byte) (d : Datum) (s : State) :
    hidePortB (wire .b b s) = hidePortB (wire .b b (withRdrB d s)) :=
  congrArg (fun r => { s with portB := r, buf := [] }) (receive_withRdr s.par.overrun b d s.portB)

/-- A turn taken at a state with another byte in `RDR[B]` differs in that byte and, in an `RDBLK`, in the buffer. -/
theorem turnEffect_withRdrB (y : Byte) {tn : Turn} (he : TurnEffect s tn t) :
    ∃ u, TurnEffect (withRdrB (.byte y) s) tn u ∧ hidePortB t = hidePortB u ∧ (s.seq.op ≠ .blk → t.buf = u.buf) := by
  cases he with
  | held _ h => exact ⟨_, .held _ h, rfl, fun _ => rfl⟩
  | wire p b =>
    cases p with
    | a => exact ⟨_, .wire .a b, rfl, fun _ => rfl⟩
    | b => exact ⟨_, .wire .b b, hidePortB_wire_b .., fun _ => rfl⟩
  | isrFull v hq hv hf => exact ⟨_, .isrFull v hq hv hf, rfl, fun _ => rfl⟩
  | isrPush v hq hv hf hlt => exact ⟨_, .isrPush v hq hv hf hlt, rfl, fun _ => rfl⟩
  | illegal w ws why hi hp hd => exact ⟨_, .illegal w ws why hi hp hd, rfl, fun _ => rfl⟩
  | issue w ws i _ hi hp hd hu =>
    obtain ⟨u, heff, hhide, hbuf⟩ := issueEffect_withRdrB (.byte y) hu
    exact ⟨u, .issue w ws i u hi hp hd heff, hhide, fun _ => hbuf⟩
  | drainEmpty hs ho hph he => exact ⟨_, .drainEmpty hs ho hph he, hidePortB_fillSlot _ _ rfl, fun _ => by simp [withRdrB]⟩
  | drainByte v hs ho hph he hlt hv =>
    exact ⟨_, .drainByte v hs ho hph he hlt hv, hidePortB_fillSlot _ _ rfl, fun _ => by simp [withRdrB]⟩
  | drainFill hs ho hph => exact ⟨_, .drainFill hs ho hph, hidePortB_fillSlot _ _ rfl, fun _ => by simp [withRdrB]⟩
  | blkByte v hs ho hr hv => exact ⟨_, .blkByte y hs ho hr rfl, hidePortB_fillSlot _ _ rfl, fun hno => absurd ho hno⟩

end

/-- Settles O60: the step at the one state has a counterpart at the other, and a step has one answer. -/
theorem portBByteStaysOutOfPortA : Obligations.PortBByteStaysOutOfPortA := by
  intro s t u x y ht hu
  obtain ⟨v, heff, hhide, hbuf⟩ := turnEffect_withRdrB y (step_cases ht)
  have hv : step (withRdrB (.byte y) s) = .next v := takeTurn_of_effect heff
  obtain rfl : v = u := Host.Outcome.next.inj (hv.symm.trans hu)
  exact ⟨hhide, hbuf⟩

end Sys2Proof.Machine

/-! PROOFS. The opcode map and the assembler (30_encoding.md R73, R80, R81): each row selects the words of one mnemonic,
and each line in range gives the pattern of its command plus the operand. -/

namespace Sys2Proof

/-! ### Rows -/

theorem exists_instr_iff {P : Instr → Prop} :
    (∃ i, P i) ↔ (∃ p baud, P (.cfg p baud)) ∨ (∃ b, P (.push b)) ∨ P .pop ∨ (∃ n, P (.drain n)) ∨ (∃ n, P (.rdblk n)) ∨
      P .depth := by
  constructor
  · rintro ⟨⟨p, baud⟩ | b | _ | n | n | _, h⟩
    exacts [.inl ⟨p, baud, h⟩, .inr (.inl ⟨b, h⟩), .inr (.inr (.inl h)), .inr (.inr (.inr (.inl ⟨n, h⟩))),
      .inr (.inr (.inr (.inr (.inl ⟨n, h⟩)))), .inr (.inr (.inr (.inr (.inr h))))]
  · rintro (⟨p, baud, h⟩ | ⟨b, h⟩ | h | ⟨n, h⟩ | ⟨n, h⟩ | h)
    exacts [⟨_, h⟩, ⟨_, h⟩, ⟨_, h⟩, ⟨_, h⟩, ⟨_, h⟩, ⟨_, h⟩]

/-- A row of the opcode map selects the words of the commands of its mnemonic. -/
theorem selects_iff_encode {r : OpcodeRow} (hr : r ∈ opcodeMap) {w : Word} :
    r.selects w = true ↔ ∃ i, encode i = w ∧ mnemonicOf i = r.mnemonic := by
  simp only [opcodeMap, List.mem_cons, List.not_mem_nil, or_false] at hr
  rcases hr with rfl | rfl | rfl | rfl | rfl | rfl
  · exact selects_cfg.trans (by simp [exists_instr_iff, mnemonicOf])
  · exact selects_push.trans (by simp [exists_instr_iff, mnemonicOf])
  · exact selects_pop.trans (by simp [exists_instr_iff, mnemonicOf])
  · exact selects_drain.trans (by simp [exists_instr_iff, mnemonicOf])
  · exact selects_rdblk.trans (by simp [exists_instr_iff, mnemonicOf])
  · exact selects_depth.trans (by simp [exists_instr_iff, mnemonicOf])

theorem exists_row (i : Instr) : ∃ r ∈ opcodeMap, r.mnemonic = mnemonicOf i := by
  cases i <;> simp [opcodeMap, mnemonicOf]

/-- No two rows have one mnemonic. -/
theorem row_eq_of_mnemonic {r q : OpcodeRow} (hr : r ∈ opcodeMap) (hq : q ∈ opcodeMap)
    (h : r.mnemonic = q.mnemonic) : r = q := by
  have hall : ∀ r ∈ opcodeMap, ∀ q ∈ opcodeMap, r.mnemonic = q.mnemonic → r = q := by decide
  exact hall r hr q hq h

/-- Settles O2: a row selects the words of its mnemonic's commands, and each mnemonic has one row. -/
theorem opcodeMapSelectsTheCommand : Obligations.OpcodeMapSelectsTheCommand := by
  refine ⟨fun w i hd => ?_, fun w r hr hs => ?_, fun w r hr q hq hrs hqs => ?_⟩
  · obtain ⟨r, hr, hm⟩ := exists_row i
    exact ⟨r, hr, hm, (selects_iff_encode hr).2 ⟨i, encode_of_decode hd, hm.symm⟩⟩
  · obtain ⟨i, he, hm⟩ := (selects_iff_encode hr).1 hs
    exact ⟨i, decode_eq_instr_iff.2 he, hm⟩
  · obtain ⟨i, hi, hmi⟩ := (selects_iff_encode hr).1 hrs
    obtain ⟨j, hj, hmj⟩ := (selects_iff_encode hq).1 hqs
    have hij : i = j := Decoded.instr.inj ((decode_eq_instr_iff.2 hi).symm.trans (decode_eq_instr_iff.2 hj))
    exact row_eq_of_mnemonic hr hq (hmi.symm.trans (hij ▸ hmj))

/-! ### Lines -/

section

variable {l : AsmLine} {n m x : Nat}

/-- A pattern whose low k bits are zero, with an operand of k bits put in by OR as the encoder does, or by addition. -/
theorem pattern_or_eq_add {k : Nat} (hk : k ≤ 32) (hn : n < 2 ^ k) :
    BitVec.ofNat 32 (2 ^ k * x) ||| (BitVec.ofNat k n).setWidth 32 = BitVec.ofNat 32 (2 ^ k * x + n) := by
  rw [Nat.two_pow_add_eq_or_of_lt hn, BitVec.ofNat_or, BitVec.setWidth_ofNat_of_le_of_lt hk hn]

/-- A line with an operand has a word exactly where the operand is in range. -/
theorem assemble_of_operand {w : Word} (hl : l.wellFormed = decide (n ≤ m)) (hw : n ≤ m → encode (asmInstr l) = w) :
    assemble l = if n ≤ m then some w else none := by
  by_cases h : n ≤ m
  · simp [assemble, hl, h, hw h]
  · simp [assemble, hl, h]

end

theorem encode_cfg_eq_add {p : Port} {baud : Nat} (h : baud ≤ 16777215) :
    encode (.cfg p (BitVec.ofNat 24 baud)) =
      BitVec.ofNat 32 ((match p with | .a => 0x10000000 | .b => 0x14000000) + baud) := by
  rw [encode_cfg_eq_or]
  cases p with
  | a => exact pattern_or_eq_add (k := 24) (x := 0x10) (by decide) (Nat.lt_succ_of_le h)
  | b => exact pattern_or_eq_add (k := 24) (x := 0x14) (by decide) (Nat.lt_succ_of_le h)

theorem encode_push_eq_add {b : Nat} (h : b ≤ 255) :
    encode (.push (BitVec.ofNat 8 b)) = BitVec.ofNat 32 (0x20000000 + b) :=
  (encode_push_eq_or _).trans (pattern_or_eq_add (k := 8) (x := 0x200000) (by decide) (Nat.lt_succ_of_le h))

theorem encode_drain_eq_add {n : Nat} (h : n ≤ 16777215) :
    encode (.drain (BitVec.ofNat 24 n)) = BitVec.ofNat 32 (0x40000000 + n) :=
  (encode_drain_eq_or _).trans (pattern_or_eq_add (k := 24) (x := 0x40) (by decide) (Nat.lt_succ_of_le h))

theorem encode_rdblk_eq_add {n : Nat} (h : n ≤ 16777215) :
    encode (.rdblk (BitVec.ofNat 24 n)) = BitVec.ofNat 32 (0x54000000 + n) :=
  (encode_rdblk_eq_or _).trans (pattern_or_eq_add (k := 24) (x := 0x54) (by decide) (Nat.lt_succ_of_le h))

/-- Settles O5: a line in range is its command's word, the pattern with the operand in its low bits, and `RDNB` is read as
`DRAIN`. -/
theorem assemblerLinesGiveTheirWords : Obligations.AssemblerLinesGiveTheirWords :=
  ⟨fun _ _ => assemble_of_operand rfl encode_cfg_eq_add, fun _ => assemble_of_operand rfl encode_push_eq_add, rfl,
    fun _ => assemble_of_operand rfl encode_drain_eq_add, fun _ => assemble_of_operand rfl encode_rdblk_eq_add, rfl,
    fun _ => rfl⟩

/-- Settles O4: each word is decoded by evaluation. -/
theorem specWordsDecode : Obligations.SpecWordsDecode := by
  unfold Obligations.SpecWordsDecode
  decide

end Sys2Proof

/-! PROOFS. The state after reset (10_state.md R44) and what a word issued there does (70_reset_and_hazards.md section
1). -/

namespace Sys2Proof.Machine

open Sys2Proof.Safety

/-- Settles O45: the values are those `State.reset` writes out. -/
theorem resetValues : Obligations.ResetValues :=
  ⟨fun _ => rfl, rfl, rfl, rfl, rfl, rfl, rfl, rfl, rfl, rfl, rfl, rfl, rfl, rfl, rfl, rfl, rfl, rfl, rfl, rfl, rfl, rfl⟩

/-- At reset no port is configured, so every command but `CFG` faults, and `CFG` faults on its rate only. -/
theorem exec_reset (i : Instr) :
    ∃ t, exec i State.reset = .next t ∧
      (t.seq.op ≠ .fault ↔ ∃ p baud, i = .cfg p baud ∧ Config.baudSupported baud = true) := by
  by_cases hi : ∃ p baud, i = .cfg p baud
  · obtain ⟨p, baud, rfl⟩ := hi
    have hc : (State.reset.port p).cfgd = false := by cases p <;> rfl
    cases hb : Config.baudSupported baud with
    | false => exact ⟨_, exec_cfg_of_unsupported rfl hc hb, by simp [hb]⟩
    | true => exact ⟨_, exec_cfg_of_supported rfl hc hb, by simp [hb, State.reset, Seq.reset]⟩
  · have hcfg : ∀ p baud, i ≠ .cfg p baud := fun p baud h => hi ⟨p, baud, h⟩
    have hc : (State.reset.port (checkedPort i)).cfgd = false := by cases checkedPort i <;> rfl
    exact ⟨_, exec_of_unconfigured rfl hcfg hc, by simp [hcfg]⟩

/-- Settles O46: an illegal word faults, and a command meets two unconfigured ports, which take no byte either. -/
theorem afterResetOnlyCfgRuns : Obligations.AfterResetOnlyCfgRuns := by
  refine ⟨fun w => ?_, fun p b => wire_eq_self (receive_of_unconfigured ?_), rfl, rfl⟩
  · cases hd : decode w with
    | illegal why => exact ⟨_, issue_of_illegal hd, by simp⟩
    | instr i => simpa [issue_of_instr hd] using exec_reset i
  · cases p <;> rfl

/-! ### Widths (00_scope.md R6) -/

/-- Settles O59: each width is at least the logarithm of the bound, and C fits in 24 bits. -/
theorem indicesFitTheirWidths : Obligations.IndicesFitTheirWidths := by
  intro s h
  have hcap : s.par.cap ≤ 2 ^ Config.idxWidth s.par.cap :=
    (Nat.le_pow_clog Nat.one_lt_two _).trans (Nat.pow_le_pow_right Nat.two_pos (Nat.le_max_right ..))
  have hcount : s.count < s.par.cap + 1 := Nat.lt_succ_of_le h.count_le
  refine ⟨h.head_lt.trans_le hcap, h.tail_lt.trans_le hcap, hcount.trans_le (Nat.le_pow_clog Nat.one_lt_two _), ?_⟩
  obtain ⟨_, hmax⟩ := h.cap_wf
  rw [countVal, BitVec.toNat_ofNat]
  exact Nat.mod_eq_of_lt (by omega)

end Sys2Proof.Machine

/-! PROOFS. The observable result of a run (70_reset_and_hazards.md R195): each command but `CFG` leaves one
observation, in the order of the program, the longer reads when their last slot is filled. -/

namespace Sys2Proof.Safety

open Sys2Proof.Machine

/-- The kind of the observation an operation in progress is still to leave. -/
def readInProgress (s : State) : List Bool := if s.seq.op = .drain ∨ s.seq.op = .blk then [true] else []

/-- The kinds of the observations a state is still to leave if it comes to its end without a fault. -/
def observationsToCome (s : State) : List Bool := readInProgress s ++ s.program.filterMap leavesRead

section

variable {s t : State}

theorem readInProgress_of_idle (h : s.seq.op = .idle) : readInProgress s = [] := by simp [readInProgress, h]

/-- What a program is bound to leave, by its first word. -/
theorem filterMap_leavesRead_cons {w : Word} {ws : List Word} {i : Instr} (h : decode w = .instr i) :
    (w :: ws).filterMap leavesRead = (commandLeavesRead i).toList ++ ws.filterMap leavesRead := by
  rw [List.filterMap_cons, leavesRead_eq h]
  cases commandLeavesRead i <;> rfl

/-- An issue step without a fault leaves the observation of its command, or starts the read that will. -/
theorem issueEffect_observed {i : Instr} (ho : s.seq.op = .idle) (he : IssueEffect s i t) (ht : t.seq.op ≠ .fault) :
    (observedAtIssue i t).map Observation.isRead ++ readInProgress t = (commandLeavesRead i).toList := by
  cases he with
  | unconfigured | reconfig | badBaud => exact absurd rfl ht
  | cfg p baud => simp [observedAtIssue, commandLeavesRead, readInProgress, ho]
  | pushFull | pushRoom | popEmpty | popByte | depth | drainZero | rdblkZero =>
    simp [observedAtIssue, commandLeavesRead, Observation.isRead, readInProgress, ho]
  | drain n _ hn | rdblk n _ hn => simp [observedAtIssue, commandLeavesRead, hn, readInProgress]

theorem observedBy_of_issued {i : Instr} (hi : issued s = some i) (ht : t.seq.op ≠ .fault) :
    observedBy s t = observedAtIssue i t := by
  simp [observedBy, hi, ht]

theorem observedBy_of_not_issued (hi : issued s = none) :
    observedBy s t =
      if (s.seq.op = .drain ∨ s.seq.op = .blk) ∧ t.seq.op = .idle then [.read (result t s.seq.n.toNat)] else [] := by
  simp [observedBy, hi]

/-- A turn that issues nothing and keeps `SEQ.op` lets nothing be seen. -/
theorem observed_of_same_op (hi : issued s = none) (ho : t.seq.op = s.seq.op) (hp : t.program = s.program) :
    (observedBy s t).map Observation.isRead ++ observationsToCome t = observationsToCome s := by
  have hnone : ¬((s.seq.op = .drain ∨ s.seq.op = .blk) ∧ s.seq.op = .idle) := by
    rintro ⟨h | h, h'⟩ <;> cases h.symm.trans h'
  simp [observedBy_of_not_issued hi, observationsToCome, readInProgress, ho, hnone, hp]

/-- The last slot step of a read leaves its list; the others leave the read in progress. -/
theorem observed_of_slot {u : State} {v : Byte} (ho : s.seq.op = .drain ∨ s.seq.op = .blk) (hu : u.seq.op = s.seq.op)
    (hp : u.program = s.program) :
    (observedBy s (fillSlot v u)).map Observation.isRead ++ observationsToCome (fillSlot v u) = observationsToCome s := by
  have hi : issued s = none := issued_of_op (by rcases ho with ho | ho <;> simp [ho])
  have hprogram : (fillSlot v u).program = s.program := (fillSlot_program ..).trans hp
  by_cases hlast : u.seq.i.toNat + 1 = u.seq.n.toNat
  · have hidle : (fillSlot v u).seq.op = .idle := by rw [fillSlot_seq, if_pos hlast]
    simp [observedBy_of_not_issued hi, observationsToCome, readInProgress, ho, hidle, hp, Observation.isRead]
  · exact observed_of_same_op hi (by rw [fillSlot_seq, if_neg hlast]; exact hu) hprogram

/-- The issue step of a command. -/
theorem observed_of_issue {w : Word} {ws : List Word} {i : Instr} (hn : nextTurn s = .consumer) (hm : s.mayIssue = true)
    (hp : s.program = w :: ws) (hd : decode w = .instr i) (he : IssueEffect { dropTurn s with program := ws } i t)
    (ht : t.seq.op ≠ .fault) :
    (observedBy s t).map Observation.isRead ++ observationsToCome t = observationsToCome s := by
  have ho : s.seq.op = .idle := (mayIssue_iff.1 hm).1
  have hi : issued s = some i := issued_eq_some_iff.2 ⟨hn, hm, w, ws, hp, hd⟩
  have hprogram : t.program = ws := (issueEffect_frame he).program
  have hkinds := issueEffect_observed (s := { dropTurn s with program := ws }) ho he ht
  rw [observationsToCome, ← List.append_assoc, observedBy_of_issued hi ht, hkinds, hprogram, observationsToCome,
    readInProgress_of_idle ho, hp, filterMap_leavesRead_cons hd, List.nil_append]

theorem issued_of_not_consumer (hn : nextTurn s ≠ .consumer) : issued s = none :=
  issued_eq_none fun hn' => absurd hn' hn

/-- What a step lets be seen and what is still to come after it are what was to come before it. -/
theorem step_observed (h : step s = .next t) (ht : t.seq.op ≠ .fault) :
    (observedBy s t).map Observation.isRead ++ observationsToCome t = observationsToCome s := by
  have he := step_cases h
  generalize hn : nextTurn s = tn at he
  cases he with
  | illegal => exact absurd rfl ht
  | issue w ws i _ hi hp hd hu => exact observed_of_issue hn hi hp hd hu ht
  | held _ hen =>
    refine observed_of_same_op ?_ rfl rfl
    by_cases hc : tn = .consumer
    · exact issued_of_not_enabled (hc ▸ hen)
    · exact issued_of_not_consumer (hn ▸ hc)
  | wire p b =>
    exact observed_of_same_op (issued_of_not_consumer (by simp [hn])) (congrArg Seq.op (wire_seq ..)) (wire_program ..)
  | isrFull | isrPush => exact observed_of_same_op (issued_of_not_consumer (by simp [hn])) rfl rfl
  | drainEmpty _ ho | drainByte _ _ ho | drainFill _ ho => exact observed_of_slot (.inl ho) rfl rfl
  | blkByte _ _ ho => exact observed_of_slot (.inr ho) rfl rfl

end

/-! ### Runs -/

theorem terminated_iff {s : State} : terminated s = true ↔ s.program = [] ∧ s.seq.op = .idle ∧ s.irqA = false := by
  simp [terminated, and_assoc]

/-- A run that terminates has left what was to come when it began: a fault on the way would have stayed. -/
theorem observations_of_terminated {k : Nat} {s t : State} (hrun : runFor k s = .next t) (ht : terminated t = true) :
    (observations k s).map Observation.isRead = observationsToCome s := by
  induction k generalizing s with
  | zero =>
    cases hrun
    obtain ⟨hp, ho, _⟩ := terminated_iff.1 ht
    simp [observations, observationsToCome, readInProgress_of_idle ho, hp]
  | succ k ih =>
    obtain ⟨u, hstep, hrun⟩ := runFor_succ_eq_next.1 hrun
    have hu : u.seq.op ≠ .fault := by
      intro ho
      have hstays : t.seq.op = .fault := by rw [(runFor_of_fault ho hrun).seq, ho]
      exact absurd (hstays.symm.trans (terminated_iff.1 ht).2.1) nofun
    rw [observations_succ k hstep, List.map_append, ih hrun, step_observed hstep hu]

/-- Settles O55: a step that writes `RESP` issues a command that does, and the observations of a terminated run are
added up step by step. -/
theorem onlyThreeCommandsWriteResp : Obligations.OnlyThreeCommandsWriteResp := by
  refine ⟨fun s t h hne => ?resp, fun k s r ho hr => ?run⟩
  case resp =>
    obtain ⟨ws, i, hi, hu⟩ := (step_resp h).resolve_left hne
    rcases (issueEffect_resp_eq_or hu).resolve_left hne with ⟨b, rfl⟩ | rfl | rfl
    · exact .inl ⟨b, hi⟩
    · exact .inr (.inl hi)
    · exact .inr (.inr hi)
  case run =>
    obtain ⟨hrun, hterm, hobs⟩ := observable_eq_some.1 hr
    refine ⟨?_, hrun, terminated_iff.1 hterm⟩
    rw [hobs, observations_of_terminated hrun hterm, observationsToCome, readInProgress_of_idle ho, List.nil_append]

end Sys2Proof.Safety

/-! PROOFS. Pushes one after the other (40_byte_queue.md R101) and a blocking read that nothing ends
(42_receive_wait.md). -/

namespace Sys2Proof.Safety

open Sys2Proof.Machine

/-! ### Overflow -/

/-- Which of `n` pushes succeed with `room` places left: the first of them if there is one, and of the others those that
a push later finds. -/
theorem successes_succ (n room : Nat) :
    (List.range (n + 1)).map (fun k => decide (k < room)) =
      decide (0 < room) :: (List.range n).map fun k => decide (k < room - 1) := by
  rw [List.range_succ_eq_map, List.map_cons, List.map_map]
  congr 1
  refine List.map_congr_left fun k _ => ?_
  simp only [Function.comp]
  congr 1
  exact propext (by omega)

/-- Pushes fill the places left, in order, and then fail. -/
theorem pushAll_fills (bytes : List Byte) {s : State} (h : QueueInv s) :
    ∃ t, pushAll bytes s =
        .next ((List.range bytes.length).map fun k => decide (k < s.par.cap - s.count), t) ∧
      contents t = contents s ++ (bytes.take (s.par.cap - s.count)).map .byte := by
  induction bytes generalizing s with
  | nil => exact ⟨s, rfl, by simp⟩
  | cons b bs ih =>
    rw [List.length_cons, successes_succ]
    by_cases hf : s.count = s.par.cap
    · obtain ⟨t, hrun, ht⟩ := ih h
      have hroom : s.par.cap - s.count = 0 := by omega
      refine ⟨t, ?_, ?_⟩
      · rw [pushAll, pushByte_of_full hf, andThen_next, hrun, andThen_next]
        simp [hroom]
      · rw [ht, hroom, List.take_zero, List.take_zero]
    · obtain ⟨t, hrun, ht⟩ := ih (queueInv_queuePushed h (full_false.2 hf) b)
      have hle := h.count_le
      have hroom : s.par.cap - s.count = s.par.cap - (s.count + 1) + 1 := by omega
      refine ⟨t, ?_, ?_⟩
      · rw [pushAll, pushByte_of_room hf h.tail_lt, andThen_next]
        show andThen (pushAll bs (queuePushed b s)) _ = _
        rw [hrun, andThen_next, hroom, decide_eq_true (Nat.succ_pos _), Nat.add_sub_cancel]
        rfl
      · rw [ht, contents_queuePushed h (full_false.2 hf), hroom, List.take_succ_cons, List.map_cons, List.append_assoc]
        rfl

/-- Settles O34: an empty queue has C places left. -/
theorem overflowKeepsTheFirstBytes : Obligations.OverflowKeepsTheFirstBytes := by
  intro bytes s h h0
  obtain ⟨t, hrun, ht⟩ := pushAll_fills bytes h
  have hnil : contents s = [] := List.length_eq_zero_iff.1 ((length_contents s).trans h0)
  rw [h0, Nat.sub_zero] at hrun ht
  exact ⟨_, t, hrun, by rw [ht, hnil, List.nil_append], rfl⟩

/-! ### The indefinite block -/

section

variable {s t : State}

/-- A wire's turn is next only if it is scheduled (log entry 4). -/
theorem mem_sched_of_nextTurn_wire {p : Port} {b : Byte} (h : nextTurn s = .wire p b) : .wire p b ∈ s.sched := by
  unfold nextTurn at h
  split at h
  · rename_i hs
    rw [hs, h]
    exact List.mem_cons_self
  · split at h <;> cases h

/-- While no byte is ready, no turn touches the consumer's side of a blocking read. -/
theorem turnEffect_blk_sameConsumer {tn : Turn} (ho : s.seq.op = .blk) (hr : s.portB.rxne = false)
    (he : TurnEffect s tn t) : SameConsumer s t := by
  cases he with
  | held => exact .refl s
  | wire p b => exact ⟨wire_seq .., wire_program .., wire_resp .., wire_buf .., wire_head ..⟩
  | isrFull | isrPush => exact ⟨rfl, rfl, rfl, rfl, rfl⟩
  | illegal w ws why hm | issue w ws i u hm => simp [mayIssue_iff, ho] at hm
  | drainEmpty _ hd | drainByte _ _ hd | drainFill _ hd => simp [ho] at hd
  | blkByte _ _ _ hready => simp [hr] at hready

/-- The consumer of `s` still waits at the same slot, and no byte is on its way. -/
structure StillWaiting (s t : State) : Prop where
  inv : MachineInv t
  same : SameConsumer s t
  notReady : t.portB.rxne = false
  quiet : ∀ b, Turn.wire .b b ∉ t.sched

theorem step_stillWaiting {u : State} (ho : s.seq.op = .blk) (h : StillWaiting s u) :
    ∃ t, step u = .next t ∧ StillWaiting s t := by
  obtain ⟨hinv, hsame, hr, hquiet⟩ := h
  obtain ⟨t, hstep⟩ := step_next hinv
  have ho' : (dropTurn u).seq.op = .blk := by rw [dropTurn_seq, hsame.seq, ho]
  have he := step_cases hstep
  have hw : ∀ b, nextTurn u ≠ .wire .b b := fun b hb => hquiet b (mem_sched_of_nextTurn_wire hb)
  refine ⟨t, hstep, step_keeps_machineInv hinv hstep, ?_, (turnEffect_blk_notReady ho' hr he hw).2, fun b hb => ?_⟩
  · exact (hsame.trans (sameConsumer_dropTurn u)).trans (turnEffect_blk_sameConsumer ho' hr he)
  · rw [step_sched hstep] at hb
    exact hquiet b (List.mem_of_mem_tail hb)

end

/-- Settles O33: that the consumer waits and no byte is on its way is kept by every step. -/
theorem rdblkBlocksForEver : Obligations.RdblkBlocksForEver := by
  intro s hinv ho hr hquiet k
  obtain ⟨t, hrun, _, hsame, hr', _⟩ := runFor_next_of (step_stillWaiting ho) ⟨hinv, .refl s, hr, hquiet⟩ k
  exact ⟨t, hrun, hsame.seq, hsame.buf, hsame.program, hsame.resp, hr',
    terminated_of_not_idle (by rw [hsame.seq, ho]; nofun)⟩

end Sys2Proof.Safety

/-! PROOFS. Reads that run to their end (40_byte_queue.md section 3, 42_receive_wait.md): slot after slot the buffer
receives the bytes in order, and the last slot step lets the list be seen. The shape is shared by a drain and a blocking
read; what differs is where the bytes come from. -/

namespace Sys2Proof.Safety

open Sys2Proof.Machine

/-! ### A read slot by slot -/

/-- The state a read ends in, from the state its last slot step started in. -/
def finished (s : State) (buf : Mem) (rest : List Turn) : State :=
  { s with seq := { s.seq with op := .idle, i := s.seq.n - 1#24 }, buf := buf, sched := rest }

/-- `k` steps from `s` end its read with the `m` bytes of `bytes` in the slots from `SEQ.i` on, and let the result be
seen. -/
structure ReadRun (k m : Nat) (s t : State) (bytes : List Datum) : Prop where
  run : runFor k s = .next t
  observed : observations k s = [.read (result t s.seq.n.toNat)]
  filled : ((List.range m).map fun j => Mem.read t.buf (s.seq.i.toNat + j)) = bytes
  kept : ∀ a, a < s.seq.i.toNat ∨ s.seq.i.toNat + m ≤ a → Mem.read t.buf a = Mem.read s.buf a

/-- A run that ends the read of `s` in what becomes of `base`. -/
def Delivers (k m : Nat) (s base : State) (rest : List Turn) (bytes : List Datum) : Prop :=
  ∃ t, ReadRun k m s t bytes ∧ t = finished base t.buf rest

/-- The two states are at the same slot of the same read. -/
structure SameSlot (s u : State) : Prop where
  op : u.seq.op = s.seq.op
  i : u.seq.i = s.seq.i
  n : u.seq.n = s.seq.n
  buf : u.buf = s.buf

section

variable {s u base base' : State} {k m : Nat} {rest : List Turn} {bytes : List Datum} {v : Byte}

theorem Delivers.congr (h : Delivers k m s base rest bytes) (hb : ∀ buf, finished base buf rest = finished base' buf rest) :
    Delivers k m s base' rest bytes := by
  obtain ⟨t, hrun, ht⟩ := h
  exact ⟨t, hrun, ht.trans (hb t.buf)⟩

/-- Before the last slot, a slot step goes on to the next one. -/
theorem fillSlot_seq_of_lt (hn : u.seq.i.toNat + 1 < u.seq.n.toNat) :
    (fillSlot v u).seq = { u.seq with i := u.seq.i + 1#24 } := by
  rw [fillSlot_seq, if_neg (Nat.ne_of_lt hn)]

/-- A slot step before the last leaves the end the same. -/
theorem finished_fillSlot (hn : u.seq.i.toNat + 1 < u.seq.n.toNat) (buf : Mem) :
    finished (fillSlot v u) buf rest = finished u buf rest := by
  rw [fillSlot_eq, if_neg (Nat.ne_of_lt hn)]
  rfl

/-- The last slot step. -/
theorem fillSlot_eq_finished (hn : u.seq.i.toNat + 1 = u.seq.n.toNat) :
    fillSlot v u = finished u (fillSlot v u).buf u.sched := by
  have hi : u.seq.i = u.seq.n - 1#24 := by
    have hlt : u.seq.i.toNat < u.seq.n.toNat := by omega
    have hnext : u.seq.i + 1#24 = u.seq.n := BitVec.eq_of_toNat_eq ((toNat_next_slot hlt).trans hn)
    rw [← hnext, BitVec.add_sub_cancel]
  rw [fillSlot_eq, if_pos hn, finished, ← hi]

theorem issued_of_read (ho : s.seq.op = .drain ∨ s.seq.op = .blk) : issued s = none :=
  issued_of_op (by rcases ho with ho | ho <;> simp [ho])

/-- While the read goes on, nothing is seen of it. -/
theorem observedBy_of_read (ho : s.seq.op = .drain ∨ s.seq.op = .blk) (hu : u.seq.op = s.seq.op) : observedBy s u = [] := by
  have hnot : ¬((s.seq.op = .drain ∨ s.seq.op = .blk) ∧ u.seq.op = .idle) := by
    rw [hu]
    rintro ⟨h | h, h'⟩ <;> cases h.symm.trans h'
  rw [observedBy_of_not_issued (issued_of_read ho), if_neg hnot]

/-- A read ends with its last slot step. -/
theorem delivers_last (hstep : step s = .next (fillSlot v u)) (hslot : SameSlot s u)
    (ho : s.seq.op = .drain ∨ s.seq.op = .blk) (hn : s.seq.i.toNat + 1 = s.seq.n.toNat) :
    Delivers 1 1 s u u.sched [.byte v] := by
  have hn' : u.seq.i.toNat + 1 = u.seq.n.toNat := by rw [hslot.i, hslot.n, hn]
  have hidle : (fillSlot v u).seq.op = .idle := by rw [fillSlot_seq, if_pos hn']
  have hbuf : (fillSlot v u).buf = Mem.write s.buf s.seq.i.toNat v := by rw [fillSlot_buf, hslot.buf, hslot.i]
  refine ⟨fillSlot v u, ⟨?_, ?_, ?_, fun a ha => ?_⟩, fillSlot_eq_finished hn'⟩
  · rw [runFor_succ, hstep]
    rfl
  · rw [observations_succ 0 hstep, observedBy_of_not_issued (issued_of_read ho), if_pos ⟨ho, hidle⟩]
    rfl
  · simp [-fillSlot_buf, hbuf]
  · rw [hbuf]
    exact Mem.read_write_ne _ _ (by omega)

/-- A slot step before the last, and the rest of the read. -/
theorem delivers_slot (hstep : step s = .next (fillSlot v u)) (hslot : SameSlot s u)
    (ho : s.seq.op = .drain ∨ s.seq.op = .blk) (hn : s.seq.i.toNat + 1 < s.seq.n.toNat)
    (h : Delivers k m (fillSlot v u) base rest bytes) : Delivers (k + 1) (m + 1) s base rest (.byte v :: bytes) := by
  obtain ⟨t, ⟨hrun, hobs, hfilled, hkept⟩, ht⟩ := h
  have hn' : u.seq.i.toNat + 1 < u.seq.n.toNat := by rw [hslot.i, hslot.n]; exact hn
  have hseq : (fillSlot v u).seq = { u.seq with i := u.seq.i + 1#24 } := fillSlot_seq_of_lt hn'
  have hop : (fillSlot v u).seq.op = s.seq.op := by rw [hseq]; exact hslot.op
  have hi : (fillSlot v u).seq.i.toNat = s.seq.i.toNat + 1 := by
    rw [hseq, ← hslot.i]
    exact toNat_next_slot (Nat.lt_of_succ_lt hn')
  have hlen : (fillSlot v u).seq.n = s.seq.n := by rw [hseq]; exact hslot.n
  have hbuf : (fillSlot v u).buf = Mem.write s.buf s.seq.i.toNat v := by rw [fillSlot_buf, hslot.buf, hslot.i]
  rw [hi] at hfilled hkept
  refine ⟨t, ⟨runFor_succ_eq_next.2 ⟨_, hstep, hrun⟩, ?_, ?_, fun a ha => ?_⟩, ht⟩
  · rw [observations_succ k hstep, observedBy_of_read ho hop, hobs, hlen, List.nil_append]
  · have hfirst : Mem.read t.buf s.seq.i.toNat = .byte v := by
      rw [hkept _ (.inl (Nat.lt_succ_self _)), hbuf, Mem.read_write_same]
    rw [List.range_succ_eq_map, List.map_cons, List.map_map, Nat.add_zero, hfirst, ← hfilled]
    refine congrArg _ (List.map_congr_left fun j _ => ?_)
    rw [Function.comp, Nat.add_assoc, Nat.add_comm 1 j]
  · rw [hkept a (by omega), hbuf]
    exact Mem.read_write_ne _ _ (by omega)

/-- A step of another agent before the read goes on. -/
theorem delivers_wait (hstep : step s = .next u) (hseq : u.seq = s.seq) (hbuf : u.buf = s.buf)
    (ho : s.seq.op = .drain ∨ s.seq.op = .blk) (h : Delivers k m u base rest bytes) : Delivers (k + 1) m s base rest bytes := by
  obtain ⟨t, ⟨hrun, hobserved, hfilled, hkept⟩, ht⟩ := h
  rw [hseq] at hobserved hfilled hkept
  rw [hbuf] at hkept
  refine ⟨t, ⟨runFor_succ_eq_next.2 ⟨_, hstep, hrun⟩, ?_, hfilled, hkept⟩, ht⟩
  rw [observations_succ k hstep, observedBy_of_read ho (congrArg Seq.op hseq), hobserved, List.nil_append]

end

/-! ### An uninterrupted drain -/

section

variable {s : State} {rest : List Turn}

theorem shutOut_of_no_request (hq : s.irqA = false) : s.shutOut = false :=
  shutOut_false_iff.2 (by simp [hq])

/-- A drain with `m` slots left, scheduled for the consumer alone. -/
structure DrainScheduled (m : Nat) (s : State) (rest : List Turn) : Prop where
  op : s.seq.op = .drain
  request : s.irqA = false
  slots : s.seq.i.toNat + m = s.seq.n.toNat
  sched : s.sched = List.replicate m .consumer ++ rest

section

variable {m : Nat} {u : State} {v : Byte}

theorem DrainScheduled.sched_dropTurn (h : DrainScheduled (m + 1) s rest) :
    (dropTurn s).sched = List.replicate m .consumer ++ rest := by
  rw [dropTurn_sched, h.sched, List.replicate_succ, List.cons_append, List.tail_cons]

theorem DrainScheduled.step (h : DrainScheduled (m + 1) s rest) (he : TurnEffect (dropTurn s) .consumer u) :
    step s = .next u :=
  (step_of_nextTurn (nextTurn_of_cons h.sched)).trans (takeTurn_of_effect he)

/-- The last slot step of a drain. -/
theorem DrainScheduled.last (h : DrainScheduled 1 s rest) (he : TurnEffect (dropTurn s) .consumer (fillSlot v u))
    (hslot : SameSlot s u) (hs : u.sched = (dropTurn s).sched) : Delivers 1 1 s u rest [.byte v] := by
  have hd := delivers_last (h.step he) hslot (.inl h.op) h.slots
  rwa [hs, h.sched_dropTurn] at hd

theorem DrainScheduled.not_last (h : DrainScheduled (m + 2) s rest) (hslot : SameSlot s u) :
    u.seq.i.toNat + 1 < u.seq.n.toNat := by
  have := h.slots
  rw [hslot.i, hslot.n]
  omega

/-- Between two slots of a drain. -/
theorem DrainScheduled.next (h : DrainScheduled (m + 2) s rest) (hslot : SameSlot s u) (hq : u.irqA = s.irqA)
    (hs : u.sched = (dropTurn s).sched) : DrainScheduled (m + 1) (fillSlot v u) rest := by
  have hn := h.slots
  have hlt := h.not_last hslot
  have hi : (u.seq.i + 1#24).toNat = s.seq.i.toNat + 1 := by
    rw [toNat_next_slot (Nat.lt_of_succ_lt hlt), hslot.i]
  refine ⟨?_, ?_, ?_, ?_⟩
  · rw [fillSlot_seq_of_lt hlt]
    exact hslot.op.trans h.op
  · rw [fillSlot_irqA, hq, h.request]
  · rw [fillSlot_seq_of_lt hlt]
    show (u.seq.i + 1#24).toNat + (m + 1) = u.seq.n.toNat
    rw [hi, hslot.n]
    omega
  · rw [fillSlot_sched, hs, h.sched_dropTurn]

/-- A slot step of a drain before the last, and the rest of the drain. -/
theorem DrainScheduled.slot {base : State} {bytes : List Datum} (h : DrainScheduled (m + 2) s rest)
    (he : TurnEffect (dropTurn s) .consumer (fillSlot v u)) (hslot : SameSlot s u)
    (hd : Delivers (m + 1) (m + 1) (fillSlot v u) base rest bytes) :
    Delivers (m + 2) (m + 2) s base rest (.byte v :: bytes) :=
  delivers_slot (h.step he) hslot (.inl h.op) (by have := h.slots; omega) hd

end

/-- The phase FILL to its end: zero bytes, and the queue as it was (40_byte_queue.md R98). -/
theorem delivers_fill (m : Nat) {s : State} (h : DrainScheduled (m + 1) s rest) (hph : s.seq.ph = .fill) :
    Delivers (m + 1) (m + 1) s s rest (List.replicate (m + 1) (.byte 0x00#8)) := by
  have hs : (dropTurn s).shutOut = false := shutOut_of_no_request h.request
  have hslot : SameSlot s (dropTurn s) := ⟨rfl, rfl, rfl, rfl⟩
  induction m generalizing s with
  | zero => exact (h.last (.drainFill hs h.op hph) hslot rfl).congr fun _ => rfl
  | succ m ih =>
    have hnext := h.next (v := 0x00#8) hslot rfl rfl
    have hrest := ih hnext (by rw [fillSlot_ph]; exact hph) (shutOut_of_no_request hnext.request) ⟨rfl, rfl, rfl, rfl⟩
    exact h.slot (.drainFill hs h.op hph) hslot (hrest.congr (finished_fillSlot (h.not_last hslot)))

/-- What `m` slots of a drain in phase POP do to the queue and to the phase (40_byte_queue.md R97). -/
def afterPops (m : Nat) (s : State) : State :=
  { s with
    head := (s.head + min m s.count) % s.par.cap
    count := s.count - m
    seq := { s.seq with ph := if m ≤ s.count then .pop else .fill } }

theorem afterPops_zero (h : QueueInv s) (hph : s.seq.ph = .pop) : afterPops 0 s = s := by
  have hhead : (s.head + min 0 s.count) % s.par.cap = s.head := by
    rw [Nat.zero_min, Nat.add_zero, Nat.mod_eq_of_lt h.head_lt]
  rw [afterPops, hhead, if_pos (Nat.zero_le _), ← hph, Nat.sub_zero]

theorem afterPops_of_empty (m : Nat) (h : QueueInv s) (he : s.count = 0) :
    afterPops (m + 1) s = s.setSeq { s.seq with ph := .fill } := by
  have hhead : (s.head + min (m + 1) s.count) % s.par.cap = s.head := by
    rw [he, Nat.min_zero, Nat.add_zero, Nat.mod_eq_of_lt h.head_lt]
  rw [afterPops, hhead, if_neg (by omega), Nat.sub_eq_zero_of_le (by omega), ← he]
  rfl

theorem afterPops_of_byte (m : Nat) (he : s.count ≠ 0) : afterPops (m + 1) s = afterPops m (queuePopped s) := by
  have hhead : (s.head + min (m + 1) s.count) % s.par.cap =
      ((s.head + 1) % s.par.cap + min m (s.count - 1)) % s.par.cap := by
    rw [Nat.mod_add_mod, show s.head + 1 + min m (s.count - 1) = s.head + min (m + 1) s.count by omega]
  have hcount : s.count - (m + 1) = s.count - 1 - m := by omega
  have hle : m + 1 ≤ s.count ↔ m ≤ s.count - 1 := by omega
  rw [afterPops, hhead, hcount]
  simp only [hle]
  rfl

/-- A drain that finds the queue empty: zero bytes (40_byte_queue.md R97, R98). -/
theorem delivers_pop_of_empty (m : Nat) (hinv : QueueInv s) (h : DrainScheduled (m + 1) s rest) (hph : s.seq.ph = .pop)
    (he : s.count = 0) :
    Delivers (m + 1) (m + 1) s (afterPops (m + 1) s) rest (List.replicate (m + 1) (.byte 0x00#8)) := by
  have heff := TurnEffect.drainEmpty (s := dropTurn s) (shutOut_of_no_request h.request) h.op hph (empty_iff.2 he)
  rw [afterPops_of_empty m hinv he]
  cases m with
  | zero => exact (h.last heff ⟨rfl, rfl, rfl, rfl⟩ rfl).congr fun _ => rfl
  | succ m =>
    have hslot : SameSlot s ((dropTurn s).setSeq { (dropTurn s).seq with ph := .fill }) := ⟨rfl, rfl, rfl, rfl⟩
    have hrest := delivers_fill m (h.next (v := 0x00#8) hslot rfl rfl) (by rw [fillSlot_ph]; rfl)
    exact h.slot heff hslot (hrest.congr (finished_fillSlot (h.not_last hslot)))

/-- The end of a drain reads of a slot step only that it is not the last. -/
theorem finished_afterPops_fillSlot {u : State} {v : Byte} (m : Nat) (hn : u.seq.i.toNat + 1 < u.seq.n.toNat) (buf : Mem) :
    finished (afterPops m (fillSlot v u)) buf rest = finished (afterPops m u) buf rest := by
  rw [fillSlot_eq, if_neg (Nat.ne_of_lt hn)]
  rfl

/-- The phase POP to the end of the drain: the oldest bytes, then zero bytes (40_byte_queue.md R99). -/
theorem delivers_pop (m : Nat) {s : State} (hinv : QueueInv s) (h : DrainScheduled (m + 1) s rest) (hph : s.seq.ph = .pop) :
    Delivers (m + 1) (m + 1) s (afterPops (m + 1) s) rest
      ((contents s).take (m + 1) ++ List.replicate (m + 1 - s.count) (.byte 0x00#8)) := by
  induction m generalizing s with
  | zero =>
    by_cases he : s.count = 0
    · have hnil : contents s = [] := List.length_eq_zero_iff.1 ((length_contents s).trans he)
      rw [hnil, he]
      exact delivers_pop_of_empty 0 hinv h hph he
    · obtain ⟨v, hv⟩ := head_written hinv he
      have he' : s.empty = false := empty_false.2 he
      have hfill : 0 + 1 - s.count = 0 := by omega
      rw [contents_eq_cons_queuePopped hinv he', hv, hfill, afterPops_of_byte 0 he,
        afterPops_zero (queueInv_queuePopped hinv he') hph]
      have heff := TurnEffect.drainByte (s := dropTurn s) v (shutOut_of_no_request h.request) h.op hph he' hinv.head_lt hv
      exact (h.last heff ⟨rfl, rfl, rfl, rfl⟩ rfl).congr fun _ => rfl
  | succ m ih =>
    by_cases he : s.count = 0
    · have hnil : contents s = [] := List.length_eq_zero_iff.1 ((length_contents s).trans he)
      rw [hnil, he]
      exact delivers_pop_of_empty (m + 1) hinv h hph he
    · obtain ⟨v, hv⟩ := head_written hinv he
      have he' : s.empty = false := empty_false.2 he
      have hfill : m + 1 + 1 - s.count = m + 1 - (s.count - 1) := by omega
      rw [contents_eq_cons_queuePopped hinv he', hv, hfill, afterPops_of_byte (m + 1) he, List.take_succ_cons, List.cons_append]
      have heff := TurnEffect.drainByte (s := dropTurn s) v (shutOut_of_no_request h.request) h.op hph he' hinv.head_lt hv
      have hslot : SameSlot s (queuePopped (dropTurn s)) := ⟨rfl, rfl, rfl, rfl⟩
      have hqueue : SameQueue (queuePopped s) (fillSlot v (queuePopped (dropTurn s))) :=
        SameQueue.fillSlot (s := queuePopped s) (t := queuePopped (dropTurn s)) ⟨rfl, rfl, rfl, rfl, rfl⟩
      have hrest := ih (hqueue.queueInv (queueInv_queuePopped hinv he')) (h.next (v := v) hslot rfl rfl)
        (by rw [fillSlot_ph]; exact hph)
      rw [hqueue.contents_eq, hqueue.count] at hrest
      exact h.slot heff hslot (hrest.congr (finished_afterPops_fillSlot (m + 1) (h.not_last hslot)))

/-- Popping `m` times drops the `m` oldest bytes. -/
theorem contents_afterPops (m : Nat) (s : State) : contents (afterPops m s) = (contents s).drop m := by
  refine List.ext_getElem (by simp [length_contents, afterPops]) fun k hk _ => ?_
  have hk' : k < s.count - m := by simpa [length_contents, afterPops] using hk
  have hslot : heldSlot (afterPops m s) k = heldSlot s (m + k) := by
    show ((s.head + min m s.count) % s.par.cap + k) % s.par.cap = (s.head + (m + k)) % s.par.cap
    rw [Nat.mod_add_mod, Nat.min_eq_left (by omega), Nat.add_assoc]
  rw [List.getElem_drop]
  simp only [contents, List.getElem_map, List.getElem_range, hslot]
  rfl

end

/-- Settles O31: the pops take the oldest bytes until the queue is empty or the last slot is filled, and the slots left
are filled with zero bytes. -/
theorem uninterruptedDrainDelivers : Obligations.UninterruptedDrainDelivers := by
  intro s rest hinv ho hph hi hq hs
  have hpos : s.seq.i.toNat < s.seq.n.toNat := (hinv.seq.drain_slot ho).1
  rw [hi] at hpos
  obtain ⟨m, hm⟩ : ∃ m, s.seq.n.toNat = m + 1 := Nat.exists_eq_succ_of_ne_zero (Nat.ne_of_gt hpos)
  have hsched : DrainScheduled (m + 1) s rest := ⟨ho, hq, by simp [hi, hm], hm ▸ hs⟩
  obtain ⟨t, ⟨hrun, hobs, hfilled, hkept⟩, ht⟩ := delivers_pop m hinv.queue hsched hph
  rw [← hm] at hrun hobs hfilled hkept ht
  rw [hi] at hfilled hkept
  refine ⟨t, hrun, ?_, hobs, ?_, fun a ha => hkept a (.inr (by simpa using ha)), ht⟩
  · rw [← hfilled, result]
    simp
  · rw [← contents_afterPops, ht]
    rfl

/-! ### A blocking read of the bytes that arrive -/

/-- The turns that bring `bytes` to Port B, each taken by the consumer before the next. -/
def arrivals (bytes : List Byte) : List Turn := bytes.flatMap fun b => [.wire .b b, .consumer]

/-- A blocking read of as many bytes as are scheduled to arrive. -/
structure BlkScheduled (bytes : List Byte) (s : State) (rest : List Turn) : Prop where
  op : s.seq.op = .blk
  configured : s.portB.cfgd = true
  notReady : s.portB.rxne = false
  request : s.irqA = false
  slots : s.seq.i.toNat + bytes.length = s.seq.n.toNat
  sched : s.sched = arrivals bytes ++ rest

/-- Port B has received `b`, and the consumer's turn is next. -/
def byteReady (b : Byte) (s : State) : State :=
  (dropTurn s).setPort .b { s.portB with rdr := .byte b, rxne := true }

/-- The consumer has read the byte `b` from Port B, and is to fill its slot. -/
def byteTaken (b : Byte) (s : State) : State :=
  (dropTurn (byteReady b s)).setPort .b { (byteReady b s).portB with rxne := false }

section

variable {s : State} {b : Byte} {bs : List Byte} {rest : List Turn}

theorem BlkScheduled.step_wire (h : BlkScheduled (b :: bs) s rest) : step s = .next (byteReady b s) := by
  have hwire : wire .b b (dropTurn s) = byteReady b s := wire_of_receive (receive_of_free h.configured h.notReady)
  rw [step_of_nextTurn (nextTurn_of_cons h.sched), takeTurn, hwire]

theorem BlkScheduled.step_consumer (h : BlkScheduled (b :: bs) s rest) :
    step (byteReady b s) = .next (fillSlot b (byteTaken b s)) := by
  have hsched : (byteReady b s).sched = .consumer :: (arrivals bs ++ rest) := by
    rw [byteReady, State.setPort_sched, dropTurn_sched, h.sched]
    rfl
  have heff : TurnEffect (dropTurn (byteReady b s)) .consumer (fillSlot b (byteTaken b s)) :=
    .blkByte b (shutOut_of_no_request h.request) h.op rfl rfl
  exact (step_of_nextTurn (nextTurn_of_cons hsched)).trans (takeTurn_of_effect heff)

theorem BlkScheduled.sched_byteTaken (h : BlkScheduled (b :: bs) s rest) : (byteTaken b s).sched = arrivals bs ++ rest := by
  rw [byteTaken, State.setPort_sched, dropTurn_sched, byteReady, State.setPort_sched, dropTurn_sched, h.sched]
  rfl

/-- Once taken, a byte is left in `RDR[B]` with the ready bit clear, as it was before. -/
theorem withRdrB_byteTaken (d : Datum) (hr : s.portB.rxne = false) :
    withRdrB d (byteTaken b s) = withRdrB d (dropTurn (dropTurn s)) := by
  have hport : ({ (byteTaken b s).portB with rdr := d } : PortRegs) = { s.portB with rdr := d } := by
    show ({ rdr := d, rxne := false, cfgd := s.portB.cfgd, baud := s.portB.baud } : PortRegs) = _
    rw [← hr]
  rw [withRdrB, hport]
  rfl

theorem finished_withRdrB_fillSlot {u : State} {v : Byte} (d : Datum) (hn : u.seq.i.toNat + 1 < u.seq.n.toNat) (buf : Mem) :
    finished (withRdrB d (fillSlot v u)) buf rest = finished (withRdrB d u) buf rest := by
  rw [fillSlot_eq, if_neg (Nat.ne_of_lt hn)]
  rfl

/-- Between two slots of a blocking read. -/
theorem BlkScheduled.next {c : Byte} (h : BlkScheduled (b :: c :: bs) s rest) :
    BlkScheduled (c :: bs) (fillSlot b (byteTaken b s)) rest := by
  have hslots : s.seq.i.toNat + (bs.length + 2) = s.seq.n.toNat := h.slots
  have hlt : s.seq.i.toNat + 1 < s.seq.n.toNat := by omega
  have hseq : (fillSlot b (byteTaken b s)).seq = { s.seq with i := s.seq.i + 1#24 } :=
    fillSlot_seq_of_lt (u := byteTaken b s) hlt
  refine ⟨?_, ?_, ?_, (fillSlot_irqA ..).trans h.request, ?_, (fillSlot_sched ..).trans h.sched_byteTaken⟩
  · rw [hseq]
    exact h.op
  · rw [fillSlot_portB]
    exact h.configured
  · rw [fillSlot_portB]
    rfl
  · rw [hseq]
    show (s.seq.i + 1#24).toNat + (bs.length + 1) = s.seq.n.toNat
    rw [toNat_next_slot (Nat.lt_of_succ_lt hlt)]
    omega

/-- Each byte arrives, is taken and goes to its slot (42_receive_wait.md R127). -/
theorem delivers_blk (h : BlkScheduled (b :: bs) s rest) :
    Delivers (2 * (bs.length + 1)) (bs.length + 1) s (withRdrB (.byte (bs.getLastD b)) s) rest ((b :: bs).map .byte) := by
  have hslot : SameSlot (byteReady b s) (byteTaken b s) := ⟨rfl, rfl, rfl, rfl⟩
  have hslots := h.slots
  induction bs generalizing s b with
  | nil =>
    have hlast := delivers_last h.step_consumer hslot (.inr h.op) hslots
    rw [h.sched_byteTaken] at hlast
    have hend (buf : Mem) : finished (byteTaken b s) buf rest = finished (withRdrB (.byte b) s) buf rest := by
      show finished (withRdrB (.byte b) (byteTaken b s)) buf rest = _
      rw [withRdrB_byteTaken _ h.notReady]
      rfl
    exact delivers_wait h.step_wire rfl rfl (.inr h.op) (hlast.congr hend)
  | cons c cs ih =>
    have hlt : s.seq.i.toNat + 1 < s.seq.n.toNat := by
      simp only [List.length_cons] at hslots
      omega
    have hrest := ih h.next ⟨rfl, rfl, rfl, rfl⟩ h.next.slots
    have hend (buf : Mem) : finished (withRdrB (.byte (cs.getLastD c)) (fillSlot b (byteTaken b s))) buf rest =
        finished (withRdrB (.byte (cs.getLastD c)) s) buf rest := by
      rw [finished_withRdrB_fillSlot (u := byteTaken b s) _ hlt, withRdrB_byteTaken _ h.notReady]
      rfl
    have htaken := delivers_slot h.step_consumer hslot (.inr h.op) hlt (hrest.congr hend)
    rw [List.getLastD_cons]
    exact delivers_wait h.step_wire rfl rfl (.inr h.op) htaken

end

/-- Settles O32: each byte that arrives is taken for the next slot, and stays in `RDR[B]`. -/
theorem rdblkDeliversTheArrivingBytes : Obligations.RdblkDeliversTheArrivingBytes := by
  intro s bytes rest hinv ho hi hn hr hq hs
  obtain ⟨hpos, hc⟩ := hinv.seq.blk_slot ho
  cases bytes with
  | nil =>
    rw [hn] at hpos
    cases hpos
  | cons b bs =>
    have hsched : BlkScheduled (b :: bs) s rest := ⟨ho, hc, hr, hq, by simp [hi, hn], hs⟩
    obtain ⟨t, ⟨hrun, hobs, hfilled, hkept⟩, ht⟩ := delivers_blk hsched
    rw [hi] at hfilled hkept
    have hrdr : t.portB.rdr = .byte (bs.getLastD b) := by rw [ht]; rfl
    have hresult : result t (b :: bs).length = (b :: bs).map .byte := by
      rw [← hfilled, result]
      simp
    rw [hn, hresult] at hobs
    refine ⟨t, hrun, hresult, hobs, fun a ha => hkept a (.inr (by simpa using ha)), ?_, ?_⟩
    · rw [hrdr, List.getLast?_cons]
      simp
    · rw [hrdr]
      exact ht

end Sys2Proof.Safety
